-- ==== Sys2Proof/Word.lean ====
section
/-! DEFINITION. The words of the engine (`00_scope.md` R11, R12): bytes, byte strings, and the widths that the
spec gives its fields. -/

namespace Sys2Proof

/-- A byte; bit 7 is the most significant (R11). -/
abbrev Byte := BitVec 8

/-- A byte string, byte 0 first (R11). -/
abbrev Bytes := List Byte

/-- A 13-bit channel ID (R6, R83). -/
abbrev ChanId := BitVec 13

/-- The 16-bit `size_value` of a header (R81). -/
abbrev Size16 := BitVec 16

/-- An `i16`, two's complement: the width of `SEND_WINDOW` (R6, R12, R22). -/
abbrev Window := BitVec 16

/-- The 64 bits of a `u64` or of an `i64` (R12). -/
abbrev Word64 := BitVec 64

end Sys2Proof
end

