-- ==== Sys2Proof/Syntax.lean ====
section
/-! DEFINITION. The instructions: one constructor per row of `spec/opcode_table.json` (R2, R100, R103), with the
operands the row's rule gives it. -/

namespace Sys2Proof

/-- The three flag bits of header byte 2 (R81, R85). They are the opcode of a frame (R19). -/
structure Flags where
  flow : Bool
  body : Bool
  head : Bool
  deriving DecidableEq, Repr

/-- The operand of `init`: the parameters of a Link (R7, R230). `queueCap = none` is an unbounded queue; `sink` and
`channelInit` say whether the embedder supplied the two upcalls. -/
structure LinkConfig where
  nChannels : Nat
  wMax : Nat
  queueCap : Option Nat
  sink : Bool
  channelInit : Bool
  deriving DecidableEq, Repr

/-- The instructions of the engine.
* `frame…` and `routeControl`: a whole frame arrives on the inbound stream (R86, R90; notes/assumptions/6.md).
* `varint…`, `len…`, `text…`: a byte string that begins with the byte form is decoded; `rest` is the string after
  the form (R91, R94, R96; notes/assumptions/7.md).
* the others: the operations of R100. -/
inductive Instr where
  | frameNone (size : Size16) (cid : ChanId)
  | frameHead (size : Size16) (cid : ChanId) (body : Bytes)
  | frameBody (size : Size16) (cid : ChanId) (body : Bytes)
  | frameHeadBody (size : Size16) (cid : ChanId) (body : Bytes)
  | frameAck (size : Size16) (cid : ChanId)
  | frameFlowHead (size : Size16) (cid : ChanId)
  | frameFinal (size : Size16) (cid : ChanId)
  | frameFinalHead (size : Size16) (cid : ChanId)
  | routeControl (flags : Flags) (size : Size16) (body : Bytes)
  | varintCont (group : BitVec 7) (rest : Bytes)
  | varintLast (group : BitVec 7) (rest : Bytes)
  | lenShort (len : BitVec 7) (rest : Bytes)
  | lenLong (hi : BitVec 7) (lo : Byte) (rest : Bytes)
  | textChar1 (c : Byte) (rest : Bytes)
  | textChar1Long (c : Byte) (rest : Bytes)
  | encodeHeader (cid : ChanId) (flags : Flags) (size : Size16)
  | decodeHeader (str : Bytes)
  | frameTotalLength (str : Bytes)
  | payload (frame : Bytes)
  | encodeUint (v : Word64)
  | decodeUint (str : Bytes) (p : Nat)
  | encodeInt (v : Word64)
  | decodeInt (str : Bytes) (p : Nat)
  | encodeLength (n : Nat)
  | decodeLength (str : Bytes) (p : Nat)
  | encodeText (str : Bytes)
  | decodeText (str : Bytes) (p : Nat)
  /-- `none` is an absent (null) input or a negative length (R181). -/
  | recv (inp : Option Bytes)
  | writeFrame (i : Nat) (frame : Bytes)
  | processFrame (i : Nat) (frame : Bytes)
  | getChannel (k : Nat)
  | write (str : Bytes)
  | id (i : Nat)
  | sendWindow (i : Nat)
  | setCallback (i : Nat) (cb : Option Word64)
  | init (cfg : LinkConfig)
  | close
  | destroy
  | makeFrame (cid : ChanId) (flags : Flags) (body : Bytes)
  deriving DecidableEq, Repr

/-- The position in which a word stands. The same byte is a varint byte in one position and a length prefix in
another (R56, R94 "This is not the varint of rule R91"), so a word is decoded in its position
(notes/assumptions/9.md). -/
inductive Position where
  /-- the operation port: `OPSEL` (R100), then the operands -/
  | operation
  /-- the inbound stream, at a frame boundary: a header, then its payload (R80) -/
  | stream
  /-- where a variable-length integer is read (R91) -/
  | varint
  /-- where a length prefix is read (R94) -/
  | length
  /-- where a text is read (R95, R96) -/
  | text
  deriving DecidableEq, Repr

/-- The bytes of one instruction and the position they stand in. -/
structure Words where
  pos : Position
  bytes : Bytes
  deriving DecidableEq, Repr

end Sys2Proof
end

