-- ==== Sys2Proof/Config.lean ====
section
/-! DEFINITION. The constants the source fixes (R6), the statuses and outputs of operations (R250, R15), what an
upcall may answer (R14, R66), and the FREE VALUES: constants with no body, of which nothing can be proved. -/

namespace Sys2Proof

/-- Bytes in a frame header (R6). -/
def headerLen : Nat := 4

/-- Largest total frame size, and the size of the reassembly buffer (R6). -/
def maxFrame : Nat := 0x10000

/-- Largest payload (R6). -/
def maxPayload : Nat := 0xFFFC

/-- The reserved ID that addresses the Link itself (R6). -/
def controlId : Nat := 0x1FFF

/-- Largest ID a channel slot can have (R6). -/
def maxOrdinaryId : Nat := 0x1FFE

/-- Largest length the length prefix can carry (R6). -/
def maxTextLen : Nat := 0x7FFF

/-- The status of an operation (R250). `unknownFrameType` is listed so that the type is the source's; no operation
returns it (R253). -/
inductive Status where
  | ok
  | invalidParameter
  | payloadTooBig
  | unknownFrameType
  | invalidChannelId
  | incompleteNumber
  | incompleteLength
  | incompleteString
  | outputBufferTooSmall
  | linkNotActive
  /-- `c` is the callback's own failure value, passed on unchanged (R259). -/
  | callbackError (c : Int)
  deriving DecidableEq, Repr, Inhabited

/-- The answer of the sink to one `SinkWrite`: all bytes taken, or a failure value (R14, R58). -/
inductive SinkStatus where
  | ok
  | fail (c : Int)
  deriving DecidableEq, Repr, Inhabited

/-- The answer of a `frame_callback` (R206): `OK`, or an opaque failure value. -/
inductive CallbackStatus where
  | ok
  | fail (c : Int)
  deriving DecidableEq, Repr, Inhabited

/-- What one `frame_callback` upcall does: the operations it invokes on the same Link, in order (R66 (a)), and then
its answer. -/
structure CallbackReply where
  calls : List Instr
  answer : CallbackStatus
  deriving DecidableEq, Repr, Inhabited

/-- The fields of a header (R83). -/
structure Header where
  cid : ChanId
  flags : Flags
  size : Size16
  deriving DecidableEq, Repr

/-- The outputs of an operation. A decode operation that fails outputs `err` only: the spec's default value and
unchanged position are not exposed (R15; U18 "a model should expose only `Err(E)`"). -/
inductive Ret where
  /-- `close`, `destroy`, `set_callback` -/
  | unit
  /-- `write_frame`, `write`, `init` -/
  | status (st : Status)
  /-- `Err(E)` of a codec operation -/
  | err (e : Status)
  /-- a byte string: `encode_header`, `payload`, the encoders, `make_frame` -/
  | bytes (str : Bytes)
  /-- `decode_header` -/
  | header (h : Header)
  /-- `frame_total_length` -/
  | nat (n : Nat)
  /-- `Ok(v, p)` of `decode_uint` -/
  | uintAt (v : Word64) (p : Nat)
  /-- `Ok(v, p)` of `decode_int`; `v` is the `i64` -/
  | intAt (v : Word64) (p : Nat)
  /-- `Ok(n, p)` of `decode_length` -/
  | lengthAt (n : Nat) (p : Nat)
  /-- `Ok(S, p)` of `decode_text` -/
  | textAt (str : Bytes) (p : Nat)
  /-- `recv`: `(status, consumed)` -/
  | consumed (st : Status) (n : Nat)
  /-- `process_frame`: `(head, status)` -/
  | headStatus (head : Bool) (st : Status)
  /-- `get_channel`: a slot, or null -/
  | slot (k : Option Nat)
  /-- `id(i)` -/
  | chanId (v : ChanId)
  /-- `send_window(i)` -/
  | window (v : Window)
  deriving DecidableEq, Repr, Inhabited

/-- FREE VALUE. The sink's answer to a `SinkWrite` when the inputs of the operation list none (R9 (3): "a status the
core does not choose"); the argument counts the free values drawn. notes/assumptions/4.md. -/
opaque Config.sinkAnswer : Nat → SinkStatus

/-- FREE VALUE. What a `frame_callback` does when the inputs of the operation list no reply (R9 (4)).
notes/assumptions/4.md. -/
opaque Config.callbackReply : Nat → CallbackReply

/-- FREE VALUE. The operations a `CHANNEL_INIT` upcall invokes when the inputs of `init` list none (R231).
notes/assumptions/4.md. -/
opaque Config.channelInitCalls : Nat → List Instr

/-- FREE VALUE. What `CUR` holds after `destroy` (R237: "every other state element becomes unspecified"), within its
17-bit range (R26). notes/assumptions/13.md. -/
opaque Config.unspecifiedCur : Nat → Fin 0x10001

/-- FREE VALUE. What `payload(F)` outputs for an `F` that is not a well-formed frame (R128: "on an ill-formed one the
spec gives no meaning"). notes/assumptions/14.md. -/
opaque Config.payloadOfIllFormed : Bytes → Ret

end Sys2Proof
end

