-- ==== Sys2Proof/WellFormed.lean ====
section
/-! DEFINITION. Which instructions have words: the checks on operands that the decoder's output meets and that the
encoder needs. The meanings are total; they do not assume these checks. -/

namespace Sys2Proof

/-- The flags say that a payload follows the header (R123), for an instruction as syntax. -/
def Flags.payloadFollows (f : Flags) : Bool := !f.flow && (f.head || f.body)

/-- The bytes that stand with a header on the stream as its frame's payload: `size_value` bytes when the flags say
payload and the size is legal (R80, R87), none when the size is over the limit, since no byte of such a frame is taken
(R183), none without payload (R90). -/
def bodyLength (f : Flags) (size : Size16) : Nat :=
  if f.payloadFollows && decide (size.toNat ≤ maxPayload) then size.toNat else 0

/-- A natural-number operand of an operation fits the 32 bits the model's operand layout gives it
(notes/assumptions/8.md). -/
def fits32 (n : Nat) : Bool := decide (n < 2 ^ 32)

/-- A frame row is for an ordinary ID: the control ID is routed first, as `ROUTE.CONTROL` (R239, R90). -/
def ordinaryId (cid : ChanId) : Bool := decide (cid.toNat ≠ controlId)

/-- The well-formed instructions. -/
def Instr.wf : Instr → Bool
  | .frameNone _ cid => ordinaryId cid
  | .frameHead size cid body => ordinaryId cid && decide (body.length = bodyLength ⟨false, false, true⟩ size)
  | .frameBody size cid body => ordinaryId cid && decide (body.length = bodyLength ⟨false, true, false⟩ size)
  | .frameHeadBody size cid body => ordinaryId cid && decide (body.length = bodyLength ⟨false, true, true⟩ size)
  | .frameAck _ cid => ordinaryId cid
  | .frameFlowHead _ cid => ordinaryId cid
  | .frameFinal _ cid => ordinaryId cid
  | .frameFinalHead _ cid => ordinaryId cid
  | .routeControl flags size body => decide (body.length = bodyLength flags size)
  | .varintCont _ _ => true
  | .varintLast _ _ => true
  | .lenShort _ _ => true
  | .lenLong _ _ _ => true
  | .textChar1 _ _ => true
  | .textChar1Long _ _ => true
  | .encodeHeader _ _ _ => true
  | .decodeHeader _ => true
  | .frameTotalLength _ => true
  | .payload _ => true
  | .encodeUint _ => true
  | .decodeUint str p => fits32 str.length && fits32 p
  | .encodeInt _ => true
  | .decodeInt str p => fits32 str.length && fits32 p
  | .encodeLength n => fits32 n
  | .decodeLength str p => fits32 str.length && fits32 p
  | .encodeText str => fits32 str.length
  | .decodeText str p => fits32 str.length && fits32 p
  | .recv none => true
  | .recv (some inp) => fits32 inp.length
  | .writeFrame i _ => fits32 i
  | .processFrame i _ => fits32 i
  | .getChannel k => fits32 k
  | .write str => fits32 str.length
  | .id i => fits32 i
  | .sendWindow i => fits32 i
  | .setCallback i _ => fits32 i
  | .init cfg => fits32 cfg.nChannels && fits32 cfg.wMax && (cfg.queueCap.map fits32).getD true
  | .close => true
  | .destroy => true
  | .makeFrame _ _ body => fits32 body.length

end Sys2Proof
end

