-- ==== Sys2Proof/Decode.lean ====
section
/-! DEFINITION. The decoder, total on any bytes in any position, and the encoder. The layouts of frames and codec
byte forms are the spec's (R81 to R84, R91, R94, R96). `OPSEL` is the spec's numbering (R100); how the operands follow
it is the model's (notes/assumptions/8.md), since the spec gives them no words. -/

namespace Sys2Proof

/-- Why bytes are no instruction. -/
inductive DecodeError where
  /-- the bytes end before the instruction does -/
  | truncated
  /-- bytes stand after the end of the instruction -/
  | trailingBytes
  /-- bits 7..5 of the selector byte are not zero: `OPSEL` has 5 bits (R103) -/
  | selectorTooWide
  /-- `OPSEL` 24 to 31 name no operation (R100) -/
  | selectorUnassigned
  /-- an operand is wider than its rule allows (R120: "a larger ID cannot be presented") -/
  | operandTooWide
  /-- a tag byte is neither 0 nor 1 -/
  | badTag
  /-- the bytes after the header are not exactly the frame's payload (R80) -/
  | payloadLength
  /-- a text that does not begin with the one-character shorthand (R96) -/
  | notShorthand
  deriving DecidableEq, Repr

/-! ### Fields -/

/-- The flag bits of header byte 2 (R81, R83). -/
def Flags.ofByte (b : Byte) : Flags := ⟨b.getLsbD 7, b.getLsbD 6, b.getLsbD 5⟩

/-- The flags as a byte whose bits 4..0 are zero (R81): `FLOW` 0x80, `BODY` 0x40, `HEAD` 0x20. -/
def Flags.toByte (f : Flags) : Byte :=
  (if f.flow then 0x80#8 else 0#8) ||| (if f.body then 0x40#8 else 0#8) ||| (if f.head then 0x20#8 else 0#8)

/-- The ID in header bytes 2 and 3 (R83): `((B[2] & 0x1F) << 8) | B[3]`. -/
def cidOfBytes (b2 b3 : Byte) : ChanId := ((b2 &&& 0x1F#8).setWidth 13 <<< 8) ||| b3.setWidth 13

/-- `size_value` in header bytes 0 and 1 (R83): `(B[0] << 8) | B[1]`. -/
def sizeOfBytes (b0 b1 : Byte) : Size16 := (b0.setWidth 16 <<< 8) ||| b1.setWidth 16

/-- The four header bytes of given fields (R84). -/
def headerBytes (cid : ChanId) (flags : Flags) (size : Size16) : Bytes :=
  [size.extractLsb' 8 8, size.extractLsb' 0 8,
   flags.toByte ||| (cid.extractLsb' 8 5).setWidth 8, cid.extractLsb' 0 8]

/-- The group or length bits 6..0 of a byte (R91, R94). -/
def low7 (b : Byte) : BitVec 7 := b.setWidth 7

/-- `c vvvvvvv`: bit 7, then 7 bits (R91, R94). -/
def withTop (c : Bool) (v : BitVec 7) : Byte := (if c then 0x80#8 else 0#8) ||| v.setWidth 8

/-! ### Readers and writers of the operand layout -/

/-- A reader takes bytes and gives a value and the bytes after it. -/
abbrev Reader (α : Type) := Bytes → Except DecodeError (α × Bytes)

def readByte : Reader Byte
  | [] => .error .truncated
  | b :: rest => .ok (b, rest)

/-- `n` bytes, big-endian, in front of the value `acc` read so far. -/
def readBig : Nat → Nat → Reader Nat
  | 0, acc, rest => .ok (acc, rest)
  | _ + 1, _, [] => .error .truncated
  | n + 1, acc, b :: rest => readBig n (acc * 256 + b.toNat) rest

/-- The `n` low bytes of `v`, big-endian. -/
def writeBig : Nat → Nat → Bytes
  | 0, _ => []
  | n + 1, v => BitVec.ofNat 8 (v / 256 ^ n) :: writeBig n v

/-- A natural number in 4 bytes. -/
def readNat : Reader Nat := readBig 4 0

def writeNat (n : Nat) : Bytes := writeBig 4 n

/-- A 64-bit word in 8 bytes. -/
def readWord64 : Reader Word64 := fun str =>
  match readBig 8 0 str with
  | .error e => .error e
  | .ok (v, rest) => .ok (BitVec.ofNat 64 v, rest)

def writeWord64 (v : Word64) : Bytes := writeBig 8 v.toNat

/-- A 16-bit word in 2 bytes. -/
def readSize : Reader Size16 := fun str =>
  match readBig 2 0 str with
  | .error e => .error e
  | .ok (v, rest) => .ok (BitVec.ofNat 16 v, rest)

def writeSize (v : Size16) : Bytes := writeBig 2 v.toNat

/-- A 13-bit ID in 2 bytes; a wider value cannot be presented (R120). -/
def readCid : Reader ChanId := fun str =>
  match readBig 2 0 str with
  | .error e => .error e
  | .ok (v, rest) => if v < 2 ^ 13 then .ok (BitVec.ofNat 13 v, rest) else .error .operandTooWide

def writeCid (v : ChanId) : Bytes := writeBig 2 v.toNat

/-- Flags in one byte whose bits 4..0 are zero (R120). -/
def readFlags : Reader Flags
  | [] => .error .truncated
  | b :: rest => if b &&& 0x1F#8 = 0#8 then .ok (Flags.ofByte b, rest) else .error .operandTooWide

def writeFlags (f : Flags) : Bytes := [f.toByte]

/-- A Boolean in one byte, 0 or 1. -/
def readBool : Reader Bool
  | [] => .error .truncated
  | b :: rest => if b = 0#8 then .ok (false, rest) else if b = 1#8 then .ok (true, rest) else .error .badTag

def writeBool (b : Bool) : Bytes := [if b then 1#8 else 0#8]

/-- A byte string: its length in 4 bytes, then its bytes. -/
def readString : Reader Bytes := fun str =>
  match readNat str with
  | .error e => .error e
  | .ok (n, rest) => if n ≤ rest.length then .ok (rest.take n, rest.drop n) else .error .truncated

def writeString (str : Bytes) : Bytes := writeNat str.length ++ str

/-- A byte string that runs to the end of the command: a header, or a whole frame. -/
def readRest : Reader Bytes := fun str => .ok (str, [])

/-- An optional value: a byte 0 for none, or a byte 1 and the value. -/
def readOption {α : Type} (read : Reader α) : Reader (Option α) := fun str =>
  match readBool str with
  | .error e => .error e
  | .ok (false, rest) => .ok (none, rest)
  | .ok (true, rest) =>
    match read rest with
    | .error e => .error e
    | .ok (v, rest') => .ok (some v, rest')

def writeOption {α : Type} (writeSome : α → Bytes) : Option α → Bytes
  | none => writeBool false
  | some v => writeBool true ++ writeSome v

/-- The input of `recv`: a byte 0 and the string, or a byte 1 for an absent input. -/
def readInput : Reader (Option Bytes) := fun str =>
  match readBool str with
  | .error e => .error e
  | .ok (true, rest) => .ok (none, rest)
  | .ok (false, rest) =>
    match readString rest with
    | .error e => .error e
    | .ok (v, rest') => .ok (some v, rest')

def writeInput : Option Bytes → Bytes
  | none => writeBool true
  | some v => writeBool false ++ writeString v

/-- The operand of `init`, field by field. -/
def readConfig : Reader LinkConfig := fun str => do
  let (n, str) ← readNat str
  let (w, str) ← readNat str
  let (cap, str) ← readOption readNat str
  let (sink, str) ← readBool str
  let (ci, str) ← readBool str
  .ok (⟨n, w, cap, sink, ci⟩, str)

def writeConfig (c : LinkConfig) : Bytes :=
  writeNat c.nChannels ++ (writeNat c.wMax ++ (writeOption writeNat c.queueCap ++
    (writeBool c.sink ++ writeBool c.channelInit)))

/-! ### Decoding -/

/-- An instruction ends where its bytes end. -/
def complete : Except DecodeError (Instr × Bytes) → Except DecodeError Instr
  | .error e => .error e
  | .ok (i, []) => .ok i
  | .ok (_, _ :: _) => .error .trailingBytes

/-- One operand, then the instruction built from it. -/
def operand {α : Type} (read : Reader α) (mk : α → Instr) : Reader Instr := fun str =>
  match read str with
  | .error e => .error e
  | .ok (v, rest) => .ok (mk v, rest)

/-- Two operands, the first one first. -/
def operands {α β : Type} (readA : Reader α) (readB : Reader β) (mk : α → β → Instr) : Reader Instr := fun str =>
  match readA str with
  | .error e => .error e
  | .ok (a, rest) => operand readB (mk a) rest

/-- The operands of operation `opsel` (R100). -/
def readOperation (opsel : Nat) : Reader Instr :=
  match opsel with
  | 0 => fun str =>
    match readCid str with
    | .error e => .error e
    | .ok (cid, rest) => operands readFlags readSize (.encodeHeader cid) rest
  | 1 => operand readRest .decodeHeader
  | 2 => operand readRest .frameTotalLength
  | 3 => operand readRest .payload
  | 4 => operand readWord64 .encodeUint
  | 5 => operands readString readNat .decodeUint
  | 6 => operand readWord64 .encodeInt
  | 7 => operands readString readNat .decodeInt
  | 8 => operand readNat .encodeLength
  | 9 => operands readString readNat .decodeLength
  | 10 => operand readString .encodeText
  | 11 => operands readString readNat .decodeText
  | 12 => operand readInput .recv
  | 13 => operands readNat readRest .writeFrame
  | 14 => operands readNat readRest .processFrame
  | 15 => operand readNat .getChannel
  | 16 => operand readString .write
  | 17 => operand readNat .id
  | 18 => operand readNat .sendWindow
  | 19 => operands readNat (readOption readWord64) .setCallback
  | 20 => operand readConfig .init
  | 21 => fun str => .ok (.close, str)
  | 22 => fun str => .ok (.destroy, str)
  | 23 => fun str =>
    match readCid str with
    | .error e => .error e
    | .ok (cid, rest) => operands readFlags readString (.makeFrame cid) rest
  | _ => fun _ => .error .selectorUnassigned

/-- An operation: the selector byte, then the operands. -/
def decodeOperation : Bytes → Except DecodeError Instr
  | [] => .error .truncated
  | b :: rest => if b &&& 0xE0#8 = 0#8 then complete (readOperation b.toNat rest) else .error .selectorTooWide

/-- The frame row that a header selects: the control ID is tested before the kind (R239, R90), the kind is the three
flag bits (R86). -/
def frameInstr (cid : ChanId) (f : Flags) (size : Size16) (body : Bytes) : Instr :=
  if cid.toNat = controlId then .routeControl f size body
  else
    match f with
    | ⟨false, false, false⟩ => .frameNone size cid
    | ⟨false, false, true⟩ => .frameHead size cid body
    | ⟨false, true, false⟩ => .frameBody size cid body
    | ⟨false, true, true⟩ => .frameHeadBody size cid body
    | ⟨true, false, false⟩ => .frameAck size cid
    | ⟨true, false, true⟩ => .frameFlowHead size cid
    | ⟨true, true, false⟩ => .frameFinal size cid
    | ⟨true, true, true⟩ => .frameFinalHead size cid

/-- A frame on the stream: header, then exactly its payload (R80, R87). -/
def decodeStream : Bytes → Except DecodeError Instr
  | b0 :: b1 :: b2 :: b3 :: body =>
    let f := Flags.ofByte b2
    let size := sizeOfBytes b0 b1
    if body.length = bodyLength f size then .ok (frameInstr (cidOfBytes b2 b3) f size body) else .error .payloadLength
  | _ => .error .truncated

/-- A varint byte and the string after it; bit 7 is the continuation bit (R91). -/
def decodeVarint : Bytes → Except DecodeError Instr
  | [] => .error .truncated
  | b :: rest => if b.getLsbD 7 then .ok (.varintCont (low7 b) rest) else .ok (.varintLast (low7 b) rest)

/-- A length prefix and the string after it; bit 7 of the first byte tells the form (R94). -/
def decodePrefixForm : Bytes → Except DecodeError Instr
  | [] => .error .truncated
  | b0 :: rest =>
    if b0.getLsbD 7 then
      match rest with
      | [] => .error .truncated
      | b1 :: rest' => .ok (.lenLong (low7 b0) b1 rest')
    else .ok (.lenShort (low7 b0) rest)

/-- The one-character shorthand of a text, in its two forms (R96). -/
def decodeShorthand : Bytes → Except DecodeError Instr
  | [] => .error .truncated
  | b0 :: rest =>
    if b0 = 0x00#8 then
      match rest with
      | [] => .error .truncated
      | c :: rest' => .ok (.textChar1 c rest')
    else if b0 = 0x80#8 then
      match rest with
      | b1 :: c :: rest' => if b1 = 0x00#8 then .ok (.textChar1Long c rest') else .error .notShorthand
      | _ => .error .truncated
    else .error .notShorthand

/-- The decoder. -/
def decode (w : Words) : Except DecodeError Instr :=
  match w.pos with
  | .operation => decodeOperation w.bytes
  | .stream => decodeStream w.bytes
  | .varint => decodeVarint w.bytes
  | .length => decodePrefixForm w.bytes
  | .text => decodeShorthand w.bytes

/-! ### Encoding -/

/-- The words of an operation: `OPSEL` in one byte, then the operands. -/
def opWords (opsel : Nat) (operandBytes : Bytes) : Words := ⟨.operation, BitVec.ofNat 8 opsel :: operandBytes⟩

/-- The words of a frame on the stream. -/
def frameWords (cid : ChanId) (f : Flags) (size : Size16) (body : Bytes) : Words :=
  ⟨.stream, headerBytes cid f size ++ body⟩

/-- The encoder. -/
def encode : Instr → Words
  | .frameNone size cid => frameWords cid ⟨false, false, false⟩ size []
  | .frameHead size cid body => frameWords cid ⟨false, false, true⟩ size body
  | .frameBody size cid body => frameWords cid ⟨false, true, false⟩ size body
  | .frameHeadBody size cid body => frameWords cid ⟨false, true, true⟩ size body
  | .frameAck size cid => frameWords cid ⟨true, false, false⟩ size []
  | .frameFlowHead size cid => frameWords cid ⟨true, false, true⟩ size []
  | .frameFinal size cid => frameWords cid ⟨true, true, false⟩ size []
  | .frameFinalHead size cid => frameWords cid ⟨true, true, true⟩ size []
  | .routeControl flags size body => frameWords (BitVec.ofNat 13 controlId) flags size body
  | .varintCont g rest => ⟨.varint, withTop true g :: rest⟩
  | .varintLast g rest => ⟨.varint, withTop false g :: rest⟩
  | .lenShort l rest => ⟨.length, withTop false l :: rest⟩
  | .lenLong hi lo rest => ⟨.length, withTop true hi :: lo :: rest⟩
  | .textChar1 c rest => ⟨.text, 0x00#8 :: c :: rest⟩
  | .textChar1Long c rest => ⟨.text, 0x80#8 :: 0x00#8 :: c :: rest⟩
  | .encodeHeader cid flags size => opWords 0 (writeCid cid ++ (writeFlags flags ++ writeSize size))
  | .decodeHeader str => opWords 1 str
  | .frameTotalLength str => opWords 2 str
  | .payload frame => opWords 3 frame
  | .encodeUint v => opWords 4 (writeWord64 v)
  | .decodeUint str p => opWords 5 (writeString str ++ writeNat p)
  | .encodeInt v => opWords 6 (writeWord64 v)
  | .decodeInt str p => opWords 7 (writeString str ++ writeNat p)
  | .encodeLength n => opWords 8 (writeNat n)
  | .decodeLength str p => opWords 9 (writeString str ++ writeNat p)
  | .encodeText str => opWords 10 (writeString str)
  | .decodeText str p => opWords 11 (writeString str ++ writeNat p)
  | .recv inp => opWords 12 (writeInput inp)
  | .writeFrame i frame => opWords 13 (writeNat i ++ frame)
  | .processFrame i frame => opWords 14 (writeNat i ++ frame)
  | .getChannel k => opWords 15 (writeNat k)
  | .write str => opWords 16 (writeString str)
  | .id i => opWords 17 (writeNat i)
  | .sendWindow i => opWords 18 (writeNat i)
  | .setCallback i cb => opWords 19 (writeNat i ++ writeOption writeWord64 cb)
  | .init cfg => opWords 20 (writeConfig cfg)
  | .close => opWords 21 []
  | .destroy => opWords 22 []
  | .makeFrame cid flags body => opWords 23 (writeCid cid ++ (writeFlags flags ++ writeString body))

/-! ### Words as the opcode table numbers them -/

/-- The position in which `decodeTableWord` reads a word of a given width: 32 bits are a header; 24 bits the long
shorthand; 16 bits a long length prefix when bit 15 is set (`LEN.LONG`) and the shorthand else; 8 bits an operation when
the byte is a selector and a varint byte else. `LEN.SHORT` has the very bits of `VARINT.LAST`, which are read first
(notes/assumptions/9.md). -/
def tablePosition (nbits w : Nat) : Option Position :=
  match nbits with
  | 8 => some (if w < 24 then .operation else .varint)
  | 16 => some (if w < 0x8000 then .text else .length)
  | 24 => some .text
  | 32 => some .stream
  | _ => none

/-- How many bytes operation `opsel` has after its selector when all its operand bytes are zero; a header or a frame is
then the four bytes of an all-zero header. -/
def zeroOperandBytes (opsel : Nat) : Nat :=
  match opsel with
  | 0 => 5
  | 1 => 4
  | 2 => 4
  | 3 => 4
  | 4 => 8
  | 5 => 8
  | 6 => 8
  | 7 => 8
  | 8 => 4
  | 9 => 8
  | 10 => 4
  | 11 => 8
  | 12 => 5
  | 13 => 8
  | 14 => 8
  | 15 => 4
  | 16 => 4
  | 17 => 4
  | 18 => 4
  | 19 => 5
  | 20 => 11
  | 23 => 7
  | _ => 0

/-- How many zero bytes follow the table's word: an operation's operands, a frame's payload, and, after a varint byte
with the continuation bit set, the byte that ends the varint. -/
def zeroTail (pos : Position) (w : Nat) : Nat :=
  match pos with
  | .operation => zeroOperandBytes w
  | .stream =>
    let word := BitVec.ofNat 32 w
    bodyLength (Flags.ofByte (word.extractLsb' 8 8)) (word.extractLsb' 16 16)
  | .varint => if w < 0x80 then 0 else 1
  | .length => 0
  | .text => 0

/-- The bytes of an instruction whose bits are `w` as the opcode table numbers them: the word's bytes, most significant
first (R55, R94), then zeros. -/
def tableWords (nbits w : Nat) : Option Words :=
  match tablePosition nbits w with
  | none => none
  | some pos => some ⟨pos, writeBig (nbits / 8) (w % 2 ^ nbits) ++ List.replicate (zeroTail pos w) 0#8⟩

/-- The instruction the decoder reads from a word of the opcode table. -/
def decodeTableWord (nbits w : Nat) : Option Instr :=
  match tableWords nbits w with
  | none => none
  | some words =>
    match decode words with
    | .ok i => some i
    | .error _ => none

end Sys2Proof
end

