-- ==== Sys2Proof/Machine/State.lean ====
section
/-! DEFINITION. The state of one Link (`10_state.md` R20), the model's own fields for inputs and observations, the
faults and the refusals, and the state after reset. -/

namespace Sys2Proof.Machine

/-- `LINK_STATE` (R29). -/
inductive LinkState where
  | uninitialized
  | active
  | closed
  | failed
  deriving DecidableEq, Repr

/-- One channel slot (R21 to R24). -/
structure Channel where
  /-- `CH[i].ID` -/
  chanId : ChanId
  /-- `CH[i].SEND_WINDOW`, an `i16` -/
  window : Window
  /-- `CH[i].Q`, head (oldest frame) first -/
  queue : List Bytes
  /-- `CH[i].CB`: none, or the embedder's handle of a registered callback (notes/assumptions/11.md) -/
  callback : Option Word64
  deriving DecidableEq, Repr

/-- The inputs of one operation: what the three upcalls answer, in the order they are made (R9, R266;
notes/assumptions/4.md). -/
structure Env where
  /-- the answers to `SinkWrite` -/
  sink : List SinkStatus
  /-- the replies of `frame_callback` -/
  callback : List CallbackReply
  /-- what the embedder invokes inside each `CHANNEL_INIT` -/
  channelInit : List (List Instr)
  deriving DecidableEq, Repr

/-- One operation the embedder has issued: its bytes, and its inputs (notes/assumptions/3.md). -/
structure Command where
  words : Words
  env : Env
  deriving DecidableEq, Repr

/-- What a run is observed by (R10). -/
inductive Event where
  /-- a byte string handed to `SinkWrite`, and the answer -/
  | sink (str : Bytes) (st : SinkStatus)
  /-- a `frame_callback` of channel `i`, registered under `handle`, with the frame's bytes, the length passed, and the
  answer; the events of operations invoked inside it follow -/
  | callback (i : Nat) (handle : Word64) (frame : Bytes) (len : Nat) (answer : CallbackStatus)
  /-- a `CHANNEL_INIT` of slot `i` -/
  | channelInit (i : Nat)
  /-- the outputs an operation returned -/
  | ret (r : Ret)
  deriving DecidableEq, Repr

/-- The state of one Link, and with it the model's `port`, `env`, `draws` and `trace`. -/
structure State where
  /-- `LINK_STATE` (R29) -/
  linkState : LinkState
  /-- `RBUF` (R25): the bytes that have been written, by rising address -/
  rbuf : List Host.Cell
  /-- `CUR` (R26) -/
  cur : Nat
  /-- `CH[0]`, `CH[1]`, … (R20): slot `i` is element `i` -/
  chans : List Channel
  /-- the configuration fixed by `init` (R28) -/
  cfg : LinkConfig
  /-- the model's: commands issued and not yet run -/
  port : List Command
  /-- the model's: the inputs of the running operation -/
  env : Env
  /-- the model's: how many free values have been drawn -/
  draws : Nat
  /-- the model's: the observations so far, oldest first -/
  trace : List Event
  deriving DecidableEq, Repr

/-- The machine stops with a fault. -/
inductive Fault where
  /-- Raised by every operation on a channel slot, when its index is no slot of this Link (R50: slots are
  `0 .. N_CHANNELS - 1`; the embedder gets no handle for another, R234). Safe: the spec gives such a slot no
  behaviour. -/
  | noSlot (i : Nat)
  /-- Raised by `recv` when it would read a byte of `RBUF` that was never written (R25: only `RBUF[0..CUR)` is
  meaningful "and no rule reads" the rest). No state that meets the machine's invariant raises it. Safe. -/
  | unwrittenRead (a : Nat)
  deriving DecidableEq, Repr

/-- The step has no meaning. -/
inductive Refusal where
  /-- An instruction without a meaning in this model. Safe. -/
  | notModelled (mnemonic : String)
  /-- Raised by the step when a command's bytes encode no instruction. Safe: no operation was invoked. -/
  | undecodable (e : DecodeError)
  /-- Raised by every stateful operation but `init` and `destroy` while `LINK_STATE` is `Uninitialized`
  (R232 "refused"). Safe. -/
  | uninitialized
  /-- Raised by `init` when `LINK_STATE` is not `Uninitialized` (R230 "no meaning (refused)"). Safe. -/
  | alreadyInitialized
  /-- Raised by `process_frame`, invoked directly, when `LINK_STATE` is `Closed` or `Failed` (R232, D25). Safe. -/
  | processNotActive
  /-- Raised by `process_frame`, invoked directly, on a frame that is not well-formed (R202, D25, U20). Safe. -/
  | processIllFormed
  /-- Raised by `process_frame`, invoked directly, on a frame whose ID is not the channel's (R202, D25, U20). Safe. -/
  | processWrongChannel
  /-- Raised by `write_frame` when it would enqueue on a full finite queue of channel `i` (R211 "given no meaning by
  this spec (refused)"). Safe. -/
  | queueFull (i : Nat)
  /-- Raised by a `frame_callback` that invokes an operation R66 (a) does not list (R66 (b) "refused"). Safe. -/
  | notInCallback
  /-- Raised by a `CHANNEL_INIT` that invokes anything but registration and accessors on the slot handed over
  (R231 "refused"). Safe. -/
  | notInChannelInit
  deriving DecidableEq, Repr

/-- Slots `i, i+1, …`, `n` of them, as `init` leaves them (R35, R230). -/
def freshChannels (w : Nat) : Nat → Nat → List Channel
  | _, 0 => []
  | i, n + 1 => ⟨BitVec.ofNat 13 i, BitVec.ofNat 16 w, [], none⟩ :: freshChannels w (i + 1) n

/-- No inputs given: every answer is then a free value. -/
def Env.empty : Env := ⟨[], [], []⟩

/-- The instance parameters of `State.reset`: the spec's typical values (R7). notes/assumptions/1.md. -/
def LinkConfig.typical : LinkConfig := ⟨8191, 8, none, true, false⟩

/-- The machine right after reset, that is when `init` returns `OK` (R35, R290), with the typical parameters and no
`CHANNEL_INIT`: `Active`, `CUR = 0`, every slot fresh; `RBUF` has no defined content. -/
def State.reset : State where
  linkState := .active
  rbuf := []
  cur := 0
  chans := freshChannels LinkConfig.typical.wMax 0 LinkConfig.typical.nChannels
  cfg := LinkConfig.typical
  port := []
  env := Env.empty
  draws := 0
  trace := []

/-- Before the first `init`: `Uninitialized`, and no other state element has a defined value (R291, R35). DESIGN CHOICE
(notes/assumptions/1.md): the spec gives none of the values here but `linkState`; no slot is listed, no byte of `RBUF`,
`CUR` is 0, and `cfg`, which `init` will fix and nothing reads while `Uninitialized`, is the typical one. -/
def State.powerOn : State where
  linkState := .uninitialized
  rbuf := []
  cur := 0
  chans := []
  cfg := LinkConfig.typical
  port := []
  env := Env.empty
  draws := 0
  trace := []

end Sys2Proof.Machine
end

