-- ==== Sys2Proof/Machine/Ops.lean ====
section
/-! DEFINITION. The named operations over memory, slots, upcalls and statuses that every meaning is written from. -/

namespace Sys2Proof.Machine

/-! ### The reassembly buffer (R50, R51, R13) -/

/-- The canonical form of a list of cells from address `lo` on: strictly rising addresses. -/
def Memory.risingFrom (lo : Nat) : List Host.Cell → Bool
  | [] => true
  | (a, _) :: rest => decide (lo ≤ a) && Memory.risingFrom (a + 1) rest

/-- The canonical form of `RBUF`: strictly rising addresses, all below 0x10000 (R25). An address that is not listed
has no value (notes/assumptions/2.md), so no listed byte could equal it. -/
def Memory.wf (m : List Host.Cell) : Bool := Memory.risingFrom 0 m && m.all (fun c => decide (c.1 < maxFrame))

/-- The byte at address `a`; none where nothing was written. -/
def Memory.read (m : List Host.Cell) (a : Nat) : Option Byte :=
  match m with
  | [] => none
  | (x, b) :: rest => if x = a then some b else Memory.read rest a

/-- `m` with byte `v` at address `a`. -/
def Memory.write (m : List Host.Cell) (a : Nat) (v : Byte) : List Host.Cell :=
  match m with
  | [] => [(a, v)]
  | (x, b) :: rest =>
    if a < x then (a, v) :: (x, b) :: rest
    else if a = x then (a, v) :: rest
    else (x, b) :: Memory.write rest a v

/-- `MemRead(a, n)` (R13): the `n` bytes from address `a`; none where one of them was never written. -/
def Memory.readRange (m : List Host.Cell) (a : Nat) : Nat → Option Bytes
  | 0 => some []
  | n + 1 =>
    match Memory.read m a, Memory.readRange m (a + 1) n with
    | some b, some rest => some (b :: rest)
    | _, _ => none

/-- One inbound byte: `MemWrite(CUR, 1, b); CUR <- CUR + 1` (R182, R184). -/
def storeByte (b : Byte) (s : State) : State :=
  { s with rbuf := Memory.write s.rbuf s.cur b, cur := s.cur + 1 }

/-! ### Results of internal procedures -/

/-- What an internal procedure ends in: its value and the state it leaves, or a stop. -/
abbrev Res (α : Type) := Host.Outcome (α × State) Fault Refusal

/-- Go on with the value and the state of a procedure that did not stop. -/
def andThen {α β : Type} (r : Res α) (k : α → State → Res β) : Res β :=
  match r with
  | .next (v, s) => k v s
  | .fault e => .fault e
  | .refused e => .refused e

/-- Record an observation (R10). -/
def emit (e : Event) (s : State) : State := { s with trace := s.trace ++ [e] }

/-- An operation ends: its outputs are observed, and the state is the next state (R8). -/
def returns {α : Type} (out : α → Ret) (r : Res α) : Host.Outcome State Fault Refusal :=
  match r with
  | .next (v, s) => .next (emit (.ret (out v)) s)
  | .fault e => .fault e
  | .refused e => .refused e

/-- An operation that only computes outputs (R34, R59): nothing else changes. -/
def returnsPure (r : Ret) (s : State) : Host.Outcome State Fault Refusal := .next (emit (.ret r) s)

/-- A FATAL ERROR, the engine's one "exception" (R262, R264): the Link fails at the point of detection and the status
goes to the caller. Nothing is saved (no cause, no cursor), and control goes nowhere else. There is no return from it
(R265): only `destroy` and a new `init`. -/
def raiseFatal (e : Status) (s : State) : Res Status := .next (e, { s with linkState := .failed })

/-! ### Slots -/

/-- Slot `i` of the channel table, for the procedure `k`; an index that is no slot faults (R50). -/
def withChannel {α : Type} (i : Nat) (s : State) (k : Channel → Res α) : Res α :=
  match s.chans[i]? with
  | none => .fault (.noSlot i)
  | some c => k c

/-- Replace slot `i`. -/
def setChannel (i : Nat) (c : Channel) (s : State) : State := { s with chans := s.chans.set i c }

/-! ### Upcalls (R14, R266) -/

/-- The sink's answer to the next `SinkWrite`: the next input, or a free value. -/
def drawSink (s : State) : SinkStatus × State :=
  match s.env.sink with
  | a :: rest => (a, { s with env := { s.env with sink := rest } })
  | [] => (Config.sinkAnswer s.draws, { s with draws := s.draws + 1 })

/-- What the next `frame_callback` does: the next input, or a free value. -/
def drawCallback (s : State) : CallbackReply × State :=
  match s.env.callback with
  | a :: rest => (a, { s with env := { s.env with callback := rest } })
  | [] => (Config.callbackReply s.draws, { s with draws := s.draws + 1 })

/-- What the next `CHANNEL_INIT` invokes: the next input, or a free value. -/
def drawChannelInit (s : State) : List Instr × State :=
  match s.env.channelInit with
  | a :: rest => (a, { s with env := { s.env with channelInit := rest } })
  | [] => (Config.channelInitCalls s.draws, { s with draws := s.draws + 1 })

/-- `SinkWrite(B) -> st` (R14): hand `B` to the sink and take its status. -/
def sinkWrite (str : Bytes) (s : State) : SinkStatus × State :=
  let (st, s1) := drawSink s
  (st, emit (.sink str st) s1)

/-- The status of a `SinkWrite`, as the core reports it (R200, R258): a failure, whatever its value, is a fatal
`OutputBufferTooSmall`. -/
def sinkStatus (st : SinkStatus) (s : State) : Res Status :=
  match st with
  | .ok => .next (.ok, s)
  | .fail _ => raiseFatal .outputBufferTooSmall s

/-! ### The command port -/

/-- The next command, and the state in which its operation runs: the command is taken off the port and its inputs are
the operation's. -/
def takeCommand (s : State) : Option (Words × State) :=
  match s.port with
  | [] => none
  | c :: rest => some (c.words, { s with port := rest, env := c.env })

end Sys2Proof.Machine
end

