-- ==== Sys2Proof/Machine/Flags.lean ====
section
/-! DEFINITION. The predicates over the three flag bits of a header (`40_header_codec.md` R122 to R126). They are pure
functions; the engine stores no flag (R30). -/

namespace Sys2Proof.Machine

/-- `has_flow(flags) = (flags & 0x80) != 0` (R122). -/
def hasFlow (f : Flags) : Bool := f.toByte &&& 0x80#8 != 0#8

/-- `has_body_or_head(flags) = (flags & 0x60) != 0` (R122). -/
def hasBodyOrHead (f : Flags) : Bool := f.toByte &&& 0x60#8 != 0#8

/-- `has_payload(flags) = !has_flow(flags) && has_body_or_head(flags)` (R123). -/
def hasPayload (f : Flags) : Bool := !hasFlow f && hasBodyOrHead f

/-- `is_ack(flags) = (flags & 0xE0) == 0x80` (R124). No operation branches on it. -/
def isAck (f : Flags) : Bool := f.toByte &&& 0xE0#8 == 0x80#8

/-- `is_final(flags) = (flags & 0xC0) == 0xC0` (R125). -/
def isFinal (f : Flags) : Bool := f.toByte &&& 0xC0#8 == 0xC0#8

/-- `has_head(flags) = (flags & 0x20) != 0` (R126). -/
def hasHead (f : Flags) : Bool := f.toByte &&& 0x20#8 != 0#8

end Sys2Proof.Machine
end

