-- ==== Sys2Proof/Machine/Operands.lean ====
section
/-! DEFINITION. What the operations take from their operands: the fields of a header and of a frame (`30_encoding.md`
R83, R84; `40_header_codec.md`), and the spec's numbers for statuses and link states. -/

namespace Sys2Proof.Machine

/-- Byte `k` of a string; only called where the string has it. -/
def byteAt (str : Bytes) (k : Nat) : Byte := str.getD k 0#8

/-- The fields of the header in `B[0..4)` (R83, R121). -/
def headerOf (str : Bytes) : Header where
  cid := cidOfBytes (byteAt str 2) (byteAt str 3)
  flags := Flags.ofByte (byteAt str 2)
  size := sizeOfBytes (byteAt str 0) (byteAt str 1)

/-- `frame_id(F)` (R131). -/
def frameId (frame : Bytes) : ChanId := (headerOf frame).cid

/-- `frame_flags(F)` (R131). -/
def frameFlags (frame : Bytes) : Flags := (headerOf frame).flags

/-- `frame_total_length(B)` for a string of at least 4 bytes (R127). It is not capped. -/
def totalLength (str : Bytes) : Nat :=
  if hasPayload (frameFlags str) then headerLen + (headerOf str).size.toNat else headerLen

/-- `frame_wf(F)` (R129). -/
def frameWf (frame : Bytes) : Bool :=
  decide (headerLen ≤ frame.length) && decide (frame.length = totalLength frame) && decide (frame.length ≤ maxFrame)

/-- `make_ack(i)` (R130, R98): flags 0x80, `size_value` 0. -/
def makeAck (cid : ChanId) : Bytes := headerBytes cid ⟨true, false, false⟩ 0#16

/-- The payload of a well-formed frame (R128): `F[4 .. 4 + size_value)` or empty. -/
def payloadOf (frame : Bytes) : Bytes :=
  if hasPayload (frameFlags frame) then (frame.drop headerLen).take (headerOf frame).size.toNat else []

/-- The 2-bit encoding of `LINK_STATE` (R29). -/
def LinkState.code : LinkState → BitVec 2
  | .uninitialized => 0#2
  | .active => 1#2
  | .closed => 2#2
  | .failed => 3#2

/-- The number of a status (R250). -/
def statusCode : Status → Nat
  | .ok => 0
  | .invalidParameter => 1
  | .payloadTooBig => 2
  | .unknownFrameType => 3
  | .invalidChannelId => 4
  | .incompleteNumber => 5
  | .incompleteLength => 6
  | .incompleteString => 7
  | .outputBufferTooSmall => 8
  | .linkNotActive => 9
  | .callbackError _ => 10

end Sys2Proof.Machine
end

