-- ==== Sys2Proof/Machine/HeaderCodec.lean ====
section
/-! DEFINITION. The header and frame codec operations (`40_header_codec.md`): `encode_header`, `decode_header`,
`frame_total_length`, `payload`, `make_frame`. All are pure (R34). -/

namespace Sys2Proof.Machine

/-- `decode_header(B)` (R121). -/
def decodeHeader (str : Bytes) : Except Status Header :=
  if str.length < headerLen then .error .invalidParameter else .ok (headerOf str)

/-- `make_frame(id, flags, P)` (R133). -/
def makeFrame (cid : ChanId) (flags : Flags) (body : Bytes) : Except Status Bytes :=
  if body.length > maxPayload then .error .payloadTooBig
  else if !hasPayload flags && body.length != 0 then .error .invalidParameter
  else .ok (headerBytes cid flags (BitVec.ofNat 16 body.length) ++ body)

/-- The outputs of a codec operation that can fail (R15). -/
def codecRet {α : Type} (out : α → Ret) : Except Status α → Ret
  | .error e => .err e
  | .ok v => out v

/-- `encode_header(id, flags, size)` (R120). -/
def execEncodeHeader (cid : ChanId) (flags : Flags) (size : Size16) (s : State) :
    Host.Outcome State Fault Refusal :=
  returnsPure (.bytes (headerBytes cid flags size)) s

/-- `decode_header(B)` (R121). -/
def execDecodeHeader (str : Bytes) (s : State) : Host.Outcome State Fault Refusal :=
  returnsPure (codecRet .header (decodeHeader str)) s

/-- `frame_total_length(B)` (R127). -/
def execFrameTotalLength (str : Bytes) (s : State) : Host.Outcome State Fault Refusal :=
  returnsPure (codecRet (fun _ => .nat (totalLength str)) (decodeHeader str)) s

/-- `payload(F)` (R128); on an ill-formed frame the output is free (notes/assumptions/14.md). -/
def execPayload (frame : Bytes) (s : State) : Host.Outcome State Fault Refusal :=
  returnsPure (if frameWf frame then .bytes (payloadOf frame) else Config.payloadOfIllFormed frame) s

/-- `make_frame(id, flags, P)` (R133). -/
def execMakeFrame (cid : ChanId) (flags : Flags) (body : Bytes) (s : State) : Host.Outcome State Fault Refusal :=
  returnsPure (codecRet .bytes (makeFrame cid flags body)) s

end Sys2Proof.Machine
end

