-- ==== Sys2Proof/Machine/VarintCodec.lean ====
section
/-! DEFINITION. The variable-length integer codec (`41_varint_codec.md`): `encode_uint`, `decode_uint`, `encode_int`,
`decode_int`, and the two varint byte forms. All are pure (R34). -/

namespace Sys2Proof.Machine

/-- The loop of `encode_uint` (R140), at most `fuel` groups. -/
def encodeUintLoop : Nat → Word64 → Bytes
  | 0, _ => []
  | fuel + 1, v =>
    if v >>> 7 = 0#64 then [withTop false (v.extractLsb' 0 7)]
    else withTop true (v.extractLsb' 0 7) :: encodeUintLoop fuel (v >>> 7)

/-- `encode_uint(v)` (R140); a `u64` takes at most 10 groups (R91). -/
def encodeUint (v : Word64) : Bytes := encodeUintLoop 10 v

/-- What group `k` adds to the value (R142): bits above bit 63 are dropped, and groups 10 and up add nothing. -/
def contribution (g : BitVec 7) (k : Nat) : Word64 :=
  if k ≤ 9 then g.setWidth 64 <<< (7 * k) else 0#64

/-- The loop of `decode_uint` (R141) on the string from group `k` on, with the value `v` accumulated so far: the value,
and how many groups were read in all. -/
def decodeUintLoop : Bytes → Nat → Word64 → Except Status (Word64 × Nat)
  | [], _, _ => .error .incompleteNumber
  | b :: rest, k, v =>
    let v' := v ||| contribution (low7 b) k
    if b.getLsbD 7 then decodeUintLoop rest (k + 1) v' else .ok (v', k + 1)

/-- `decode_uint(B, p)` (R141). -/
def decodeUint (str : Bytes) (p : Nat) : Except Status (Word64 × Nat) :=
  match decodeUintLoop (str.drop p) 0 0#64 with
  | .error e => .error e
  | .ok (v, k) => .ok (v, p + k)

/-- The zig-zag map `(v << 1) ^ (v >>s 63)` (R143, R93). -/
def zigzag (v : Word64) : Word64 := (v <<< 1) ^^^ (v.sshiftRight 63)

/-- Its inverse (R144): logical shift right, complemented when bit 0 was set. -/
def unzigzag (u : Word64) : Word64 := if u &&& 1#64 != 0#64 then ~~~(u >>> 1) else u >>> 1

/-- `encode_int(v)` (R143). -/
def encodeInt (v : Word64) : Bytes := encodeUint (zigzag v)

/-- `decode_int(B, p)` (R144). -/
def decodeInt (str : Bytes) (p : Nat) : Except Status (Word64 × Nat) :=
  match decodeUint str p with
  | .error e => .error e
  | .ok (u, p') => .ok (unzigzag u, p')

/-- The outputs of `decode_uint`. -/
def uintRet (str : Bytes) (p : Nat) : Ret := codecRet (fun r => .uintAt r.1 r.2) (decodeUint str p)

/-- `encode_uint(v)` (R140). -/
def execEncodeUint (v : Word64) (s : State) : Host.Outcome State Fault Refusal :=
  returnsPure (.bytes (encodeUint v)) s

/-- `decode_uint(B, p)` (R141). -/
def execDecodeUint (str : Bytes) (p : Nat) (s : State) : Host.Outcome State Fault Refusal :=
  returnsPure (uintRet str p) s

/-- `encode_int(v)` (R143). -/
def execEncodeInt (v : Word64) (s : State) : Host.Outcome State Fault Refusal :=
  returnsPure (.bytes (encodeInt v)) s

/-- `decode_int(B, p)` (R144). -/
def execDecodeInt (str : Bytes) (p : Nat) (s : State) : Host.Outcome State Fault Refusal :=
  returnsPure (codecRet (fun r => .intAt r.1 r.2) (decodeInt str p)) s

/-- `VARINT.CONT` (R91, R141): a varint whose first byte is `1vvvvvvv` is decoded, `rest` being the string after that
byte; more bytes follow, and this byte is group 0. -/
def execVarintCont (g : BitVec 7) (rest : Bytes) (s : State) : Host.Outcome State Fault Refusal :=
  returnsPure (uintRet (withTop true g :: rest) 0) s

/-- `VARINT.LAST` (R91, R141): a varint whose first byte is `0vvvvvvv` is decoded; it is the last byte. -/
def execVarintLast (g : BitVec 7) (rest : Bytes) (s : State) : Host.Outcome State Fault Refusal :=
  returnsPure (uintRet (withTop false g :: rest) 0) s

end Sys2Proof.Machine
end

