-- ==== Sys2Proof/Machine/TextCodec.lean ====
section
/-! DEFINITION. The length prefix and text codec (`42_text_codec.md`): `encode_length`, `decode_length`, `encode_text`,
`decode_text`, and their byte forms. All are pure (R34). The one-character shorthand is provisional (R165). -/

namespace Sys2Proof.Machine

/-- `encode_length(n)` (R160). -/
def encodeLength (n : Nat) : Except Status Bytes :=
  if n ≤ 127 then .ok [BitVec.ofNat 8 n]
  else if n ≤ maxTextLen then .ok [0x80#8 ||| BitVec.ofNat 8 (n / 256), BitVec.ofNat 8 n]
  else .error .payloadTooBig

/-- `decode_length(B, p)` (R161). -/
def decodeLength (str : Bytes) (p : Nat) : Except Status (Nat × Nat) :=
  match str[p]? with
  | none => .error .incompleteLength
  | some b0 =>
    if b0 &&& 0x80#8 = 0#8 then .ok (b0.toNat, p + 1)
    else
      match str[p + 1]? with
      | none => .error .incompleteLength
      | some b1 => .ok ((b0 &&& 0x7F#8).toNat * 256 + b1.toNat, p + 2)

/-- `encode_text(S)` (R162): the plain length-prefixed form, never the shorthand. -/
def encodeText (str : Bytes) : Except Status Bytes :=
  if str.length = 0 then .error .invalidParameter
  else if str.length > maxTextLen then .error .payloadTooBig
  else
    match encodeLength str.length with
    | .error e => .error e
    | .ok pre => .ok (pre ++ str)

/-- `decode_text(B, p)` (R163). -/
def decodeText (str : Bytes) (p : Nat) : Except Status (Bytes × Nat) :=
  match decodeLength str p with
  | .error e => .error e
  | .ok (n, q) =>
    if n = 0 then
      if q ≥ str.length then .error .incompleteString else .ok ((str.drop q).take 1, q + 1)
    else if q + n > str.length then .error .incompleteString
    else .ok ((str.drop q).take n, q + n)

/-- The outputs of `decode_length`. -/
def lengthRet (str : Bytes) (p : Nat) : Ret := codecRet (fun r => .lengthAt r.1 r.2) (decodeLength str p)

/-- The outputs of `decode_text`. -/
def textRet (str : Bytes) (p : Nat) : Ret := codecRet (fun r => .textAt r.1 r.2) (decodeText str p)

/-- `encode_length(n)` (R160). -/
def execEncodeLength (n : Nat) (s : State) : Host.Outcome State Fault Refusal :=
  returnsPure (codecRet .bytes (encodeLength n)) s

/-- `decode_length(B, p)` (R161). -/
def execDecodeLength (str : Bytes) (p : Nat) (s : State) : Host.Outcome State Fault Refusal :=
  returnsPure (lengthRet str p) s

/-- `encode_text(S)` (R162). -/
def execEncodeText (str : Bytes) (s : State) : Host.Outcome State Fault Refusal :=
  returnsPure (codecRet .bytes (encodeText str)) s

/-- `decode_text(B, p)` (R163). -/
def execDecodeText (str : Bytes) (p : Nat) (s : State) : Host.Outcome State Fault Refusal :=
  returnsPure (textRet str p) s

/-- `LEN.SHORT` (R94, R161): a length prefix `0lllllll` is decoded. -/
def execLenShort (l : BitVec 7) (rest : Bytes) (s : State) : Host.Outcome State Fault Refusal :=
  returnsPure (lengthRet (withTop false l :: rest) 0) s

/-- `LEN.LONG` (R94, R161): a length prefix `1hhhhhhh llllllll` is decoded. -/
def execLenLong (hi : BitVec 7) (lo : Byte) (rest : Bytes) (s : State) : Host.Outcome State Fault Refusal :=
  returnsPure (lengthRet (withTop true hi :: lo :: rest) 0) s

/-- `TEXT.CHAR1` (R96, R163): the shorthand `00000000 cccccccc` is decoded as a text. -/
def execTextChar1 (c : Byte) (rest : Bytes) (s : State) : Host.Outcome State Fault Refusal :=
  returnsPure (textRet (0x00#8 :: c :: rest) 0) s

/-- `TEXT.CHAR1.LONG` (R96, R163): the shorthand after the non-minimal zero prefix `80 00` is decoded as a text. -/
def execTextChar1Long (c : Byte) (rest : Bytes) (s : State) : Host.Outcome State Fault Refusal :=
  returnsPure (textRet (0x80#8 :: 0x00#8 :: c :: rest) 0) s

end Sys2Proof.Machine
end

