-- ==== Sys2Proof/Machine/ChannelOps.lean ====
section
/-! DEFINITION. The channel flow-control state machine, send side and accessors (`44_channel.md`): `transmit`, `drain`,
`write_frame`, `id`, `send_window`, `set_callback`; and the Link's `get_channel` and raw `write` (`45_link.md`). -/

namespace Sys2Proof.Machine

/-- `transmit(i, F)` (R200): one frame goes to the sink; the window is decremented unless the frame is final, whether
or not the sink took it. -/
def transmit (i : Nat) (frame : Bytes) (s : State) : Res Status :=
  withChannel i s fun c =>
    let (st, s1) := sinkWrite frame s
    sinkStatus st
      (if isFinal (frameFlags frame) then s1 else setChannel i { c with window := c.window - 1#16 } s1)

/-- `SEND_WINDOW < 1`, as signed numbers (R22). -/
def windowClosed (c : Channel) : Bool := decide (c.window.toInt < 1)

/-- The loop of `drain(i)` (R203) while the queue is `q`. -/
def drainLoop (i : Nat) : List Bytes → State → Res Status
  | [], s => .next (.ok, s)
  | frame :: rest, s =>
    withChannel i s fun c =>
      if !isFinal (frameFlags frame) && windowClosed c then .next (.ok, s)
      else
        andThen (transmit i frame (setChannel i { c with queue := rest } s)) fun st s1 =>
          if st = .ok then drainLoop i rest s1 else .next (st, s1)

/-- `drain(i)` (R203). -/
def drain (i : Nat) (s : State) : Res Status := withChannel i s fun c => drainLoop i c.queue s

/-- Is a queue of capacity `cap` full (R211)? -/
def queueIsFull (cap : Option Nat) (q : List Bytes) : Bool :=
  match cap with
  | none => false
  | some n => decide (n ≤ q.length)

/-- `Q.push_back(copy of F); return OK` (R201, R211). -/
def enqueue (i : Nat) (frame : Bytes) (s : State) : Res Status :=
  withChannel i s fun c =>
    if queueIsFull s.cfg.queueCap c.queue then .refused (.queueFull i)
    else .next (.ok, setChannel i { c with queue := c.queue ++ [frame] } s)

/-- What `write_frame` does with a checked frame (R201): drain, then send or enqueue. -/
def submit (i : Nat) (frame : Bytes) (s : State) : Res Status :=
  andThen (drain i s) fun st s1 =>
    if st ≠ .ok then .next (st, s1)
    else
      withChannel i s1 fun c =>
        if c.queue.isEmpty && !windowClosed c then transmit i frame s1 else enqueue i frame s1

/-- `write_frame(i, F)` on a Link that is `Active`: the entry checks (R201, R263), then `submit`. -/
def writeFrameActive (i : Nat) (frame : Bytes) (s : State) : Res Status :=
  if frame.length < headerLen then .next (.invalidParameter, s)
  else if frame.length > maxFrame ∨ totalLength frame > maxFrame then .next (.payloadTooBig, s)
  else if frame.length ≠ totalLength frame then .next (.invalidParameter, s)
  else withChannel i s fun c => if frameId frame ≠ c.chanId then .next (.invalidChannelId, s) else submit i frame s

/-- An operation that R232 refuses before `init` and answers `LinkNotActive` in `Closed` and `Failed`. -/
def whenActive {α : Type} (inactive : α) (s : State) (r : Res α) : Res α :=
  match s.linkState with
  | .uninitialized => .refused .uninitialized
  | .active => r
  | .closed => .next (inactive, s)
  | .failed => .next (inactive, s)

/-- An operation that R232 allows in every state but `Uninitialized`. -/
def whenConstructed {α : Type} (s : State) (r : Res α) : Res α :=
  match s.linkState with
  | .uninitialized => .refused .uninitialized
  | .active => r
  | .closed => r
  | .failed => r

/-- `write_frame(i, F)` (R201). -/
def writeFrame (i : Nat) (frame : Bytes) (s : State) : Res Status :=
  whenActive .linkNotActive s (writeFrameActive i frame s)

/-- `write(B)` (R235): straight to the sink, unchecked. -/
def write (str : Bytes) (s : State) : Res Status :=
  whenActive .linkNotActive s
    (let (st, s1) := sinkWrite str s
     sinkStatus st s1)

/-- `CH[i].ID` (R207). -/
def readId (i : Nat) (s : State) : Res ChanId := withChannel i s fun c => .next (c.chanId, s)

/-- `CH[i].SEND_WINDOW` (R207). -/
def readWindow (i : Nat) (s : State) : Res Window := withChannel i s fun c => .next (c.window, s)

/-- `CH[i].CB <- cb` (R208). -/
def registerCallback (i : Nat) (cb : Option Word64) (s : State) : Res Unit :=
  withChannel i s fun c => .next ((), setChannel i { c with callback := cb } s)

/-- `get_channel(id)` (R234): the slot, or null at or above `N_CHANNELS`. -/
def lookupChannel (k : Nat) (s : State) : Res (Option Nat) :=
  .next (if k < s.cfg.nChannels then some k else none, s)

/-- `write_frame(i, F)` (R201). -/
def execWriteFrame (i : Nat) (frame : Bytes) (s : State) : Host.Outcome State Fault Refusal :=
  returns .status (writeFrame i frame s)

/-- `write(B)` (R235). -/
def execWrite (str : Bytes) (s : State) : Host.Outcome State Fault Refusal := returns .status (write str s)

/-- `id(i)` (R207, R232). -/
def execId (i : Nat) (s : State) : Host.Outcome State Fault Refusal :=
  returns .chanId (whenConstructed s (readId i s))

/-- `send_window(i)` (R207, R232). -/
def execSendWindow (i : Nat) (s : State) : Host.Outcome State Fault Refusal :=
  returns .window (whenConstructed s (readWindow i s))

/-- `set_callback(i, cb)` (R208, R232). -/
def execSetCallback (i : Nat) (cb : Option Word64) (s : State) : Host.Outcome State Fault Refusal :=
  returns (fun _ => .unit) (whenConstructed s (registerCallback i cb s))

/-- `get_channel(id)` (R234, R232). -/
def execGetChannel (k : Nat) (s : State) : Host.Outcome State Fault Refusal :=
  returns .slot (whenConstructed s (lookupChannel k s))

end Sys2Proof.Machine
end

