-- ==== Sys2Proof/Machine/Reentrant.lean ====
section
/-! DEFINITION. What the embedder may invoke from inside an upcall (`20_memory.md` R66, `45_link.md` R231):
inside `frame_callback`, `write_frame`, `write`, `get_channel`, the accessors, `set_callback` and the pure codec;
inside `CHANNEL_INIT`, registration and the accessors on the slot handed over. -/

namespace Sys2Proof.Machine

/-- One operation invoked from inside a `frame_callback` (R66 (a), (b); notes/assumptions/10.md). -/
def execInCallback (i : Instr) (s : State) : Host.Outcome State Fault Refusal :=
  match i with
  | .frameNone _ _ => .refused .notInCallback
  | .frameHead _ _ _ => .refused .notInCallback
  | .frameBody _ _ _ => .refused .notInCallback
  | .frameHeadBody _ _ _ => .refused .notInCallback
  | .frameAck _ _ => .refused .notInCallback
  | .frameFlowHead _ _ => .refused .notInCallback
  | .frameFinal _ _ => .refused .notInCallback
  | .frameFinalHead _ _ => .refused .notInCallback
  | .routeControl _ _ _ => .refused .notInCallback
  | .varintCont g rest => execVarintCont g rest s
  | .varintLast g rest => execVarintLast g rest s
  | .lenShort l rest => execLenShort l rest s
  | .lenLong hi lo rest => execLenLong hi lo rest s
  | .textChar1 c rest => execTextChar1 c rest s
  | .textChar1Long c rest => execTextChar1Long c rest s
  | .encodeHeader cid flags size => execEncodeHeader cid flags size s
  | .decodeHeader str => execDecodeHeader str s
  | .frameTotalLength str => execFrameTotalLength str s
  | .payload frame => execPayload frame s
  | .encodeUint v => execEncodeUint v s
  | .decodeUint str p => execDecodeUint str p s
  | .encodeInt v => execEncodeInt v s
  | .decodeInt str p => execDecodeInt str p s
  | .encodeLength n => execEncodeLength n s
  | .decodeLength str p => execDecodeLength str p s
  | .encodeText str => execEncodeText str s
  | .decodeText str p => execDecodeText str p s
  | .recv _ => .refused .notInCallback
  | .writeFrame j frame => execWriteFrame j frame s
  | .processFrame _ _ => .refused .notInCallback
  | .getChannel k => execGetChannel k s
  | .write str => execWrite str s
  | .id j => execId j s
  | .sendWindow j => execSendWindow j s
  | .setCallback j cb => execSetCallback j cb s
  | .init _ => .refused .notInCallback
  | .close => .refused .notInCallback
  | .destroy => .refused .notInCallback
  | .makeFrame cid flags body => execMakeFrame cid flags body s

/-- The operations a `frame_callback` invokes, in order. -/
def runInCallback : List Instr → State → Res Unit
  | [], s => .next ((), s)
  | i :: rest, s =>
    match execInCallback i s with
    | .next s1 => runInCallback rest s1
    | .fault e => .fault e
    | .refused e => .refused e

/-- One operation invoked from inside the `CHANNEL_INIT` of slot `slot` (R231). -/
def execInChannelInit (slot : Nat) (i : Instr) (s : State) : Host.Outcome State Fault Refusal :=
  match i with
  | .setCallback j cb =>
    if j = slot then returns (fun _ => .unit) (registerCallback j cb s) else .refused .notInChannelInit
  | .id j => if j = slot then returns .chanId (readId j s) else .refused .notInChannelInit
  | .sendWindow j => if j = slot then returns .window (readWindow j s) else .refused .notInChannelInit
  | .frameNone _ _ | .frameHead _ _ _ | .frameBody _ _ _ | .frameHeadBody _ _ _ | .frameAck _ _
  | .frameFlowHead _ _ | .frameFinal _ _ | .frameFinalHead _ _ | .routeControl _ _ _ | .varintCont _ _
  | .varintLast _ _ | .lenShort _ _ | .lenLong _ _ _ | .textChar1 _ _ | .textChar1Long _ _
  | .encodeHeader _ _ _ | .decodeHeader _ | .frameTotalLength _ | .payload _ | .encodeUint _ | .decodeUint _ _
  | .encodeInt _ | .decodeInt _ _ | .encodeLength _ | .decodeLength _ _ | .encodeText _ | .decodeText _ _
  | .recv _ | .writeFrame _ _ | .processFrame _ _ | .getChannel _ | .write _ | .init _ | .close | .destroy
  | .makeFrame _ _ _ => .refused .notInChannelInit

/-- The operations one `CHANNEL_INIT` invokes, in order. -/
def runInChannelInit (slot : Nat) : List Instr → State → Res Unit
  | [], s => .next ((), s)
  | i :: rest, s =>
    match execInChannelInit slot i s with
    | .next s1 => runInChannelInit slot rest s1
    | .fault e => .fault e
    | .refused e => .refused e

end Sys2Proof.Machine
end

