-- ==== Sys2Proof/Machine/Lifecycle.lean ====
section
/-! DEFINITION. Construction, `close` and `destroy` (`45_link.md` R230 to R232, R236, R237; `70_reset_and_hazards.md`
R290). -/

namespace Sys2Proof.Machine

/-- The argument check of `init` (R230). -/
def configLegal (cfg : LinkConfig) : Bool :=
  decide (1 ≤ cfg.nChannels) && decide (cfg.nChannels ≤ 8191) && decide (1 ≤ cfg.wMax) && decide (cfg.wMax ≤ 32767) &&
    cfg.sink

/-- The `CHANNEL_INIT` upcalls of slots `i, i+1, …`, `k` of them, ascending (R230, R231). -/
def channelInits : Nat → Nat → State → Res Unit
  | 0, _, s => .next ((), s)
  | k + 1, i, s =>
    let (calls, s1) := drawChannelInit s
    andThen (runInChannelInit i calls (emit (.channelInit i) s1)) fun _ s2 => channelInits k (i + 1) s2

/-- All slots fresh, `CUR` 0, `RBUF` without defined content, the parameters fixed (R230, R35). -/
def construct (cfg : LinkConfig) (s : State) : State :=
  { s with rbuf := [], cur := 0, chans := freshChannels cfg.wMax 0 cfg.nChannels, cfg := cfg }

/-- `init(cfg)` (R230). -/
def initLink (cfg : LinkConfig) (s : State) : Res Status :=
  if s.linkState ≠ .uninitialized then .refused .alreadyInitialized
  else if !configLegal cfg then .next (.invalidParameter, s)
  else
    andThen (if cfg.channelInit then channelInits cfg.nChannels 0 (construct cfg s) else .next ((), construct cfg s))
      fun _ s1 => .next (.ok, { s1 with linkState := .active })

/-- `close()` (R236, R232): `Closed`; nothing is sent, discarded or changed else. -/
def closeLink (s : State) : Res Unit := whenConstructed s (.next ((), { s with linkState := .closed }))

/-- `destroy()` (R237, R232): `Uninitialized`; every other element becomes unspecified and inaccessible: no slot, no
byte of `RBUF` with a value, `CUR` a free value (notes/assumptions/13.md). No effect when already `Uninitialized`. -/
def destroyLink (s : State) : Res Unit :=
  if s.linkState = .uninitialized then .next ((), s)
  else
    .next ((), { s with linkState := .uninitialized, rbuf := [], chans := [],
                        cur := (Config.unspecifiedCur s.draws).val, draws := s.draws + 1 })

/-- `init(cfg)` (R230). -/
def execInit (cfg : LinkConfig) (s : State) : Host.Outcome State Fault Refusal := returns .status (initLink cfg s)

/-- `close()` (R236). -/
def execClose (s : State) : Host.Outcome State Fault Refusal := returns (fun _ => .unit) (closeLink s)

/-- `destroy()` (R237). -/
def execDestroy (s : State) : Host.Outcome State Fault Refusal := returns (fun _ => .unit) (destroyLink s)

end Sys2Proof.Machine
end

