-- ==== Sys2Proof/Machine/Receive.lean ====
section
/-! DEFINITION. The receive side: `process_frame` (`44_channel.md` R202, R204 to R206), `route` and `control_handler`
(`45_link.md` R238, R239), and the reassembler `feed`, which is `recv` (`43_reassembler.md` R188). -/

namespace Sys2Proof.Machine

/-- Credit (R204): `SEND_WINDOW + 1`, not limited to `W_MAX`; at 0x7FFF it stays. -/
def creditWindow (w : Window) : Window := if w = 0x7FFF#16 then w else w + 1#16

/-- Credit, then drain (R202, first branch). -/
def creditAndDrain (i : Nat) (s : State) : Res Status :=
  withChannel i s fun c => drain i (setChannel i { c with window := creditWindow c.window } s)

/-- Ack emission (R205): straight to the sink, no window, no queue. -/
def ackEmission (i : Nat) (s : State) : Res Status :=
  withChannel i s fun c =>
    let (st, s1) := sinkWrite (makeAck c.chanId) s
    sinkStatus st s1

/-- The status of a callback's answer (R206, R259). -/
def callbackStatus : CallbackStatus → Status
  | .ok => .ok
  | .fail c => .callbackError c

/-- Callback invocation (R206): with none registered the status is `OK`; otherwise the whole frame and its length are
passed, the embedder's nested operations run, and its answer is the status. -/
def callbackInvocation (i : Nat) (frame : Bytes) (s : State) : Res Status :=
  withChannel i s fun c =>
    match c.callback with
    | none => .next (.ok, s)
    | some handle =>
      let (reply, s1) := drawCallback s
      andThen (runInCallback reply.calls (emit (.callback i handle frame frame.length reply.answer) s1)) fun _ s2 =>
        .next (callbackStatus reply.answer, s2)

/-- The payload branch of `process_frame` (R202): ack unless final, and only if the ack succeeded, the callback. -/
def ackAndNotify (i : Nat) (frame : Bytes) (s : State) : Res (Bool × Status) :=
  andThen (if isFinal (frameFlags frame) then .next (.ok, s) else ackEmission i s) fun st s1 =>
    if st ≠ .ok then .next ((false, st), s1)
    else andThen (callbackInvocation i frame s1) fun st' s2 => .next ((hasHead (frameFlags frame), st'), s2)

/-- `process_frame(i, F)` (R202), for a well-formed frame of channel `i` on an `Active` Link. -/
def processFrame (i : Nat) (frame : Bytes) (s : State) : Res (Bool × Status) :=
  if hasPayload (frameFlags frame) then ackAndNotify i frame s
  else andThen (creditAndDrain i s) fun st s1 => .next ((false, st), s1)

/-- `control_handler(F)` (R238): a frame for the control ID is a protocol violation. -/
def controlHandler (s : State) : Res Status := raiseFatal .invalidChannelId s

/-- `route(F)` (R239): the control ID first, then the range. -/
def route (frame : Bytes) (s : State) : Res Status :=
  if (frameId frame).toNat = controlId then controlHandler s
  else if (frameId frame).toNat < s.cfg.nChannels then
    andThen (processFrame (frameId frame).toNat frame s) fun r s1 => .next (r.2, s1)
  else raiseFatal .invalidChannelId s

/-- `while CUR < t and input remains`: store the next input byte (R182, R184). Gives the input that remains. -/
def fill (t : Nat) : Bytes → State → Bytes × State
  | [], s => ([], s)
  | b :: rest, s => if s.cur < t then fill t rest (storeByte b s) else (b :: rest, s)

/-- `MemRead(a, n)` where the bytes must have been written (R25). -/
def readBuffer (a n : Nat) (s : State) (k : Bytes → Res (Status × Nat)) : Res (Status × Nat) :=
  match Memory.readRange s.rbuf a n with
  | none => .fault (.unwrittenRead a)
  | some str => k str

/-- Step 4 (R186): the frame boundary. -/
def frameBoundary (s : State) : State := { s with cur := 0 }

/-- The outer loop of `feed` (R188). `n` is the input's length, `fs` the index where the frame in progress starts,
`rest` the input that remains; `i` of the pseudocode is `n - rest.length`. Each round but perhaps the first takes a
byte, so `fuel = n + 1` rounds are enough. -/
def feedLoop (n : Nat) : Nat → Nat → Bytes → State → Res (Status × Nat)
  | 0, _, _, s => .next ((.ok, n), s)
  | fuel + 1, fs, rest, s =>
    if rest.isEmpty then .next ((.ok, n), s)
    else
      -- step 1: header phase
      let (rest1, s1) := fill headerLen rest s
      if s1.cur < headerLen then .next ((.ok, n), s1)
      else
        -- step 2a: length
        readBuffer 0 headerLen s1 fun hdr =>
          if totalLength hdr > maxFrame then
            andThen (raiseFatal .payloadTooBig s1) fun st s2 => .next ((st, fs), s2)
          else
            -- step 2b: payload phase
            let (rest2, s2) := fill (totalLength hdr) rest1 s1
            if s2.cur < totalLength hdr then .next ((.ok, n), s2)
            else
              -- step 3: dispatch
              readBuffer 0 (totalLength hdr) s2 fun frame =>
                andThen (route frame s2) fun st s3 =>
                  if s3.linkState = .failed then
                    .next ((if st = .ok then .linkNotActive else st, fs), s3)
                  else
                    -- step 4: frame boundary
                    let s4 := frameBoundary s3
                    if st ≠ .ok then .next ((st, n - rest2.length), s4)
                    else feedLoop n fuel (n - rest2.length) rest2 s4

/-- `feed(inp)` on an `Active` Link (R188). -/
def feed (inp : Bytes) (s : State) : Res (Status × Nat) := feedLoop inp.length (inp.length + 1) 0 inp s

/-- `recv(inp)` (R233, R181): the entry checks, then `feed`. -/
def recv (inp : Option Bytes) (s : State) : Res (Status × Nat) :=
  whenActive (.linkNotActive, 0) s
    (match inp with
     | none => .next ((.invalidParameter, 0), s)
     | some str => feed str s)

/-- `recv(inp)` (R233): the outputs are `(status, consumed)`. -/
def execRecv (inp : Option Bytes) (s : State) : Host.Outcome State Fault Refusal :=
  returns (fun r => .consumed r.1 r.2) (recv inp s)

/-- `process_frame(i, F)` invoked by the embedder (R202, R232): its preconditions are `Active`, a slot, a well-formed
frame, and the channel's own ID; a call that breaks them has no meaning. -/
def execProcessFrame (i : Nat) (frame : Bytes) (s : State) : Host.Outcome State Fault Refusal :=
  match s.linkState with
  | .uninitialized => .refused .uninitialized
  | .closed => .refused .processNotActive
  | .failed => .refused .processNotActive
  | .active =>
    returns (fun r => .headStatus r.1 r.2)
      (withChannel i s fun c =>
        if !frameWf frame then .refused .processIllFormed
        else if frameId frame ≠ c.chanId then .refused .processWrongChannel
        else processFrame i frame s)

end Sys2Proof.Machine
end

