-- ==== Sys2Proof/Machine/Wire.lean ====
section
/-! DEFINITION. The frame kinds as instructions (`30_encoding.md` R86, R90): a whole frame arrives on the inbound
stream, that is, its bytes are the input of `recv` (R233). What then happens is by the frame's ID (R239) and by its
flags (R202, R86). notes/assumptions/6.md. -/

namespace Sys2Proof.Machine

/-- The bytes of a frame arrive (R80, R233). -/
def arrive (cid : ChanId) (flags : Flags) (size : Size16) (body : Bytes) (s : State) :
    Host.Outcome State Fault Refusal :=
  returns (fun r => .consumed r.1 r.2) (recv (some (headerBytes cid flags size ++ body)) s)

/-- `FRAME.NONE`: no payload; credit and drain. -/
def execFrameNone (size : Size16) (cid : ChanId) (s : State) : Host.Outcome State Fault Refusal :=
  arrive cid ⟨false, false, false⟩ size [] s

/-- `FRAME.HEAD`: payload; ack, then callback. -/
def execFrameHead (size : Size16) (cid : ChanId) (body : Bytes) (s : State) : Host.Outcome State Fault Refusal :=
  arrive cid ⟨false, false, true⟩ size body s

/-- `FRAME.BODY`: payload; ack, then callback. -/
def execFrameBody (size : Size16) (cid : ChanId) (body : Bytes) (s : State) : Host.Outcome State Fault Refusal :=
  arrive cid ⟨false, true, false⟩ size body s

/-- `FRAME.HEADBODY`: payload; ack, then callback. -/
def execFrameHeadBody (size : Size16) (cid : ChanId) (body : Bytes) (s : State) : Host.Outcome State Fault Refusal :=
  arrive cid ⟨false, true, true⟩ size body s

/-- `FRAME.ACK`: no payload; credit and drain. -/
def execFrameAck (size : Size16) (cid : ChanId) (s : State) : Host.Outcome State Fault Refusal :=
  arrive cid ⟨true, false, false⟩ size [] s

/-- `FRAME.FLOWHEAD`: no payload; credit and drain. -/
def execFrameFlowHead (size : Size16) (cid : ChanId) (s : State) : Host.Outcome State Fault Refusal :=
  arrive cid ⟨true, false, true⟩ size [] s

/-- `FRAME.FINAL`: no payload; credit and drain, no ack, no callback. -/
def execFrameFinal (size : Size16) (cid : ChanId) (s : State) : Host.Outcome State Fault Refusal :=
  arrive cid ⟨true, true, false⟩ size [] s

/-- `FRAME.FINALHEAD`: as `FRAME.FINAL`. -/
def execFrameFinalHead (size : Size16) (cid : ChanId) (s : State) : Host.Outcome State Fault Refusal :=
  arrive cid ⟨true, true, true⟩ size [] s

/-- `ROUTE.CONTROL` (R238, R239, R90): a frame whose ID is the control ID, whatever its flags. -/
def execRouteControl (flags : Flags) (size : Size16) (body : Bytes) (s : State) :
    Host.Outcome State Fault Refusal :=
  arrive (BitVec.ofNat 13 controlId) flags size body s

end Sys2Proof.Machine
end

