-- ==== Sys2Proof/Machine/Dispatch.lean ====
section
/-! DEFINITION. The dispatch: one arm per constructor of `Instr`, each one direct call of its meaning. -/

namespace Sys2Proof.Machine

def exec (i : Instr) (s : State) : Host.Outcome State Fault Refusal :=
  match i with
  -- frame kinds and the control route
  | .frameNone size cid => Sys2Proof.Machine.execFrameNone size cid s
  | .frameHead size cid body => Sys2Proof.Machine.execFrameHead size cid body s
  | .frameBody size cid body => Sys2Proof.Machine.execFrameBody size cid body s
  | .frameHeadBody size cid body => Sys2Proof.Machine.execFrameHeadBody size cid body s
  | .frameAck size cid => Sys2Proof.Machine.execFrameAck size cid s
  | .frameFlowHead size cid => Sys2Proof.Machine.execFrameFlowHead size cid s
  | .frameFinal size cid => Sys2Proof.Machine.execFrameFinal size cid s
  | .frameFinalHead size cid => Sys2Proof.Machine.execFrameFinalHead size cid s
  | .routeControl flags size body => Sys2Proof.Machine.execRouteControl flags size body s
  -- codec byte forms
  | .varintCont g rest => Sys2Proof.Machine.execVarintCont g rest s
  | .varintLast g rest => Sys2Proof.Machine.execVarintLast g rest s
  | .lenShort l rest => Sys2Proof.Machine.execLenShort l rest s
  | .lenLong hi lo rest => Sys2Proof.Machine.execLenLong hi lo rest s
  | .textChar1 c rest => Sys2Proof.Machine.execTextChar1 c rest s
  | .textChar1Long c rest => Sys2Proof.Machine.execTextChar1Long c rest s
  -- operations, by OPSEL
  | .encodeHeader cid flags size => Sys2Proof.Machine.execEncodeHeader cid flags size s
  | .decodeHeader str => Sys2Proof.Machine.execDecodeHeader str s
  | .frameTotalLength str => Sys2Proof.Machine.execFrameTotalLength str s
  | .payload frame => Sys2Proof.Machine.execPayload frame s
  | .encodeUint v => Sys2Proof.Machine.execEncodeUint v s
  | .decodeUint str p => Sys2Proof.Machine.execDecodeUint str p s
  | .encodeInt v => Sys2Proof.Machine.execEncodeInt v s
  | .decodeInt str p => Sys2Proof.Machine.execDecodeInt str p s
  | .encodeLength n => Sys2Proof.Machine.execEncodeLength n s
  | .decodeLength str p => Sys2Proof.Machine.execDecodeLength str p s
  | .encodeText str => Sys2Proof.Machine.execEncodeText str s
  | .decodeText str p => Sys2Proof.Machine.execDecodeText str p s
  | .recv inp => Sys2Proof.Machine.execRecv inp s
  | .writeFrame k frame => Sys2Proof.Machine.execWriteFrame k frame s
  | .processFrame k frame => Sys2Proof.Machine.execProcessFrame k frame s
  | .getChannel k => Sys2Proof.Machine.execGetChannel k s
  | .write str => Sys2Proof.Machine.execWrite str s
  | .id k => Sys2Proof.Machine.execId k s
  | .sendWindow k => Sys2Proof.Machine.execSendWindow k s
  | .setCallback k cb => Sys2Proof.Machine.execSetCallback k cb s
  | .init cfg => Sys2Proof.Machine.execInit cfg s
  | .close => Sys2Proof.Machine.execClose s
  | .destroy => Sys2Proof.Machine.execDestroy s
  | .makeFrame cid flags body => Sys2Proof.Machine.execMakeFrame cid flags body s

end Sys2Proof.Machine
end

