-- ==== Sys2Proof/Machine/Step.lean ====
section
/-! DEFINITION. One step: the next command of the embedder is taken from the port, decoded and run (R8, R9). -/

namespace Sys2Proof.Machine

/-- One step. With no command on the port nothing happens: the engine "is idle until the embedder invokes an
operation" (R291, R266). Otherwise the first command is taken, its bytes are decoded, and its operation runs as one
atomic transaction (R8) with that command's inputs. Bytes that encode no instruction are refused. -/
def step (s : State) : Host.Outcome State Fault Refusal :=
  match takeCommand s with
  | none => .next s
  | some (words, s1) =>
    match decode words with
    | .error e => .refused (.undecodable e)
    | .ok i => exec i s1

/-- `s` with the instruction of a table word as the next command on the port. Its inputs list one accepting answer of
the sink, since the answers of the upcalls are inputs that come with the operation (notes/assumptions/3.md). -/
def State.withFetchWord (s : State) (nbits w : Nat) : State :=
  match tableWords nbits w with
  | none => s
  | some words => { s with port := ⟨words, ⟨[.ok], [], []⟩⟩ :: s.port }

end Sys2Proof.Machine
end

