-- ==== Sys2Proof/Safety.lean ====
section
/-! DEFINITION. What counts as a sound state and a safe run, in the terms the statements use. -/

namespace Sys2Proof.Machine

/-- The invariant of one channel slot `i` (R21, R33 (I-a), R53, R201, R211): its ID is its index, its window is not
negative, its queue holds well-formed frames of its own ID and no more than `QUEUE_CAP` of them. -/
def Channel.sound (cap : Option Nat) (i : Nat) (c : Channel) : Bool :=
  decide (c.chanId.toNat = i) && decide (0 ≤ c.window.toInt) &&
    c.queue.all (fun frame => frameWf frame && decide (frameId frame = c.chanId)) &&
    (match cap with
     | none => true
     | some n => decide (c.queue.length ≤ n))

/-- Slots `i, i+1, …` are sound. -/
def channelsSoundFrom (cap : Option Nat) : Nat → List Channel → Bool
  | _, [] => true
  | i, c :: rest => c.sound cap i && channelsSoundFrom cap (i + 1) rest

/-- Every byte of `RBUF[0..n)` has been written (R25). -/
def bufferFilled (m : List Host.Cell) (n : Nat) : Bool := (Memory.readRange m 0 n).isSome

/-- The two phases of the reassembler between operations (R27, R190): header phase `CUR < 4`, or payload phase
`4 <= CUR < T <= 0x10000`. -/
def phaseSound (s : State) : Bool :=
  decide (s.cur < headerLen) ||
    (match Memory.readRange s.rbuf 0 headerLen with
     | none => false
     | some hdr => decide (s.cur < totalLength hdr) && decide (totalLength hdr ≤ maxFrame))

/-- The invariant of the machine between operations: `RBUF` in canonical form and `CUR` within its range (R25, R26);
while a Link exists, legal parameters, `N_CHANNELS` sound slots (R7, R20), `RBUF[0..CUR)` written; and while it is
`Active`, one of the two phases (R27). -/
def State.Inv (s : State) : Prop :=
  Memory.wf s.rbuf = true ∧ s.cur ≤ maxFrame ∧
  (s.linkState ≠ .uninitialized →
    configLegal s.cfg = true ∧ s.chans.length = s.cfg.nChannels ∧ channelsSoundFrom s.cfg.queueCap 0 s.chans = true ∧
    bufferFilled s.rbuf s.cur = true) ∧
  (s.linkState = .active → phaseSound s = true)

/-- `s` after one `SinkWrite` of `str` whose status is passed on (R14, R258): the observation is recorded, and the Link
has failed unless the sink took the bytes. -/
def afterSinkWrite (str : Bytes) (s : State) : State :=
  let (st, s1) := drawSink s
  { emit (.sink str st) s1 with linkState := if st = .ok then s.linkState else .failed }

/-- The status that goes with `afterSinkWrite`. -/
def statusOfSinkWrite (s : State) : Status := if (drawSink s).1 = .ok then .ok else .outputBufferTooSmall

/-- `s` after the bytes `str` were stored from address `CUR` on (R182, R184). -/
def stored (str : Bytes) (s : State) : State := str.foldl (fun t b => storeByte b t) s

/-- `str` is arriving and not complete: `RBUF[0..CUR)` holds its first bytes, which came in earlier calls (R27). At a
frame boundary none of it has come. -/
def arrivedFront (str : Bytes) (s : State) : Prop :=
  s.cur < str.length ∧ Memory.readRange s.rbuf 0 s.cur = some (str.take s.cur)

/-- How many of the frames are not final (R33 (I-c)). -/
def nonFinalCount (frames : List Bytes) : Nat := frames.countP (fun frame => !isFinal (frameFlags frame))

/-- The number that 7-bit groups denote, least significant group first (R91). -/
def groupsValue : Bytes → Nat
  | [] => 0
  | b :: rest => b.toNat % 128 + 128 * groupsValue rest

/-- The pure codec operations and the codec byte forms: they need no Link (R34, R232). -/
def isCodec : Instr → Bool
  | .frameNone _ _ | .frameHead _ _ _ | .frameBody _ _ _ | .frameHeadBody _ _ _ | .frameAck _ _
  | .frameFlowHead _ _ | .frameFinal _ _ | .frameFinalHead _ _ | .routeControl _ _ _ => false
  | .varintCont _ _ | .varintLast _ _ | .lenShort _ _ | .lenLong _ _ _ | .textChar1 _ _ | .textChar1Long _ _ => true
  | .encodeHeader _ _ _ | .decodeHeader _ | .frameTotalLength _ | .payload _ | .encodeUint _ | .decodeUint _ _
  | .encodeInt _ | .decodeInt _ _ | .encodeLength _ | .decodeLength _ _ | .encodeText _ | .decodeText _ _
  | .makeFrame _ _ _ => true
  | .recv _ | .writeFrame _ _ | .processFrame _ _ | .getChannel _ | .write _ | .id _ | .sendWindow _
  | .setCallback _ _ | .init _ | .close | .destroy => false

/-- The operations that can fail a Link (R262): what arrives on the stream, and what hands bytes to the sink. -/
def mayFail : Instr → Bool
  | .frameNone _ _ | .frameHead _ _ _ | .frameBody _ _ _ | .frameHeadBody _ _ _ | .frameAck _ _
  | .frameFlowHead _ _ | .frameFinal _ _ | .frameFinalHead _ _ | .routeControl _ _ _ => true
  | .recv _ | .writeFrame _ _ | .processFrame _ _ | .write _ => true
  | .varintCont _ _ | .varintLast _ _ | .lenShort _ _ | .lenLong _ _ _ | .textChar1 _ _ | .textChar1Long _ _
  | .encodeHeader _ _ _ | .decodeHeader _ | .frameTotalLength _ | .payload _ | .encodeUint _ | .decodeUint _ _
  | .encodeInt _ | .decodeInt _ _ | .encodeLength _ | .decodeLength _ _ | .encodeText _ | .decodeText _ _
  | .makeFrame _ _ _ | .getChannel _ | .id _ | .sendWindow _ | .setCallback _ _ | .init _ | .close
  | .destroy => false

/-- What a `frame_callback` may invoke on its Link (R66 (a)); the codec byte forms are codec operations. -/
def callbackMayInvoke : Instr → Bool
  | .writeFrame _ _ | .write _ | .getChannel _ | .id _ | .sendWindow _ | .setCallback _ _ => true
  | .varintCont _ _ | .varintLast _ _ | .lenShort _ _ | .lenLong _ _ _ | .textChar1 _ _ | .textChar1Long _ _
  | .encodeHeader _ _ _ | .decodeHeader _ | .frameTotalLength _ | .payload _ | .encodeUint _ | .decodeUint _ _
  | .encodeInt _ | .decodeInt _ _ | .encodeLength _ | .decodeLength _ _ | .encodeText _ | .decodeText _ _
  | .makeFrame _ _ _ => true
  | .frameNone _ _ | .frameHead _ _ _ | .frameBody _ _ _ | .frameHeadBody _ _ _ | .frameAck _ _
  | .frameFlowHead _ _ | .frameFinal _ _ | .frameFinalHead _ _ | .routeControl _ _ _
  | .recv _ | .processFrame _ _ | .init _ | .close | .destroy => false

/-- What the `CHANNEL_INIT` of slot `slot` may invoke (R231): registration and the accessors, on that slot. -/
def channelInitMayInvoke (slot : Nat) : Instr → Bool
  | .setCallback j _ => decide (j = slot)
  | .id j => decide (j = slot)
  | .sendWindow j => decide (j = slot)
  | .frameNone _ _ | .frameHead _ _ _ | .frameBody _ _ _ | .frameHeadBody _ _ _ | .frameAck _ _
  | .frameFlowHead _ _ | .frameFinal _ _ | .frameFinalHead _ _ | .routeControl _ _ _
  | .varintCont _ _ | .varintLast _ _ | .lenShort _ _ | .lenLong _ _ _ | .textChar1 _ _ | .textChar1Long _ _
  | .encodeHeader _ _ _ | .decodeHeader _ | .frameTotalLength _ | .payload _ | .encodeUint _ | .decodeUint _ _
  | .encodeInt _ | .decodeInt _ _ | .encodeLength _ | .decodeLength _ _ | .encodeText _ | .decodeText _ _
  | .makeFrame _ _ _ | .recv _ | .writeFrame _ _ | .processFrame _ _ | .getChannel _ | .write _ | .init _ | .close
  | .destroy => false

/-- The no-payload frame kinds (R86), each with its flags and its header. -/
def noPayloadKind : Instr → Option (Flags × Size16 × ChanId)
  | .frameNone size cid => some (⟨false, false, false⟩, size, cid)
  | .frameAck size cid => some (⟨true, false, false⟩, size, cid)
  | .frameFlowHead size cid => some (⟨true, false, true⟩, size, cid)
  | .frameFinal size cid => some (⟨true, true, false⟩, size, cid)
  | .frameFinalHead size cid => some (⟨true, true, true⟩, size, cid)
  | .frameHead _ _ _ | .frameBody _ _ _ | .frameHeadBody _ _ _ | .routeControl _ _ _
  | .varintCont _ _ | .varintLast _ _ | .lenShort _ _ | .lenLong _ _ _ | .textChar1 _ _ | .textChar1Long _ _
  | .encodeHeader _ _ _ | .decodeHeader _ | .frameTotalLength _ | .payload _ | .encodeUint _ | .decodeUint _ _
  | .encodeInt _ | .decodeInt _ _ | .encodeLength _ | .decodeLength _ _ | .encodeText _ | .decodeText _ _
  | .makeFrame _ _ _ | .recv _ | .writeFrame _ _ | .processFrame _ _ | .getChannel _ | .write _ | .id _
  | .sendWindow _ | .setCallback _ _ | .init _ | .close | .destroy => none

/-- The payload frame kinds (R86), each with its flags, its header and its payload. -/
def payloadKind : Instr → Option (Flags × Size16 × ChanId × Bytes)
  | .frameHead size cid body => some (⟨false, false, true⟩, size, cid, body)
  | .frameBody size cid body => some (⟨false, true, false⟩, size, cid, body)
  | .frameHeadBody size cid body => some (⟨false, true, true⟩, size, cid, body)
  | .frameNone _ _ | .frameAck _ _ | .frameFlowHead _ _ | .frameFinal _ _ | .frameFinalHead _ _
  | .routeControl _ _ _
  | .varintCont _ _ | .varintLast _ _ | .lenShort _ _ | .lenLong _ _ _ | .textChar1 _ _ | .textChar1Long _ _
  | .encodeHeader _ _ _ | .decodeHeader _ | .frameTotalLength _ | .payload _ | .encodeUint _ | .decodeUint _ _
  | .encodeInt _ | .decodeInt _ _ | .encodeLength _ | .decodeLength _ _ | .encodeText _ | .decodeText _ _
  | .makeFrame _ _ _ | .recv _ | .writeFrame _ _ | .processFrame _ _ | .getChannel _ | .write _ | .id _
  | .sendWindow _ | .setCallback _ _ | .init _ | .close | .destroy => none

/-- The bytes of a frame instruction on the stream: header, then payload (R80). -/
def streamBytes (f : Flags) (size : Size16) (cid : ChanId) (body : Bytes) : Bytes := headerBytes cid f size ++ body

/-- What an operation on channel `i` leaves unchanged: `RBUF` (every byte), `CUR`, the configuration, the port, every
other slot, and of slot `i` its ID and its callback (R20's "written by" column). -/
def keepsAllBut (i : Nat) (s t : State) : Prop :=
  (∀ a, Memory.read t.rbuf a = Memory.read s.rbuf a) ∧ t.cur = s.cur ∧ t.cfg = s.cfg ∧ t.port = s.port ∧
  (∀ j, j ≠ i → t.chans[j]? = s.chans[j]?) ∧
  (t.chans[i]?.map fun c => (c.chanId, c.callback)) = (s.chans[i]?.map fun c => (c.chanId, c.callback))

/-- The transitions of `LINK_STATE` the spec allows (R232), and staying. -/
def linkTransition : LinkState → LinkState → Bool
  | .uninitialized, .uninitialized => true
  | .uninitialized, .active => true
  | .uninitialized, .closed => false
  | .uninitialized, .failed => false
  | .active, _ => true
  | .closed, .uninitialized => true
  | .closed, .active => false
  | .closed, .closed => true
  | .closed, .failed => false
  | .failed, .uninitialized => true
  | .failed, .active => false
  | .failed, .closed => true
  | .failed, .failed => true

end Sys2Proof.Machine
end

