-- ==== Sys2Proof/Certificates/Slice0/Obligations.lean ====
section
/-! DEFINITION. The statements for the provers. Each docstring names the rules of `spec/` it formalises, and the log
entry (`notes/assumptions/<n>.md`) or the spec's decision (D<n> of `92_eei_decisions.md`) where a clause is a choice
and not the source's own rule. -/

open Sys2Proof Sys2Proof.Machine

/-! ### The header and frame codec (`40_header_codec.md`) -/

/-- `encode_header` and `decode_header` complete in every state and change nothing else. `encode_header` returns the four
bytes R120 names, with `size` as given whatever the flags (R84); `decode_header` the fields of the first four bytes
(R83, R121), or `InvalidParameter` when there are fewer (decision D19). -/
def Obligations.HeaderOperationsResult : Prop :=
  (∀ (cid : ChanId) (f : Flags) (size : Size16) (s : State),
    exec (.encodeHeader cid f size) s = .next (emit (.ret (.bytes
      [BitVec.ofNat 8 (size.toNat / 256), BitVec.ofNat 8 size.toNat,
       BitVec.ofNat 8 ((if f.flow then 128 else 0) + (if f.body then 64 else 0) + (if f.head then 32 else 0) +
         cid.toNat / 256),
       BitVec.ofNat 8 cid.toNat])) s)) ∧
  (∀ (str : Bytes) (s : State), str.length < 4 →
    exec (.decodeHeader str) s = .next (emit (.ret (.err .invalidParameter)) s)) ∧
  (∀ (b0 b1 b2 b3 : Byte) (rest : Bytes) (s : State),
    exec (.decodeHeader (b0 :: b1 :: b2 :: b3 :: rest)) s = .next (emit (.ret (.header
      ⟨BitVec.ofNat 13 (b2.toNat % 32 * 256 + b3.toNat), ⟨b2.getLsbD 7, b2.getLsbD 6, b2.getLsbD 5⟩,
       BitVec.ofNat 16 (b0.toNat * 256 + b1.toNat)⟩)) s))

/-- The header round trip (R132), for every ID (0x1FFF too), every flags and every size, and its converse for every
four bytes: all 32 bits are assigned. -/
def Obligations.HeaderRoundTrip : Prop :=
  (∀ (cid : ChanId) (f : Flags) (size : Size16) (rest : Bytes) (s : State),
    exec (.decodeHeader (headerBytes cid f size ++ rest)) s = .next (emit (.ret (.header ⟨cid, f, size⟩)) s)) ∧
  (∀ (b0 b1 b2 b3 : Byte) (rest : Bytes) (s : State), ∃ h : Header,
    exec (.decodeHeader (b0 :: b1 :: b2 :: b3 :: rest)) s = .next (emit (.ret (.header h)) s) ∧
    exec (.encodeHeader h.cid h.flags h.size) s = .next (emit (.ret (.bytes [b0, b1, b2, b3])) s))

/-- The flag predicates (R122, R124, R125, R126), in terms of the bits `FLOW`, `BODY`, `HEAD`. -/
def Obligations.FlagPredicates : Prop :=
  ∀ f : Flags,
    hasFlow f = f.flow ∧ hasBodyOrHead f = (f.head || f.body) ∧
    isAck f = (f.flow && !f.head && !f.body) ∧ isFinal f = (f.flow && f.body) ∧ hasHead f = f.head

/-- "Payload present" is `!has_flow && has_body_or_head` (R123, decision D18), true exactly for the flags 0x20, 0x40,
0x60, and no frame has a payload and is final (R86 (a)). -/
def Obligations.PayloadNeverFinal : Prop :=
  ∀ f : Flags,
    (hasPayload f = true ↔ f.toByte = 0x20#8 ∨ f.toByte = 0x40#8 ∨ f.toByte = 0x60#8) ∧
    (isFinal f = true ↔ f.toByte = 0xC0#8 ∨ f.toByte = 0xE0#8) ∧
    ¬ (hasPayload f = true ∧ isFinal f = true)

/-- `frame_total_length` completes in every state: 4 + `size_value` iff the frame has a payload, else 4, not capped
(R127); `InvalidParameter` under four bytes (decision D19). -/
def Obligations.FrameTotalLengthResult : Prop :=
  (∀ (str : Bytes) (s : State), str.length < 4 →
    exec (.frameTotalLength str) s = .next (emit (.ret (.err .invalidParameter)) s)) ∧
  (∀ (cid : ChanId) (f : Flags) (size : Size16) (rest : Bytes) (s : State),
    exec (.frameTotalLength (headerBytes cid f size ++ rest)) s = .next (emit (.ret (.nat
      (if !f.flow && (f.head || f.body) then 4 + size.toNat else 4))) s))

/-- `payload` of a well-formed frame is what follows its header (R128, R129); on an ill-formed frame it completes with
an output nothing is said of (R128: no meaning; notes/assumptions/14.md). -/
def Obligations.PayloadResult : Prop :=
  (∀ (cid : ChanId) (f : Flags) (size : Size16) (body : Bytes) (s : State),
    frameWf (headerBytes cid f size ++ body) = true →
    exec (.payload (headerBytes cid f size ++ body)) s = .next (emit (.ret (.bytes body)) s)) ∧
  (∀ (frame : Bytes) (s : State), ∃ r, exec (.payload frame) s = .next (emit (.ret r) s))

/-- `make_frame` (R133, decision D26) completes in every state: `PayloadTooBig` above 0xFFFC bytes, `InvalidParameter`
for bytes under no-payload flags, else a well-formed frame with the given ID, flags, size and payload. -/
def Obligations.MakeFrameResult : Prop :=
  ∀ (cid : ChanId) (f : Flags) (body : Bytes) (s : State),
    (0xFFFC < body.length →
      exec (.makeFrame cid f body) s = .next (emit (.ret (.err .payloadTooBig)) s)) ∧
    (body.length ≤ 0xFFFC → hasPayload f = false → body ≠ [] →
      exec (.makeFrame cid f body) s = .next (emit (.ret (.err .invalidParameter)) s)) ∧
    (body.length ≤ 0xFFFC → (hasPayload f = true ∨ body = []) →
      ∃ frame, exec (.makeFrame cid f body) s = .next (emit (.ret (.bytes frame)) s) ∧
        frameWf frame = true ∧ headerOf frame = ⟨cid, f, BitVec.ofNat 16 body.length⟩ ∧ frame.drop 4 = body)

/-! ### The integer codec (`41_varint_codec.md`) -/

/-- `encode_uint` completes in every state with the minimal number of groups, least significant first, the
continuation bit set on all but the last (R140, R91); nothing else changes. -/
def Obligations.EncodeUintMinimalGroups : Prop :=
  ∀ (v : Word64) (s : State), ∃ out : Bytes,
    exec (.encodeUint v) s = .next (emit (.ret (.bytes out)) s) ∧
    1 ≤ out.length ∧ out.length ≤ 10 ∧ v.toNat < 128 ^ out.length ∧
    (1 < out.length → 128 ^ (out.length - 1) ≤ v.toNat) ∧
    groupsValue out = v.toNat ∧
    ∀ k, (hk : k < out.length) → out[k].getLsbD 7 = decide (k + 1 < out.length)

/-- The varint round trips (R145): decoding what the encoder gives, with any bytes behind it, gives the value and the
position behind the encoding, for every `u64` and every `i64`. -/
def Obligations.VarintRoundTrip : Prop :=
  ∀ (v : Word64) (rest : Bytes) (s : State),
    exec (.decodeUint (encodeUint v ++ rest) 0) s = .next (emit (.ret (.uintAt v (encodeUint v).length)) s) ∧
    exec (.decodeInt (encodeInt v ++ rest) 0) s = .next (emit (.ret (.intAt v (encodeInt v).length)) s)

/-- `encode_int` and `decode_int` complete in every state. `encode_int` encodes the zig-zag image, which is `2v` for
`v >= 0` and `-2v - 1` for `v < 0` (R143, R93, R146). Where `decode_uint` gives `u` and a position, `decode_int` gives
the `i64` whose image is `u`, and the same position; else the same error (R144). -/
def Obligations.ZigzagOperationsResult : Prop :=
  (∀ (v : Word64) (s : State), ∃ u : Word64,
    exec (.encodeInt v) s = .next (emit (.ret (.bytes (encodeUint u))) s) ∧
    (0 ≤ v.toInt → (u.toNat : Int) = 2 * v.toInt) ∧ (v.toInt < 0 → (u.toNat : Int) = -2 * v.toInt - 1)) ∧
  (∀ (str : Bytes) (p : Nat) (s : State),
    (∀ e, decodeUint str p = .error e → exec (.decodeInt str p) s = .next (emit (.ret (.err e)) s)) ∧
    (∀ u q, decodeUint str p = .ok (u, q) → ∃ v : Word64,
      exec (.decodeInt str p) s = .next (emit (.ret (.intAt v q)) s) ∧
      (u.toNat % 2 = 0 → (u.toNat : Int) = 2 * v.toInt) ∧ (u.toNat % 2 = 1 → (u.toNat : Int) = -2 * v.toInt - 1)))

/-- `decode_uint` completes in every state (R141): it reads up to the first byte with bit 7 clear and gives the number
the groups denote modulo 2^64 (the reduction is decision D13, U3; R142) and the position behind it; with no such byte,
`IncompleteNumber`. A start position beyond the end is notes/assumptions/15.md. -/
def Obligations.DecodeUintResult : Prop :=
  ∀ (str : Bytes) (p : Nat) (s : State),
    ((∀ b ∈ str.drop p, b.getLsbD 7 = true) →
      exec (.decodeUint str p) s = .next (emit (.ret (.err .incompleteNumber)) s)) ∧
    (∀ conts last rest, str.drop p = conts ++ last :: rest → (∀ b ∈ conts, b.getLsbD 7 = true) →
      last.getLsbD 7 = false →
      exec (.decodeUint str p) s = .next (emit (.ret (.uintAt
        (BitVec.ofNat 64 (groupsValue (conts ++ [last]))) (p + conts.length + 1))) s))

/-- The varint byte forms (R91): `VARINT.LAST` ends the number with its own group; after `VARINT.CONT` the number goes
on with the string behind it, 7 bits further up (modulo 2^64, decision D13), or is incomplete as that string is. -/
def Obligations.VarintByteForms : Prop :=
  ∀ (g : BitVec 7) (rest : Bytes) (s : State),
    exec (.varintLast g rest) s = .next (emit (.ret (.uintAt (g.setWidth 64) 1)) s) ∧
    (∀ e, decodeUint rest 0 = .error e →
      exec (.varintCont g rest) s = .next (emit (.ret (.err .incompleteNumber)) s)) ∧
    (∀ v q, decodeUint rest 0 = .ok (v, q) →
      exec (.varintCont g rest) s = .next (emit (.ret (.uintAt
        (BitVec.ofNat 64 (g.toNat + 128 * v.toNat)) (q + 1))) s))

/-! ### The length prefix and text codec (`42_text_codec.md`) -/

/-- `encode_length` and `decode_length` complete in every state (R160, R161). The encoder: one byte up to 127, two bytes,
high part first with bit 7 set, up to 0x7FFF, else `PayloadTooBig` (decision D15). The decoder: bit 7 of the first byte
tells the form; a prefix cut short is `IncompleteLength`; a non-minimal two-byte form is accepted (decision D15). A
start position beyond the end is notes/assumptions/15.md. -/
def Obligations.LengthOperationsResult : Prop :=
  (∀ (n : Nat) (s : State),
    exec (.encodeLength n) s = .next (emit (.ret
      (if n ≤ 127 then .bytes [BitVec.ofNat 8 n]
       else if n ≤ 0x7FFF then .bytes [BitVec.ofNat 8 (128 + n / 256), BitVec.ofNat 8 (n % 256)]
       else .err .payloadTooBig)) s)) ∧
  (∀ (str : Bytes) (p : Nat) (s : State),
    (str.drop p = [] → exec (.decodeLength str p) s = .next (emit (.ret (.err .incompleteLength)) s)) ∧
    (∀ b0 rest, str.drop p = b0 :: rest → b0.toNat < 128 →
      exec (.decodeLength str p) s = .next (emit (.ret (.lengthAt b0.toNat (p + 1))) s)) ∧
    (∀ b0, str.drop p = [b0] → 128 ≤ b0.toNat →
      exec (.decodeLength str p) s = .next (emit (.ret (.err .incompleteLength)) s)) ∧
    (∀ b0 b1 rest, str.drop p = b0 :: b1 :: rest → 128 ≤ b0.toNat →
      exec (.decodeLength str p) s =
        .next (emit (.ret (.lengthAt ((b0.toNat - 128) * 256 + b1.toNat) (p + 2))) s)))

/-- The round trips of R164, with any bytes behind the encoding: every length 0 to 0x7FFF, and every text of 1 to
0x7FFF bytes. -/
def Obligations.LengthAndTextRoundTrip : Prop :=
  (∀ (n : Nat) (rest : Bytes) (s : State), n ≤ 0x7FFF →
    ∃ pre, exec (.encodeLength n) s = .next (emit (.ret (.bytes pre)) s) ∧
      exec (.decodeLength (pre ++ rest) 0) s = .next (emit (.ret (.lengthAt n pre.length)) s)) ∧
  (∀ (str rest : Bytes) (s : State), str ≠ [] → str.length ≤ 0x7FFF →
    ∃ enc, exec (.encodeText str) s = .next (emit (.ret (.bytes enc)) s) ∧
      exec (.decodeText (enc ++ rest) 0) s = .next (emit (.ret (.textAt str enc.length)) s))

/-- `encode_text` and `decode_text` complete in every state (R162, R163). The encoder: the length prefix and the bytes;
the empty text is `InvalidParameter`, a text above 0x7FFF bytes `PayloadTooBig` (decision D16). The decoder: the prefix's
error; for length 0 one raw byte (provisional, R165); else as many bytes as the length says; `IncompleteString` when
they pass the end (the missing shorthand byte is decision D16). -/
def Obligations.TextOperationsResult : Prop :=
  (∀ (str : Bytes) (s : State),
    (str = [] → exec (.encodeText str) s = .next (emit (.ret (.err .invalidParameter)) s)) ∧
    (0x7FFF < str.length → exec (.encodeText str) s = .next (emit (.ret (.err .payloadTooBig)) s)) ∧
    (str ≠ [] → str.length ≤ 0x7FFF → ∃ pre, encodeLength str.length = .ok pre ∧
      exec (.encodeText str) s = .next (emit (.ret (.bytes (pre ++ str))) s))) ∧
  (∀ (str : Bytes) (p : Nat) (s : State),
    (∀ e, decodeLength str p = .error e → exec (.decodeText str p) s = .next (emit (.ret (.err e)) s)) ∧
    (∀ n q, decodeLength str p = .ok (n, q) →
      (str.length < q + max n 1 → exec (.decodeText str p) s = .next (emit (.ret (.err .incompleteString)) s)) ∧
      (q + max n 1 ≤ str.length →
        exec (.decodeText str p) s = .next (emit (.ret (.textAt ((str.drop q).take (max n 1)) (q + max n 1))) s))))

/-- The length and text byte forms (R94, R96; the long shorthand rests on decision D15, and the shorthand is
provisional, R165). -/
def Obligations.LengthAndTextByteForms : Prop :=
  ∀ (l hi : BitVec 7) (lo c : Byte) (rest : Bytes) (s : State),
    exec (.lenShort l rest) s = .next (emit (.ret (.lengthAt l.toNat 1)) s) ∧
    exec (.lenLong hi lo rest) s = .next (emit (.ret (.lengthAt (hi.toNat * 256 + lo.toNat) 2)) s) ∧
    exec (.textChar1 c rest) s = .next (emit (.ret (.textAt [c] 2)) s) ∧
    exec (.textChar1Long c rest) s = .next (emit (.ret (.textAt [c] 3)) s)

/-- Every codec operation and every codec byte form completes in every state, `Uninitialized` too, and changes nothing:
its output, which is all that is observed, is a function of its operands alone (R34). That
`payload` completes on an ill-formed frame too is notes/assumptions/14.md, the byte forms as instructions are
notes/assumptions/7.md, and a start position beyond the end of the string is notes/assumptions/15.md: these three are
the model's choices. -/
def Obligations.CodecOperationsArePure : Prop :=
  ∀ i : Instr, isCodec i = true → ∃ r, ∀ s : State, exec i s = .next (emit (.ret r) s)

/-! ### The channel, send side (`44_channel.md`) -/

/-- The entry checks of `write_frame` on an `Active` Link, in order, each returning its error with no state change and
no upcall (R201, R263; decisions D4, D17). The last clause, a fault on an index that is no slot, and that
the checks which need no slot come before it, are the model's choice (notes/assumptions/12.md). -/
def Obligations.WriteFrameEntryChecks : Prop :=
  ∀ (i : Nat) (frame : Bytes) (s : State), s.linkState = .active →
    (frame.length < 4 →
      exec (.writeFrame i frame) s = .next (emit (.ret (.status .invalidParameter)) s)) ∧
    (4 ≤ frame.length → (0x10000 < frame.length ∨ 0x10000 < totalLength frame) →
      exec (.writeFrame i frame) s = .next (emit (.ret (.status .payloadTooBig)) s)) ∧
    (4 ≤ frame.length → frame.length ≤ 0x10000 → totalLength frame ≤ 0x10000 → frame.length ≠ totalLength frame →
      exec (.writeFrame i frame) s = .next (emit (.ret (.status .invalidParameter)) s)) ∧
    (∀ c, frameWf frame = true → s.chans[i]? = some c → frameId frame ≠ c.chanId →
      exec (.writeFrame i frame) s = .next (emit (.ret (.status .invalidChannelId)) s)) ∧
    (frameWf frame = true → s.chans[i]? = none → exec (.writeFrame i frame) s = .fault (.noSlot i))

/-- With an empty queue and an open window `write_frame` hands the frame to the sink and decrements the window unless
the frame is final, whatever the sink answers (R201, R200); a sink failure is a fatal `OutputBufferTooSmall`
(decision D8). The whole next state is given, so nothing else changes. -/
def Obligations.WriteFrameSendsWhenWindowOpen : Prop :=
  ∀ (i : Nat) (frame : Bytes) (c : Channel) (s : State),
    s.linkState = .active → s.chans[i]? = some c → frameWf frame = true → frameId frame = c.chanId →
    c.queue = [] → 1 ≤ c.window.toInt →
    exec (.writeFrame i frame) s = .next (emit (.ret (.status (statusOfSinkWrite s)))
      (setChannel i { c with window := if isFinal (frameFlags frame) then c.window else c.window - 1 }
        (afterSinkWrite frame s)))

/-- With a closed window, and a queue that is empty or has a head that is not final, `write_frame` sends nothing and puts
the frame at the back of the queue, a final one too, so submission order is kept (R201 (a) and (c), R203, R60, C5);
a full finite queue has no meaning (R211, decision D9). -/
def Obligations.WriteFrameQueuesWhenWindowClosed : Prop :=
  ∀ (i : Nat) (frame : Bytes) (c : Channel) (s : State),
    s.linkState = .active → s.chans[i]? = some c → frameWf frame = true → frameId frame = c.chanId →
    (∀ head tail, c.queue = head :: tail → isFinal (frameFlags head) = false) → c.window.toInt < 1 →
    ((∃ n, s.cfg.queueCap = some n ∧ n ≤ c.queue.length) →
      exec (.writeFrame i frame) s = .refused (.queueFull i)) ∧
    ((∀ n, s.cfg.queueCap = some n → c.queue.length < n) →
      exec (.writeFrame i frame) s = .next (emit (.ret (.status .ok))
        (setChannel i { c with queue := c.queue ++ [frame] } s)))

/-- `drain` with a sink that takes everything (R203): it sends the longest front of the queue that the window allows,
in order, final frames for nothing and each other frame for one credit, and stops at a blocked head. -/
def Obligations.DrainSendsAllowedFront : Prop :=
  ∀ (i : Nat) (c : Channel) (more : List SinkStatus) (s : State),
    s.chans[i]? = some c → s.env.sink = List.replicate c.queue.length .ok ++ more →
    ∃ (sent kept : List Bytes) (w : Window),
      c.queue = sent ++ kept ∧ w.toInt = c.window.toInt - nonFinalCount sent ∧
      (nonFinalCount sent = 0 ∨ 0 ≤ w.toInt) ∧
      (∀ head tail, kept = head :: tail → isFinal (frameFlags head) = false ∧ w.toInt < 1) ∧
      drain i s = .next (.ok,
        { s with chans := s.chans.set i { c with queue := kept, window := w },
                 env := { s.env with sink := s.env.sink.drop sent.length },
                 trace := s.trace ++ sent.map fun frame => .sink frame .ok })

/-- `drain` stops at the first sink failure (R203, decision D8), be it at the first write, whatever inputs or free value
the answer comes from, or after any number of frames the sink took: the failed frame has been popped and its decrement
made, the frames behind it stay, and the Link has failed. -/
def Obligations.DrainStopsAtSinkFailure : Prop :=
  (∀ (i : Nat) (c : Channel) (head : Bytes) (tail : List Bytes) (e : Int) (s : State),
    s.chans[i]? = some c → c.queue = head :: tail →
    (isFinal (frameFlags head) = true ∨ 1 ≤ c.window.toInt) → (drawSink s).1 = .fail e →
    drain i s = .next (.outputBufferTooSmall,
      setChannel i { c with queue := tail,
                            window := if isFinal (frameFlags head) then c.window else c.window - 1 }
        (afterSinkWrite head s))) ∧
  (∀ (i : Nat) (c : Channel) (sent : List Bytes) (head : Bytes) (tail : List Bytes) (e : Int)
    (more : List SinkStatus) (s : State),
    s.chans[i]? = some c → c.queue = sent ++ head :: tail →
    (nonFinalCount (sent ++ [head]) = 0 ∨ (nonFinalCount (sent ++ [head]) : Int) ≤ c.window.toInt) →
    s.env.sink = List.replicate sent.length .ok ++ .fail e :: more →
    ∃ w : Window, w.toInt = c.window.toInt - nonFinalCount (sent ++ [head]) ∧
      drain i s = .next (.outputBufferTooSmall,
        { s with linkState := .failed,
                 chans := s.chans.set i { c with queue := tail, window := w },
                 env := { s.env with sink := more },
                 trace := s.trace ++ sent.map (fun frame => .sink frame .ok) ++ [.sink head (.fail e)] }))

/-- `drain` of a slot always returns, whatever the sink answers (R203, R65): `OK` with the Link as it was, or
`OutputBufferTooSmall` with the Link failed (decision D8); `RBUF`, `CUR`, the configuration, the other slots and the
slot's ID and callback stay. -/
def Obligations.DrainAlwaysReturns : Prop :=
  ∀ (i : Nat) (c : Channel) (s : State), s.chans[i]? = some c →
    ∃ st t, drain i s = .next (st, t) ∧ keepsAllBut i s t ∧
      ((st = .ok ∧ t.linkState = s.linkState) ∨ (st = .outputBufferTooSmall ∧ t.linkState = .failed))

/-- `write_frame` on any queue, after its drain: with what the drain left of the queue and of the window, the frame goes
behind older frames, or to the sink, or to the queue (R201); a full finite queue has no meaning (R211, decision D9). A
drain failure ends the operation and the frame is dropped (decision D8). -/
def Obligations.WriteFrameAfterDrain : Prop :=
  ∀ (i : Nat) (frame : Bytes) (c : Channel) (s : State),
    s.linkState = .active → s.chans[i]? = some c → frameWf frame = true → frameId frame = c.chanId →
    (∀ st s1, drain i s = .next (st, s1) → st ≠ .ok →
      exec (.writeFrame i frame) s = .next (emit (.ret (.status st)) s1)) ∧
    (∀ s1 d, drain i s = .next (.ok, s1) → s1.chans[i]? = some d →
      (d.queue = [] → 1 ≤ d.window.toInt →
        exec (.writeFrame i frame) s = .next (emit (.ret (.status (statusOfSinkWrite s1)))
          (setChannel i { d with window := if isFinal (frameFlags frame) then d.window else d.window - 1 }
            (afterSinkWrite frame s1)))) ∧
      ((d.queue ≠ [] ∨ d.window.toInt < 1) →
        ((∃ n, s1.cfg.queueCap = some n ∧ n ≤ d.queue.length) →
          exec (.writeFrame i frame) s = .refused (.queueFull i)) ∧
        ((∀ n, s1.cfg.queueCap = some n → d.queue.length < n) →
          exec (.writeFrame i frame) s = .next (emit (.ret (.status .ok))
            (setChannel i { d with queue := d.queue ++ [frame] } s1)))))

/-- The frame of `write_frame`, and of `process_frame` on a no-payload frame or on a channel without a callback: every
byte of `RBUF`, `CUR`, the configuration, every other slot, and the ID and callback of its own slot stay as they were
(R20, R201, R202). Neither stores to `RBUF`. -/
def Obligations.ChannelOperationsLeaveRest : Prop :=
  (∀ (i : Nat) (frame : Bytes) (s t : State), exec (.writeFrame i frame) s = .next t → keepsAllBut i s t) ∧
  (∀ (i : Nat) (frame : Bytes) (c : Channel) (s t : State), s.chans[i]? = some c →
    (hasPayload (frameFlags frame) = false ∨ c.callback = none) →
    exec (.processFrame i frame) s = .next t → keepsAllBut i s t)

/-- Flow-control conservation in one `write_frame` on an unbounded queue with a sink that takes everything (R209):
the frames handed to the sink are a front of the old queue with the new frame behind it, what is left is the queue, and
the window falls by the number of frames sent that are not final. -/
def Obligations.WriteFrameConservation : Prop :=
  ∀ (i : Nat) (frame : Bytes) (c : Channel) (more : List SinkStatus) (s : State),
    s.linkState = .active → s.chans[i]? = some c → frameWf frame = true → frameId frame = c.chanId →
    0 ≤ c.window.toInt → s.cfg.queueCap = none →
    s.env.sink = List.replicate (c.queue.length + 1) .ok ++ more →
    ∃ (sent kept : List Bytes) (w : Window) (t : State),
      c.queue ++ [frame] = sent ++ kept ∧ w.toInt = c.window.toInt - nonFinalCount sent ∧ 0 ≤ w.toInt ∧
      exec (.writeFrame i frame) s = .next t ∧
      t.chans = s.chans.set i { c with queue := kept, window := w } ∧ t.linkState = .active ∧
      t.trace = s.trace ++ sent.map (fun str => .sink str .ok) ++ [.ret (.status .ok)]

/-- In every state but `Uninitialized`, `id(i)` and `send_window(i)` read slot `i` and change nothing (R207),
`set_callback(i, cb)` writes `CH[i].CB` and nothing else (R208), and `get_channel(id)` gives the slot when
`id < N_CHANNELS`, else null, 0x1FFF and wider values included, and changes nothing (R234). -/
def Obligations.SlotOperationsResult : Prop :=
  (∀ (i : Nat) (cb : Option Word64) (c : Channel) (s : State), s.linkState ≠ .uninitialized →
    s.chans[i]? = some c →
    exec (.id i) s = .next (emit (.ret (.chanId c.chanId)) s) ∧
    exec (.sendWindow i) s = .next (emit (.ret (.window c.window)) s) ∧
    exec (.setCallback i cb) s = .next (emit (.ret .unit) (setChannel i { c with callback := cb } s))) ∧
  (∀ (k : Nat) (s : State), s.linkState ≠ .uninitialized →
    (k < s.cfg.nChannels → exec (.getChannel k) s = .next (emit (.ret (.slot (some k))) s)) ∧
    (s.cfg.nChannels ≤ k → exec (.getChannel k) s = .next (emit (.ret (.slot none)) s)))

/-- An operation on an index that is no slot faults (R50: slots are `0 .. N_CHANNELS - 1`; notes/assumptions/12.md). -/
def Obligations.NoSlotFaults : Prop :=
  ∀ (i : Nat) (cb : Option Word64) (frame : Bytes) (s : State), s.chans[i]? = none →
    (s.linkState ≠ .uninitialized →
      exec (.id i) s = .fault (.noSlot i) ∧ exec (.sendWindow i) s = .fault (.noSlot i) ∧
      exec (.setCallback i cb) s = .fault (.noSlot i)) ∧
    (s.linkState = .active → exec (.processFrame i frame) s = .fault (.noSlot i))

/-- Raw `write` on an `Active` Link hands its bytes to the sink unchanged and unchecked, and touches no channel
(R235); a sink failure is fatal (decision D8). -/
def Obligations.WriteGoesToSink : Prop :=
  ∀ (str : Bytes) (s : State), s.linkState = .active →
    exec (.write str) s = .next (emit (.ret (.status (statusOfSinkWrite s))) (afterSinkWrite str s))

/-! ### The channel, receive side (`44_channel.md`) -/

/-- A no-payload frame processed on a channel is one credit and then a drain, and nothing else, whatever its flags and
its `size_value` (R202, R204); the window is not limited to `W_MAX` (C3) and stays at 0x7FFF (decision D11). With an
empty queue the drain does nothing. A direct call is decision D25. -/
def Obligations.NoPayloadFrameIsCredit : Prop :=
  ∀ (i : Nat) (frame : Bytes) (c : Channel) (s : State),
    s.linkState = .active → s.chans[i]? = some c → frameWf frame = true → frameId frame = c.chanId →
    hasPayload (frameFlags frame) = false →
    let credited := setChannel i { c with window := if c.window = 0x7FFF#16 then c.window else c.window + 1 } s
    (∀ st t, drain i credited = .next (st, t) →
      exec (.processFrame i frame) s = .next (emit (.ret (.headStatus false st)) t)) ∧
    (c.queue = [] → exec (.processFrame i frame) s = .next (emit (.ret (.headStatus false .ok)) credited))

/-- A credit at window 0 releases exactly the oldest queued frame when it and the frame behind it are not final: the
window goes 0 to 1 to 0 (R209, S5, C10). -/
def Obligations.CreditReleasesOldestFrame : Prop :=
  ∀ (i : Nat) (frame head : Bytes) (tail : List Bytes) (c : Channel) (rest : List SinkStatus) (s : State),
    s.linkState = .active → s.chans[i]? = some c → frameWf frame = true → frameId frame = c.chanId →
    hasPayload (frameFlags frame) = false → c.queue = head :: tail → c.window = 0#16 →
    isFinal (frameFlags head) = false → (∀ next more, tail = next :: more → isFinal (frameFlags next) = false) →
    s.env.sink = .ok :: rest →
    exec (.processFrame i frame) s = .next (emit (.ret (.headStatus false .ok)) (emit (.sink head .ok)
      (setChannel i { c with queue := tail } { s with env := { s.env with sink := rest } })))

/-- A payload frame on a channel without a callback is acked, with the channel's own ID, and dropped; no window and no
queue changes (R202, R205, R206, C7, C9). A failed ack is fatal and gives `(false, OutputBufferTooSmall)`
(decision D8). -/
def Obligations.PayloadFrameAckedWithoutCallback : Prop :=
  ∀ (i : Nat) (frame : Bytes) (c : Channel) (s : State),
    s.linkState = .active → s.chans[i]? = some c → frameWf frame = true → frameId frame = c.chanId →
    hasPayload (frameFlags frame) = true → c.callback = none →
    exec (.processFrame i frame) s = .next (emit
      (.ret (.headStatus (hasHead (frameFlags frame) && decide ((drawSink s).1 = .ok)) (statusOfSinkWrite s)))
      (afterSinkWrite (headerBytes c.chanId ⟨true, false, false⟩ 0) s))

/-- A payload frame on a channel with a callback: exactly one ack goes to the sink before the callback fires, the
callback gets the whole frame and its length, what it invokes runs next, its answer is the status (wrapped as
`CallbackError(c)`), and the head flag is the frame's (R202, R205, R206, R66; decisions D7, D12, D18). The second part
spells out the whole next state for a callback that invokes nothing. -/
def Obligations.AckPrecedesCallback : Prop :=
  (∀ (i : Nat) (frame : Bytes) (c : Channel) (handle : Word64) (reply : CallbackReply) (s s1 u : State),
    s.linkState = .active → s.chans[i]? = some c → frameWf frame = true → frameId frame = c.chanId →
    hasPayload (frameFlags frame) = true → c.callback = some handle → (drawSink s).1 = .ok →
    drawCallback (afterSinkWrite (headerBytes c.chanId ⟨true, false, false⟩ 0) s) = (reply, s1) →
    runInCallback reply.calls (emit (.callback i handle frame frame.length reply.answer) s1) = .next ((), u) →
    exec (.processFrame i frame) s = .next (emit (.ret (.headStatus (hasHead (frameFlags frame))
      (match reply.answer with | .ok => .ok | .fail e => .callbackError e))) u)) ∧
  (∀ (i : Nat) (frame : Bytes) (c : Channel) (handle : Word64) (answer : CallbackStatus) (rest : List SinkStatus)
    (more : List CallbackReply) (s : State),
    s.linkState = .active → s.chans[i]? = some c → frameWf frame = true → frameId frame = c.chanId →
    hasPayload (frameFlags frame) = true → c.callback = some handle →
    s.env.sink = .ok :: rest → s.env.callback = ⟨[], answer⟩ :: more →
    exec (.processFrame i frame) s = .next
      { s with env := { s.env with sink := rest, callback := more },
               trace := s.trace ++
                 [.sink (headerBytes c.chanId ⟨true, false, false⟩ 0) .ok,
                  .callback i handle frame frame.length answer,
                  .ret (.headStatus (hasHead (frameFlags frame))
                    (match answer with | .ok => .ok | .fail e => .callbackError e))] })

/-- A failed ack suppresses the callback and fails the Link (R205, decision D8), registered callback or not. -/
def Obligations.FailedAckSuppressesCallback : Prop :=
  ∀ (i : Nat) (frame : Bytes) (c : Channel) (e : Int) (s : State),
    s.linkState = .active → s.chans[i]? = some c → frameWf frame = true → frameId frame = c.chanId →
    hasPayload (frameFlags frame) = true → (drawSink s).1 = .fail e →
    exec (.processFrame i frame) s = .next (emit (.ret (.headStatus false .outputBufferTooSmall))
      (afterSinkWrite (headerBytes c.chanId ⟨true, false, false⟩ 0) s))

/-- What a `frame_callback` may invoke (R66 (a) and (b), decision D12). A `write_frame` made from inside it sees the Link
after the ack and is kept: the callback of channel `i` that submits one well-formed frame on a channel `j` with an empty
queue and an open window sends it between the callback's event and the outer return; if that send fails, the Link has
failed. Every operation R66 (a) lists does inside the callback what it does outside. Anything else, after whatever the
callback invoked before it, is refused, and the outer operation with it: `recv`, `close`, `destroy` and `init` by
R66 (b); that a direct `process_frame` and arriving frames are refused too is the model's reading
(notes/assumptions/10.md). -/
def Obligations.CallbackMaySubmit : Prop :=
  (∀ (i j : Nat) (frame reply : Bytes) (c d : Channel) (handle : Word64) (st : SinkStatus) (rest : List SinkStatus)
     (more : List CallbackReply) (s : State),
     s.linkState = .active → s.chans[i]? = some c → frameWf frame = true → frameId frame = c.chanId →
     hasPayload (frameFlags frame) = true → c.callback = some handle →
     s.chans[j]? = some d → frameWf reply = true → frameId reply = d.chanId → d.queue = [] → 1 ≤ d.window.toInt →
     s.env.sink = .ok :: st :: rest → s.env.callback = ⟨[.writeFrame j reply], .ok⟩ :: more →
     exec (.processFrame i frame) s = .next
       { s with linkState := if st = .ok then .active else .failed,
                chans := s.chans.set j
                  { d with window := if isFinal (frameFlags reply) then d.window else d.window - 1 },
                env := { s.env with sink := rest, callback := more },
                trace := s.trace ++
                  [.sink (headerBytes c.chanId ⟨true, false, false⟩ 0) .ok,
                   .callback i handle frame frame.length .ok,
                   .sink reply st,
                   .ret (.status (if st = .ok then .ok else .outputBufferTooSmall)),
                   .ret (.headStatus (hasHead (frameFlags frame)) .ok)] }) ∧
  (∀ (call : Instr) (s : State), callbackMayInvoke call = true → execInCallback call s = exec call s) ∧
  (∀ (i : Nat) (frame : Bytes) (c : Channel) (handle : Word64) (before after : List Instr) (call : Instr)
    (answer : CallbackStatus) (rest : List SinkStatus) (more : List CallbackReply) (s u : State),
    s.linkState = .active → s.chans[i]? = some c → frameWf frame = true → frameId frame = c.chanId →
    hasPayload (frameFlags frame) = true → c.callback = some handle →
    s.env.sink = .ok :: rest → s.env.callback = ⟨before ++ call :: after, answer⟩ :: more →
    runInCallback before
      { s with env := { s.env with sink := rest, callback := more },
               trace := s.trace ++
                 [.sink (headerBytes c.chanId ⟨true, false, false⟩ 0) .ok,
                  .callback i handle frame frame.length answer] } = .next ((), u) →
    callbackMayInvoke call = false →
    exec (.processFrame i frame) s = .refused .notInCallback)

/-- A direct `process_frame` that breaks its preconditions has no meaning (R202, R232, decision D25). -/
def Obligations.ProcessFramePreconditions : Prop :=
  ∀ (i : Nat) (frame : Bytes) (s : State),
    (s.linkState = .uninitialized → exec (.processFrame i frame) s = .refused .uninitialized) ∧
    (s.linkState = .closed ∨ s.linkState = .failed → exec (.processFrame i frame) s = .refused .processNotActive) ∧
    (∀ c, s.linkState = .active → s.chans[i]? = some c → frameWf frame = false →
      exec (.processFrame i frame) s = .refused .processIllFormed) ∧
    (∀ c, s.linkState = .active → s.chans[i]? = some c → frameWf frame = true → frameId frame ≠ c.chanId →
      exec (.processFrame i frame) s = .refused .processWrongChannel)

/-! ### The reassembler and the dispatcher (`43_reassembler.md`, `45_link.md`) -/

/-- `recv` of bytes that complete no header, or a header and not its frame (be the header complete before this call or in
it): they are all taken and stored from `CUR` on, and nothing is dispatched (R182, R184, R188); every other byte of
`RBUF` reads as before. An empty input is `(OK, 0)` with no state change (R181). An absent input is `InvalidParameter`,
nothing consumed, no state change (decision D23). -/
def Obligations.RecvKeepsPartialFrame : Prop :=
  (∀ (inp : Bytes) (s : State), s.linkState = .active →
    (s.cur + inp.length < 4 ∨
      ∃ hdr, 4 ≤ s.cur + inp.length ∧ Memory.readRange (stored inp s).rbuf 0 4 = some hdr ∧
        s.cur + inp.length < totalLength hdr ∧ totalLength hdr ≤ 0x10000) →
    exec (.recv (some inp)) s = .next (emit (.ret (.consumed .ok inp.length)) (stored inp s)) ∧
    (stored inp s).cur = s.cur + inp.length ∧
    (∀ a, a < s.cur ∨ s.cur + inp.length ≤ a → Memory.read (stored inp s).rbuf a = Memory.read s.rbuf a) ∧
    (∀ k, (hk : k < inp.length) → Memory.read (stored inp s).rbuf (s.cur + k) = some inp[k])) ∧
  (∀ s : State, s.linkState = .active →
    exec (.recv (some [])) s = .next (emit (.ret (.consumed .ok 0)) s) ∧
    exec (.recv none) s = .next (emit (.ret (.consumed .invalidParameter 0)) s))

/-- A payload header whose `size_value` is above 0xFFFC is a fatal `PayloadTooBig` when its fourth byte arrives, with
nothing of the frame consumed and no payload byte stored (R183, R187, R188; decisions D3, D6), whether it began in this
call or in an earlier one, and with or without bytes behind it in the same input; the same of the payload frame kinds as
instructions, and of `ROUTE.CONTROL` with such a header, which never completes (R263). -/
def Obligations.OverlongFrameIsFatal : Prop :=
  (∀ (cid : ChanId) (f : Flags) (size : Size16) (rest : Bytes) (s : State),
    s.linkState = .active → arrivedFront (headerBytes cid f size) s → hasPayload f = true → 0xFFFC < size.toNat →
    exec (.recv (some ((headerBytes cid f size).drop s.cur ++ rest))) s =
      .next (emit (.ret (.consumed .payloadTooBig 0))
        { stored ((headerBytes cid f size).drop s.cur) s with linkState := .failed })) ∧
  (∀ (i : Instr) (cid : ChanId) (f : Flags) (size : Size16) (rest : Bytes) (s : State),
    payloadKind i = some (f, size, cid, rest) ∨ (i = .routeControl f size rest ∧ cid = BitVec.ofNat 13 0x1FFF) →
    s.linkState = .active → s.cur = 0 → hasPayload f = true → 0xFFFC < size.toNat →
    exec i s = .next (emit (.ret (.consumed .payloadTooBig 0))
      { stored (headerBytes cid f size) s with linkState := .failed }))

/-- A no-payload frame of any of the five kinds, arriving at a frame boundary for a slot, is one credit and a drain
(R86, R202, R204, R239, R188): its four bytes are consumed, `size_value` is ignored, no ack and no callback; a sink
failure in the drain is fatal with nothing of the frame consumed (decisions D6, D8). With an empty queue nothing is
sent. The saturation at 0x7FFF is decision D11. -/
def Obligations.NoPayloadKindsArrive : Prop :=
  ∀ (i : Instr) (f : Flags) (size : Size16) (cid : ChanId) (c : Channel) (s : State),
    noPayloadKind i = some (f, size, cid) →
    s.linkState = .active → s.cur = 0 → cid.toNat < s.cfg.nChannels → cid.toNat ≠ 0x1FFF →
    s.chans[cid.toNat]? = some c →
    let credited :=
      setChannel cid.toNat { c with window := if c.window = 0x7FFF#16 then c.window else c.window + 1 }
        (stored (headerBytes cid f size) s)
    (∀ t, drain cid.toNat credited = .next (.ok, t) →
      exec i s = .next (emit (.ret (.consumed .ok 4)) (frameBoundary t))) ∧
    (∀ st t, drain cid.toNat credited = .next (st, t) → st ≠ .ok →
      exec i s = .next (emit (.ret (.consumed st 0)) t)) ∧
    (c.queue = [] → exec i s = .next (emit (.ret (.consumed .ok 4)) (frameBoundary credited)))

/-- A payload frame of any of the three kinds, arriving at a frame boundary for a slot (R86, R202, R205, R206, R239,
R188): without a callback it is acked and dropped; with one, the callback runs after the ack, and then its answer and
the Link's state decide (a callback failure consumes the frame, decision D7; a Link that a nested operation failed ends
the call with nothing of the frame consumed, decisions D6, D12). A failed ack is fatal with nothing consumed
(decisions D6, D8). A stop of what the callback invokes stops the whole. -/
def Obligations.PayloadKindsArrive : Prop :=
  ∀ (i : Instr) (f : Flags) (size : Size16) (cid : ChanId) (body : Bytes) (c : Channel) (s : State),
    payloadKind i = some (f, size, cid, body) → body.length = size.toNat → size.toNat ≤ 0xFFFC →
    s.linkState = .active → s.cur = 0 → cid.toNat < s.cfg.nChannels → cid.toNat ≠ 0x1FFF →
    s.chans[cid.toNat]? = some c →
    let acked := afterSinkWrite (headerBytes c.chanId ⟨true, false, false⟩ 0) (stored (streamBytes f size cid body) s)
    ((drawSink s).1 ≠ .ok → exec i s = .next (emit (.ret (.consumed .outputBufferTooSmall 0)) acked)) ∧
    ((drawSink s).1 = .ok → c.callback = none →
      exec i s = .next (emit (.ret (.consumed .ok (4 + size.toNat))) (frameBoundary acked))) ∧
    (∀ handle reply s1 u, (drawSink s).1 = .ok → c.callback = some handle → drawCallback acked = (reply, s1) →
      runInCallback reply.calls (emit (.callback cid.toNat handle (streamBytes f size cid body) (4 + size.toNat)
        reply.answer) s1) = .next ((), u) →
      (u.linkState ≠ .failed → reply.answer = .ok →
        exec i s = .next (emit (.ret (.consumed .ok (4 + size.toNat))) (frameBoundary u))) ∧
      (∀ e, u.linkState ≠ .failed → reply.answer = .fail e →
        exec i s = .next (emit (.ret (.consumed (.callbackError e) (4 + size.toNat))) (frameBoundary u))) ∧
      (u.linkState = .failed → reply.answer = .ok →
        exec i s = .next (emit (.ret (.consumed .linkNotActive 0)) u)) ∧
      (∀ e, u.linkState = .failed → reply.answer = .fail e →
        exec i s = .next (emit (.ret (.consumed (.callbackError e) 0)) u))) ∧
    (∀ handle reply s1, (drawSink s).1 = .ok → c.callback = some handle → drawCallback acked = (reply, s1) →
      let notified := emit (.callback cid.toNat handle (streamBytes f size cid body) (4 + size.toNat) reply.answer) s1
      (∀ e, runInCallback reply.calls notified = .fault e → exec i s = .fault e) ∧
      (∀ e, runInCallback reply.calls notified = .refused e → exec i s = .refused e))

/-- A frame for the control ID, whatever its flags, is a fatal `InvalidChannelId` when it is complete (R238, R239,
decision D5): no channel changes, no ack, no callback, nothing of it consumed (decision D6). First as the instruction,
the whole frame arriving at a frame boundary; then as the bytes that complete it, whether it began in this call or in an
earlier one, with what follows in the input never looked at. -/
def Obligations.ControlFrameIsFatal : Prop :=
  (∀ (f : Flags) (size : Size16) (body : Bytes) (s : State),
    s.linkState = .active → s.cur = 0 → body.length = (if hasPayload f then size.toNat else 0) →
    (hasPayload f = true → size.toNat ≤ 0xFFFC) →
    exec (.routeControl f size body) s = .next (emit (.ret (.consumed .invalidChannelId 0))
      { stored (streamBytes f size (BitVec.ofNat 13 0x1FFF) body) s with linkState := .failed })) ∧
  (∀ (frame rest : Bytes) (s : State),
    s.linkState = .active → arrivedFront frame s → frameWf frame = true → (frameId frame).toNat = 0x1FFF →
    exec (.recv (some (frame.drop s.cur ++ rest))) s = .next (emit (.ret (.consumed .invalidChannelId 0))
      { stored (frame.drop s.cur) s with linkState := .failed }))

/-- A well-formed frame whose ID is at or above `N_CHANNELS` is a fatal `InvalidChannelId` when it is complete, whether it
began in this call or in an earlier one; no byte from that frame on is consumed, and what follows it in the input is
never looked at (R239, R185, R187, C6, S7; decision D6). -/
def Obligations.OutOfRangeIdIsFatal : Prop :=
  ∀ (frame rest : Bytes) (s : State),
    s.linkState = .active → arrivedFront frame s → frameWf frame = true → s.cfg.nChannels ≤ (frameId frame).toNat →
    exec (.recv (some (frame.drop s.cur ++ rest))) s = .next (emit (.ret (.consumed .invalidChannelId 0))
      { stored (frame.drop s.cur) s with linkState := .failed })

/-- A complete frame, whether it began in this call or in an earlier one, is dispatched in the call that supplies its
last byte, as `route` of exactly its bytes, with `CUR` its total length (R185, R186, R188); what `route` answers
decides: a failed Link ends the call with nothing of the frame consumed, a callback failure ends it with the frame
consumed and the Link `Active` (decisions D6, D7), and otherwise the rest of the input is fed at the next boundary, its
count on top of the bytes the frame took (R187). A stop of `route` or of what follows stops the whole. -/
def Obligations.CompleteFrameIsRouted : Prop :=
  ∀ (frame rest : Bytes) (s : State),
    s.linkState = .active → arrivedFront frame s → frameWf frame = true →
    let full := stored (frame.drop s.cur) s
    let inp := frame.drop s.cur ++ rest
    let taken := frame.length - s.cur
    full.cur = totalLength frame ∧ Memory.readRange full.rbuf 0 frame.length = some frame ∧
    (∀ st t, route frame full = .next (st, t) →
      (t.linkState = .failed → feed inp s = .next ((if st = .ok then .linkNotActive else st, 0), t)) ∧
      (t.linkState ≠ .failed → st ≠ .ok → feed inp s = .next ((st, taken), frameBoundary t)) ∧
      (t.linkState ≠ .failed → st = .ok →
        (∀ st' m u, feed rest (frameBoundary t) = .next ((st', m), u) →
          feed inp s = .next ((st', taken + m), u)) ∧
        (∀ e, feed rest (frameBoundary t) = .fault e → feed inp s = .fault e) ∧
        (∀ e, feed rest (frameBoundary t) = .refused e → feed inp s = .refused e))) ∧
    (∀ e, route frame full = .fault e → feed inp s = .fault e) ∧
    (∀ e, route frame full = .refused e → feed inp s = .refused e)

/-- A failing callback does not fail the Link (R259, R206, R187; decision D7), whether its frame began in this call or in
an earlier one: the frame is consumed, its ack is out, `CUR` is 0, the status carries the callback's own value, and the
input behind the frame is left to the next `recv`. -/
def Obligations.CallbackFailureIsNotFatal : Prop :=
  ∀ (frame rest : Bytes) (c : Channel) (handle : Word64) (e : Int) (answers : List SinkStatus)
    (more : List CallbackReply) (s : State),
    s.linkState = .active → arrivedFront frame s → frameWf frame = true → hasPayload (frameFlags frame) = true →
    (frameId frame).toNat < s.cfg.nChannels → (frameId frame).toNat ≠ 0x1FFF →
    s.chans[(frameId frame).toNat]? = some c → c.callback = some handle →
    s.env.sink = .ok :: answers → s.env.callback = ⟨[], .fail e⟩ :: more →
    exec (.recv (some (frame.drop s.cur ++ rest))) s = .next
      { s with rbuf := (stored (frame.drop s.cur) s).rbuf,
               cur := 0,
               env := { s.env with sink := answers, callback := more },
               trace := s.trace ++
                 [.sink (headerBytes c.chanId ⟨true, false, false⟩ 0) .ok,
                  .callback (frameId frame).toNat handle frame frame.length (.fail e),
                  .ret (.consumed (.callbackError e) (frame.length - s.cur))] }

/-- Fragmentation invariance (R189): where feeding `x` and then `y` both return `OK`, feeding `x ++ y` in one call
makes the same upcalls, in the same order, and ends in the same state; so what is dispatched depends on the
concatenation alone. From any state that meets the machine's invariant. -/
def Obligations.FragmentationInvariance : Prop :=
  ∀ (x y : Bytes) (s t u : State), s.Inv → s.linkState = .active →
    feed x s = .next ((.ok, x.length), t) → feed y t = .next ((.ok, y.length), u) →
    feed (x ++ y) s = .next ((.ok, (x ++ y).length), u)

/-- `recv` of a present input on an `Active` Link is `feed` with nothing added (R233). When it returns `OK` it has consumed
its whole input and left the Link `Active`; when it returns an error it has consumed no more than its input (R180, R187,
R188). -/
def Obligations.RecvConsumedCount : Prop :=
  ∀ (inp : Bytes) (s : State), s.linkState = .active →
    (∀ st n t, feed inp s = .next ((st, n), t) →
      exec (.recv (some inp)) s = .next (emit (.ret (.consumed st n)) t) ∧
      n ≤ inp.length ∧ (st = .ok → n = inp.length ∧ t.linkState = .active)) ∧
    (∀ e, feed inp s = .fault e → exec (.recv (some inp)) s = .fault e) ∧
    (∀ e, feed inp s = .refused e → exec (.recv (some inp)) s = .refused e)

/-! ### The lifecycle (`45_link.md`) -/

/-- `init` of a Link with no `CHANNEL_INIT` completes from every `Uninitialized` state: `Active`, `CUR` 0, `RBUF`
without content, slots `0 .. N_CHANNELS - 1` with their index as ID, the window `W_MAX`, an empty queue and no callback
(R230, R35); nothing is written to the sink. Parameters out of range, or no sink, are `InvalidParameter` and the Link
stays `Uninitialized` (decision D10); `init` of a constructed Link has no meaning (decision D24). -/
def Obligations.InitResult : Prop :=
  (∀ (cfg : LinkConfig) (s : State), s.linkState = .uninitialized → 1 ≤ cfg.nChannels → cfg.nChannels ≤ 8191 →
    1 ≤ cfg.wMax → cfg.wMax ≤ 32767 → cfg.sink = true → cfg.channelInit = false →
    ∃ t, exec (.init cfg) s = .next t ∧
      t = { s with linkState := .active, rbuf := [], cur := 0, cfg := cfg, chans := t.chans,
                   trace := s.trace ++ [.ret (.status .ok)] } ∧
      t.chans.length = cfg.nChannels ∧
      ∀ i, i < cfg.nChannels → t.chans[i]? = some ⟨BitVec.ofNat 13 i, BitVec.ofNat 16 cfg.wMax, [], none⟩) ∧
  (∀ (cfg : LinkConfig) (s : State),
    (s.linkState = .uninitialized →
      (cfg.nChannels < 1 ∨ 8191 < cfg.nChannels ∨ cfg.wMax < 1 ∨ 32767 < cfg.wMax ∨ cfg.sink = false) →
      exec (.init cfg) s = .next (emit (.ret (.status .invalidParameter)) s)) ∧
    (s.linkState ≠ .uninitialized → exec (.init cfg) s = .refused .alreadyInitialized))

/-- `CHANNEL_INIT` is invoked once per slot, in ascending order, before the Link is `Active` (R231; the order is
decision D22). Whatever the upcalls invoke, `init` completes with what they leave; the second part spells it out for
upcalls that each register a callback on the slot handed over: every slot holds its own. The upcall of a slot may invoke
registration and the accessors on that slot, with their effect; anything else, after whatever was invoked before it, is
refused, and `init` with it (R231; the codec operations too, notes/assumptions/10.md). -/
def Obligations.ChannelInitOncePerSlot : Prop :=
  (∀ (cfg : LinkConfig) (s : State), s.linkState = .uninitialized → 1 ≤ cfg.nChannels →
    cfg.nChannels ≤ 8191 → 1 ≤ cfg.wMax → cfg.wMax ≤ 32767 → cfg.sink = true → cfg.channelInit = true →
    (∀ u, channelInits cfg.nChannels 0 (construct cfg s) = .next ((), u) →
      exec (.init cfg) s = .next (emit (.ret (.status .ok)) { u with linkState := .active })) ∧
    (∀ handle : Nat → Word64,
      s.env.channelInit = (List.range cfg.nChannels).map (fun i => [.setCallback i (some (handle i))]) →
      ∃ t, exec (.init cfg) s = .next t ∧ t.linkState = .active ∧
        t.trace = s.trace ++ (List.range cfg.nChannels).flatMap (fun i => [.channelInit i, .ret .unit]) ++
          [.ret (.status .ok)] ∧
        ∀ i, i < cfg.nChannels →
          t.chans[i]? = some ⟨BitVec.ofNat 13 i, BitVec.ofNat 16 cfg.wMax, [], some (handle i)⟩) ∧
    (∀ (k : Nat) (before after : List Instr) (call : Instr) (more : List (List Instr)) (u v : State),
      k < cfg.nChannels → channelInits k 0 (construct cfg s) = .next ((), u) →
      u.env.channelInit = (before ++ call :: after) :: more →
      runInChannelInit k before (emit (.channelInit k) { u with env := { u.env with channelInit := more } }) =
        .next ((), v) →
      channelInitMayInvoke k call = false → exec (.init cfg) s = .refused .notInChannelInit)) ∧
  (∀ (k : Nat) (cb : Option Word64) (c : Channel) (u : State), u.chans[k]? = some c →
    execInChannelInit k (.setCallback k cb) u = .next (emit (.ret .unit) (setChannel k { c with callback := cb } u)) ∧
    execInChannelInit k (.id k) u = .next (emit (.ret (.chanId c.chanId)) u) ∧
    execInChannelInit k (.sendWindow k) u = .next (emit (.ret (.window c.window)) u))

/-- `close` moves `Active` and `Failed` to `Closed`, leaves `Closed`, sends nothing and discards nothing (R236, R232).
`destroy` completes in every state (R237, R232): the Link is `Uninitialized`, no slot and no byte of `RBUF` is left, and
`CUR` is unspecified within its range (notes/assumptions/13.md); on an `Uninitialized` Link it has no effect.
Decision D24. -/
def Obligations.CloseAndDestroyResult : Prop :=
  ∀ s : State,
    (s.linkState ≠ .uninitialized →
      exec .close s = .next (emit (.ret .unit) { s with linkState := .closed })) ∧
    (s.linkState = .uninitialized → exec .destroy s = .next (emit (.ret .unit) s)) ∧
    (s.linkState ≠ .uninitialized → ∃ t, exec .destroy s = .next t ∧ t.linkState = .uninitialized ∧
      t.chans = [] ∧ (∀ a, Memory.read t.rbuf a = none) ∧ t.cur ≤ 0x10000 ∧
      t.trace = s.trace ++ [.ret .unit] ∧ t.port = s.port ∧ t.env = s.env)

/-- On a Link that is `Closed` or `Failed`, `recv` (of any input), `write_frame` and `write` return `LinkNotActive`
with no state change and no upcall, and so does every frame that arrives (R232, R260, R181; decision D4). -/
def Obligations.InactiveLinkAnswersLinkNotActive : Prop :=
  ∀ (inp : Option Bytes) (i : Nat) (str : Bytes) (s : State), s.linkState = .closed ∨ s.linkState = .failed →
    exec (.recv inp) s = .next (emit (.ret (.consumed .linkNotActive 0)) s) ∧
    exec (.writeFrame i str) s = .next (emit (.ret (.status .linkNotActive)) s) ∧
    exec (.write str) s = .next (emit (.ret (.status .linkNotActive)) s) ∧
    (∀ (f : Flags) (size : Size16), exec (.routeControl f size str) s =
      .next (emit (.ret (.consumed .linkNotActive 0)) s)) ∧
    (∀ (k : Instr) (f : Flags) (size : Size16) (cid : ChanId), noPayloadKind k = some (f, size, cid) →
      exec k s = .next (emit (.ret (.consumed .linkNotActive 0)) s)) ∧
    (∀ (k : Instr) (f : Flags) (size : Size16) (cid : ChanId) (body : Bytes),
      payloadKind k = some (f, size, cid, body) →
      exec k s = .next (emit (.ret (.consumed .linkNotActive 0)) s))

/-- Every operation of a Link but `init`, `destroy` and the codec is refused while the Link is `Uninitialized`
(R232; decisions D4, D24). -/
def Obligations.UninitializedLinkRefuses : Prop :=
  ∀ (i : Instr) (s : State), s.linkState = .uninitialized → isCodec i = false → (∀ cfg, i ≠ .init cfg) →
    i ≠ .destroy → exec i s = .refused .uninitialized

/-- The transition table of `LINK_STATE` (R232) holds of every instruction, and only `recv`, a frame that arrives,
`write_frame`, `process_frame` and `write` can fail a Link (R262; decision D4). -/
def Obligations.LinkStateTransitions : Prop :=
  ∀ (i : Instr) (s t : State), exec i s = .next t →
    linkTransition s.linkState t.linkState = true ∧
    (t.linkState = .active → s.linkState ≠ .active → ∃ cfg, i = .init cfg) ∧
    (t.linkState = .closed → s.linkState ≠ .closed → i = .close) ∧
    (t.linkState = .uninitialized → s.linkState ≠ .uninitialized → i = .destroy) ∧
    (t.linkState = .failed → s.linkState ≠ .failed → s.linkState = .active ∧ mayFail i = true)

/-- The configuration is fixed at `init` (R28), and the IDs of the slots never change while a Link exists (R21):
every instruction but `init` keeps the configuration, and every instruction but `init` and `destroy` keeps every
slot's ID. That `destroy` keeps the configuration, which nothing reads after it, is the model's choice
(notes/assumptions/13.md). -/
def Obligations.ConfigAndIdsFixed : Prop :=
  ∀ (i : Instr) (s t : State), exec i s = .next t →
    ((∀ cfg, i ≠ .init cfg) → t.cfg = s.cfg) ∧
    ((∀ cfg, i ≠ .init cfg) → i ≠ .destroy → t.chans.map (·.chanId) = s.chans.map (·.chanId))

/-! ### The machine -/

/-- The decoder gives back every well-formed instruction from its words, with every operand. -/
def Obligations.DecodeEncode : Prop :=
  ∀ i : Instr, i.wf = true → decode (encode i) = .ok i

/-- The decoder is sound: what it accepts is the words of a well-formed instruction and no other bytes. -/
def Obligations.DecodeSound : Prop :=
  ∀ (w : Words) (i : Instr), decode w = .ok i → i.wf = true ∧ encode i = w

/-- Words written out from the spec's encodings decode to the instructions they stand for (R82, R86, R90, R91, R94,
R96, R100). -/
def Obligations.SpecWordsDecode : Prop :=
  decode ⟨.stream, [0x00#8, 0x02#8, 0x20#8, 0x01#8, 0x68#8, 0x69#8]⟩ = .ok (.frameHead 2#16 1#13 [0x68#8, 0x69#8]) ∧
  decode ⟨.stream, [0x12#8, 0x34#8, 0x80#8, 0x00#8]⟩ = .ok (.frameAck 0x1234#16 0#13) ∧
  decode ⟨.stream, [0x00#8, 0x00#8, 0x9F#8, 0xFF#8]⟩ = .ok (.routeControl ⟨true, false, false⟩ 0#16 []) ∧
  decode ⟨.varint, [0xAC#8, 0x02#8]⟩ = .ok (.varintCont 0x2C#7 [0x02#8]) ∧
  decode ⟨.length, [0x81#8, 0x2C#8]⟩ = .ok (.lenLong 1#7 0x2C#8 []) ∧
  decode ⟨.text, [0x80#8, 0x00#8, 0x41#8]⟩ = .ok (.textChar1Long 0x41#8 []) ∧
  decode ⟨.operation, [0x15#8]⟩ = .ok .close

/-- A step runs the decoded instruction: with a command on the port whose bytes decode to `i`, the step is `exec i` on
the state with that command taken off and its inputs in place (R8, R9; notes/assumptions/3.md). Bytes that decode to
nothing are refused, and with an empty port nothing happens (R266, R291). -/
def Obligations.StepRunsDecodedInstruction : Prop :=
  (∀ (c : Command) (rest : List Command) (i : Instr) (s : State), s.port = c :: rest → decode c.words = .ok i →
    step s = exec i { s with port := rest, env := c.env }) ∧
  (∀ (c : Command) (rest : List Command) (e : DecodeError) (s : State), s.port = c :: rest →
    decode c.words = .error e → step s = .refused (.undecodable e)) ∧
  (∀ s : State, s.port = [] → step s = .next s)

/-- The reset state meets the invariant, and is what `init` makes of the power-on state with the typical parameters
(R35, R290; the parameters are notes/assumptions/1.md). -/
def Obligations.ResetMeetsInvariant : Prop :=
  State.reset.Inv ∧ State.powerOn.Inv ∧
  exec (.init LinkConfig.typical) State.powerOn = .next (emit (.ret (.status .ok)) State.reset)

/-- Every step keeps the invariant: `RBUF` canonical, `CUR` in its range, legal parameters, `N_CHANNELS` slots whose IDs
are their indexes, whose windows are never negative and whose queues hold well-formed frames of their own ID within
`QUEUE_CAP`, `RBUF[0..CUR)` written, and while `Active` the reassembler in one of its two phases (R21, R25, R26, R27,
R33, R53, R190). -/
def Obligations.StepKeepsInvariant : Prop :=
  ∀ s t : State, s.Inv → step s = .next t → t.Inv

/-- In a state that meets the invariant no step reads a byte of `RBUF` that was never written (R25: "no rule reads
it"). -/
def Obligations.NoUnwrittenRead : Prop :=
  ∀ (s : State) (a : Nat), s.Inv → step s ≠ .fault (.unwrittenRead a)
end

