-- ==== Sys2Proof/Laws/State.lean ====
section
/-! SUPPORT. One lemma per field per state update. -/

namespace Sys2Proof.Machine

/-! `emit` records an observation. -/

@[simp] theorem emit_linkState (e : Event) (s : State) : (emit e s).linkState = s.linkState := rfl
@[simp] theorem emit_rbuf (e : Event) (s : State) : (emit e s).rbuf = s.rbuf := rfl
@[simp] theorem emit_cur (e : Event) (s : State) : (emit e s).cur = s.cur := rfl
@[simp] theorem emit_chans (e : Event) (s : State) : (emit e s).chans = s.chans := rfl
@[simp] theorem emit_cfg (e : Event) (s : State) : (emit e s).cfg = s.cfg := rfl
@[simp] theorem emit_port (e : Event) (s : State) : (emit e s).port = s.port := rfl
@[simp] theorem emit_env (e : Event) (s : State) : (emit e s).env = s.env := rfl
@[simp] theorem emit_draws (e : Event) (s : State) : (emit e s).draws = s.draws := rfl
@[simp] theorem emit_trace (e : Event) (s : State) : (emit e s).trace = s.trace ++ [e] := rfl

/-! `setChannel` replaces one slot. -/

@[simp] theorem setChannel_linkState (i : Nat) (c : Channel) (s : State) : (setChannel i c s).linkState = s.linkState := rfl
@[simp] theorem setChannel_rbuf (i : Nat) (c : Channel) (s : State) : (setChannel i c s).rbuf = s.rbuf := rfl
@[simp] theorem setChannel_cur (i : Nat) (c : Channel) (s : State) : (setChannel i c s).cur = s.cur := rfl
@[simp] theorem setChannel_chans (i : Nat) (c : Channel) (s : State) : (setChannel i c s).chans = s.chans.set i c := rfl
@[simp] theorem setChannel_cfg (i : Nat) (c : Channel) (s : State) : (setChannel i c s).cfg = s.cfg := rfl
@[simp] theorem setChannel_port (i : Nat) (c : Channel) (s : State) : (setChannel i c s).port = s.port := rfl
@[simp] theorem setChannel_env (i : Nat) (c : Channel) (s : State) : (setChannel i c s).env = s.env := rfl
@[simp] theorem setChannel_draws (i : Nat) (c : Channel) (s : State) : (setChannel i c s).draws = s.draws := rfl
@[simp] theorem setChannel_trace (i : Nat) (c : Channel) (s : State) : (setChannel i c s).trace = s.trace := rfl

/-! `storeByte` stores one inbound byte. -/

@[simp] theorem storeByte_linkState (b : Byte) (s : State) : (storeByte b s).linkState = s.linkState := rfl
@[simp] theorem storeByte_rbuf (b : Byte) (s : State) : (storeByte b s).rbuf = Memory.write s.rbuf s.cur b := rfl
@[simp] theorem storeByte_cur (b : Byte) (s : State) : (storeByte b s).cur = s.cur + 1 := rfl
@[simp] theorem storeByte_chans (b : Byte) (s : State) : (storeByte b s).chans = s.chans := rfl
@[simp] theorem storeByte_cfg (b : Byte) (s : State) : (storeByte b s).cfg = s.cfg := rfl
@[simp] theorem storeByte_port (b : Byte) (s : State) : (storeByte b s).port = s.port := rfl
@[simp] theorem storeByte_env (b : Byte) (s : State) : (storeByte b s).env = s.env := rfl
@[simp] theorem storeByte_draws (b : Byte) (s : State) : (storeByte b s).draws = s.draws := rfl
@[simp] theorem storeByte_trace (b : Byte) (s : State) : (storeByte b s).trace = s.trace := rfl

/-! `frameBoundary` resets the cursor. -/

@[simp] theorem frameBoundary_linkState (s : State) : (frameBoundary s).linkState = s.linkState := rfl
@[simp] theorem frameBoundary_rbuf (s : State) : (frameBoundary s).rbuf = s.rbuf := rfl
@[simp] theorem frameBoundary_cur (s : State) : (frameBoundary s).cur = 0 := rfl
@[simp] theorem frameBoundary_chans (s : State) : (frameBoundary s).chans = s.chans := rfl
@[simp] theorem frameBoundary_cfg (s : State) : (frameBoundary s).cfg = s.cfg := rfl
@[simp] theorem frameBoundary_port (s : State) : (frameBoundary s).port = s.port := rfl
@[simp] theorem frameBoundary_env (s : State) : (frameBoundary s).env = s.env := rfl
@[simp] theorem frameBoundary_draws (s : State) : (frameBoundary s).draws = s.draws := rfl
@[simp] theorem frameBoundary_trace (s : State) : (frameBoundary s).trace = s.trace := rfl

/-! `construct` is what `init` writes before the upcalls. -/

@[simp] theorem construct_linkState (k : LinkConfig) (s : State) : (construct k s).linkState = s.linkState := rfl
@[simp] theorem construct_rbuf (k : LinkConfig) (s : State) : (construct k s).rbuf = [] := rfl
@[simp] theorem construct_cur (k : LinkConfig) (s : State) : (construct k s).cur = 0 := rfl
@[simp] theorem construct_chans (k : LinkConfig) (s : State) : (construct k s).chans = freshChannels k.wMax 0 k.nChannels := rfl
@[simp] theorem construct_cfg (k : LinkConfig) (s : State) : (construct k s).cfg = k := rfl
@[simp] theorem construct_port (k : LinkConfig) (s : State) : (construct k s).port = s.port := rfl
@[simp] theorem construct_env (k : LinkConfig) (s : State) : (construct k s).env = s.env := rfl
@[simp] theorem construct_draws (k : LinkConfig) (s : State) : (construct k s).draws = s.draws := rfl
@[simp] theorem construct_trace (k : LinkConfig) (s : State) : (construct k s).trace = s.trace := rfl

/-! Two updates in a row. -/

theorem emit_emit_trace (e f : Event) (s : State) : (emit f (emit e s)).trace = s.trace ++ [e, f] := by
  simp

@[simp] theorem setChannel_setChannel (i : Nat) (c d : Channel) (s : State) :
    setChannel i d (setChannel i c s) = setChannel i d s := by
  simp [setChannel]

/-- Writing back what a slot holds changes nothing. -/
theorem setChannel_self (i : Nat) (c : Channel) (s : State) (h : s.chans[i]? = some c) : setChannel i c s = s := by
  have hset : s.chans.set i c = s.chans := by
    apply List.ext_getElem?
    intro j
    by_cases hj : i = j
    · subst hj
      have hlt : i < s.chans.length := (List.getElem?_eq_some_iff.mp h).1
      rw [List.getElem?_set_self hlt, h]
    · rw [List.getElem?_set_ne hj]
  simp [setChannel, hset]

/-- The slot just written. -/
theorem setChannel_get_same (i : Nat) (c d : Channel) (s : State) (h : s.chans[i]? = some c) :
    (setChannel i d s).chans[i]? = some d := by
  have hlt : i < s.chans.length := (List.getElem?_eq_some_iff.mp h).1
  simp [hlt]

/-- Every other slot. -/
theorem setChannel_get_other (i j : Nat) (d : Channel) (s : State) (h : i ≠ j) :
    (setChannel i d s).chans[j]? = s.chans[j]? := by
  simp [List.getElem?_set_ne h]

end Sys2Proof.Machine
end

