-- ==== Sys2Proof/Laws/Codec.lean ====
section
/-! SUPPORT. The header fields and the flag predicates: each definition's small lemmas. -/

namespace Sys2Proof.Machine

@[simp] theorem Flags.ofByte_toByte (f : Flags) : Flags.ofByte f.toByte = f := by
  rcases f with ⟨_ | _, _ | _, _ | _⟩ <;> rfl

/-- The flag predicates in terms of the bits. -/
theorem hasFlow_eq (f : Flags) : hasFlow f = f.flow := by rcases f with ⟨_ | _, _ | _, _ | _⟩ <;> rfl
theorem hasBodyOrHead_eq (f : Flags) : hasBodyOrHead f = (f.head || f.body) := by
  rcases f with ⟨_ | _, _ | _, _ | _⟩ <;> rfl
theorem hasPayload_eq (f : Flags) : hasPayload f = f.payloadFollows := by
  rcases f with ⟨_ | _, _ | _, _ | _⟩ <;> rfl
theorem isFinal_eq (f : Flags) : isFinal f = (f.flow && f.body) := by
  rcases f with ⟨_ | _, _ | _, _ | _⟩ <;> rfl
theorem hasHead_eq (f : Flags) : hasHead f = f.head := by rcases f with ⟨_ | _, _ | _, _ | _⟩ <;> rfl

/-- No frame has a payload and is final (`90_conflicts.md` C1). -/
theorem isFinal_of_hasPayload {f : Flags} (h : hasPayload f = true) : isFinal f = false := by
  rcases f with ⟨_ | _, _ | _, _ | _⟩ <;> first | rfl | (exfalso; revert h; decide)

/-- Header byte 2 gives back the flags. -/
theorem flags_of_byte2 (f : Flags) (hi : BitVec 5) : Flags.ofByte (f.toByte ||| hi.setWidth 8) = f := by
  rcases f with ⟨_ | _, _ | _, _ | _⟩ <;> simp [Flags.ofByte, Flags.toByte]

/-- Header bytes 2 and 3 give back the ID. -/
theorem cid_of_bytes (f : Flags) (cid : ChanId) :
    cidOfBytes (f.toByte ||| (cid.extractLsb' 8 5).setWidth 8) (cid.extractLsb' 0 8) = cid := by
  apply BitVec.eq_of_getLsbD_eq
  intro k hk
  by_cases h8 : k < 8
  · simp [cidOfBytes, h8, hk]
  · have hcase : k = 8 ∨ k = 9 ∨ k = 10 ∨ k = 11 ∨ k = 12 := by omega
    rcases hcase with rfl | rfl | rfl | rfl | rfl <;> rcases f with ⟨_ | _, _ | _, _ | _⟩ <;>
      simp [cidOfBytes, Flags.toByte]

/-- Header bytes 0 and 1 give back the size. -/
theorem size_of_bytes (size : Size16) : sizeOfBytes (size.extractLsb' 8 8) (size.extractLsb' 0 8) = size := by
  apply BitVec.eq_of_getLsbD_eq
  intro k hk
  by_cases h8 : k < 8
  · simp [sizeOfBytes, h8, hk]
  · simp [sizeOfBytes, h8, hk, show k - 8 < 8 by omega, show 8 + (k - 8) = k by omega]

@[simp] theorem headerBytes_length (cid : ChanId) (f : Flags) (size : Size16) :
    (headerBytes cid f size).length = 4 := rfl

/-- The fields of a string that begins with encoded header bytes. -/
@[simp] theorem headerOf_headerBytes (cid : ChanId) (f : Flags) (size : Size16) (rest : Bytes) :
    headerOf (headerBytes cid f size ++ rest) = ⟨cid, f, size⟩ := by
  simp only [headerOf, headerBytes, byteAt, List.cons_append, List.getD_cons_zero, List.getD_cons_succ,
    flags_of_byte2, cid_of_bytes, size_of_bytes]

/-- Only the first four bytes matter. -/
theorem headerOf_take (str : Bytes) (n : Nat) (h : 4 ≤ n) : headerOf (str.take n) = headerOf str := by
  have hb : ∀ k, k < 4 → byteAt (str.take n) k = byteAt str k := by
    intro k hk
    simp [byteAt, List.getD_eq_getElem?_getD, show k < n by omega]
  simp [headerOf, hb 0 (by omega), hb 1 (by omega), hb 2 (by omega), hb 3 (by omega)]

theorem headerOf_append (str rest : Bytes) (h : 4 ≤ str.length) : headerOf (str ++ rest) = headerOf str := by
  have := headerOf_take (str ++ rest) str.length h
  simpa using this.symm

theorem totalLength_append (str rest : Bytes) (h : 4 ≤ str.length) :
    totalLength (str ++ rest) = totalLength str := by
  unfold totalLength frameFlags
  rw [headerOf_append str rest h]

theorem totalLength_take (str : Bytes) (n : Nat) (h : 4 ≤ n) : totalLength (str.take n) = totalLength str := by
  unfold totalLength frameFlags
  rw [headerOf_take str n h]

theorem totalLength_ge (str : Bytes) : 4 ≤ totalLength str := by
  unfold totalLength headerLen; split <;> omega

theorem totalLength_headerBytes (cid : ChanId) (f : Flags) (size : Size16) (rest : Bytes) :
    totalLength (headerBytes cid f size ++ rest) = if hasPayload f then 4 + size.toNat else 4 := by
  simp [totalLength, frameFlags, headerLen]

@[simp] theorem makeAck_length (cid : ChanId) : (makeAck cid).length = 4 := rfl

end Sys2Proof.Machine
end

