-- ==== Sys2Proof/Laws/Upcalls.lean ====
section
/-! SUPPORT. The results of procedures, slots, the sink and the callback: what each shared operation can do, said
once. -/

namespace Sys2Proof.Machine

/-! ### Results -/

@[simp] theorem andThen_next {α β : Type} (v : α) (s : State) (k : α → State → Res β) :
    andThen (.next (v, s)) k = k v s := rfl
@[simp] theorem andThen_fault {α β : Type} (e : Fault) (k : α → State → Res β) :
    andThen (.fault e) k = .fault e := rfl
@[simp] theorem andThen_refused {α β : Type} (e : Refusal) (k : α → State → Res β) :
    andThen (.refused e) k = .refused e := rfl

/-- A sequence that answers comes from a first part that answers. -/
theorem andThen_eq_next {α β : Type} {r : Res α} {k : α → State → Res β} {x : β × State} :
    andThen r k = .next x ↔ ∃ v s, r = .next (v, s) ∧ k v s = .next x := by
  cases r with
  | next p => obtain ⟨v, s⟩ := p; simp [andThen]
  | fault e => simp [andThen]
  | refused e => simp [andThen]

/-- A sequence that faults faults in one of its parts. -/
theorem andThen_eq_fault {α β : Type} {r : Res α} {k : α → State → Res β} {e : Fault} :
    andThen r k = .fault e ↔ r = .fault e ∨ ∃ v s, r = .next (v, s) ∧ k v s = .fault e := by
  cases r with
  | next p => obtain ⟨v, s⟩ := p; simp [andThen]
  | fault f => simp [andThen]
  | refused f => simp [andThen]

@[simp] theorem returns_next {α : Type} (out : α → Ret) (v : α) (s : State) :
    returns out (.next (v, s)) = .next (emit (.ret (out v)) s) := rfl
@[simp] theorem returns_fault {α : Type} (out : α → Ret) (e : Fault) : returns out (.fault e) = .fault e := rfl
@[simp] theorem returns_refused {α : Type} (out : α → Ret) (e : Refusal) :
    returns out (.refused e) = .refused e := rfl

/-- An operation that answers ends with its outputs observed. -/
theorem returns_eq_next {α : Type} {out : α → Ret} {r : Res α} {t : State} :
    returns out r = .next t ↔ ∃ v s, r = .next (v, s) ∧ t = emit (.ret (out v)) s := by
  cases r with
  | next p => obtain ⟨v, s⟩ := p; simp [returns, eq_comm]
  | fault e => simp [returns]
  | refused e => simp [returns]

theorem returns_eq_fault {α : Type} {out : α → Ret} {r : Res α} {e : Fault} :
    returns out r = .fault e ↔ r = .fault e := by
  cases r with
  | next p => obtain ⟨v, s⟩ := p; simp [returns]
  | fault f => simp [returns]
  | refused f => simp [returns]

/-! ### Slots -/

theorem withChannel_some {α : Type} {i : Nat} {s : State} {c : Channel} (h : s.chans[i]? = some c)
    (k : Channel → Res α) : withChannel i s k = k c := by simp [withChannel, h]

theorem withChannel_none {α : Type} {i : Nat} {s : State} (h : s.chans[i]? = none) (k : Channel → Res α) :
    withChannel i s k = .fault (.noSlot i) := by simp [withChannel, h]

/-- A procedure on a slot that answers has found the slot. -/
theorem withChannel_eq_next {α : Type} {i : Nat} {s : State} {k : Channel → Res α} {x : α × State} :
    withChannel i s k = .next x ↔ ∃ c, s.chans[i]? = some c ∧ k c = .next x := by
  unfold withChannel
  split
  · simp_all
  · simp_all

theorem withChannel_eq_fault {α : Type} {i : Nat} {s : State} {k : Channel → Res α} {e : Fault} :
    withChannel i s k = .fault e ↔
      (s.chans[i]? = none ∧ e = .noSlot i) ∨ ∃ c, s.chans[i]? = some c ∧ k c = .fault e := by
  unfold withChannel
  split
  · rename_i h; simp [h, eq_comm]
  · rename_i c h; simp [h]

/-! ### Link states -/

theorem whenActive_active {α : Type} {s : State} (h : s.linkState = .active) (v : α) (r : Res α) :
    whenActive v s r = r := by simp [whenActive, h]

theorem whenActive_inactive {α : Type} {s : State} (h : s.linkState = .closed ∨ s.linkState = .failed) (v : α)
    (r : Res α) : whenActive v s r = .next (v, s) := by
  rcases h with h | h <;> simp [whenActive, h]

theorem whenActive_uninitialized {α : Type} {s : State} (h : s.linkState = .uninitialized) (v : α) (r : Res α) :
    whenActive v s r = .refused .uninitialized := by simp [whenActive, h]

/-- What `whenActive` can answer. -/
theorem whenActive_eq_next {α : Type} {s : State} {v : α} {r : Res α} {x : α × State} :
    whenActive v s r = .next x ↔
      (s.linkState = .active ∧ r = .next x) ∨ ((s.linkState = .closed ∨ s.linkState = .failed) ∧ x = (v, s)) := by
  cases h : s.linkState <;> simp [whenActive, h, eq_comm]

theorem whenActive_eq_fault {α : Type} {s : State} {v : α} {r : Res α} {e : Fault} :
    whenActive v s r = .fault e ↔ s.linkState = .active ∧ r = .fault e := by
  unfold whenActive
  split <;> simp_all

theorem whenConstructed_of {α : Type} {s : State} (h : s.linkState ≠ .uninitialized) (r : Res α) :
    whenConstructed s r = r := by
  unfold whenConstructed
  split <;> simp_all

theorem whenConstructed_uninitialized {α : Type} {s : State} (h : s.linkState = .uninitialized) (r : Res α) :
    whenConstructed s r = .refused .uninitialized := by simp [whenConstructed, h]

theorem whenConstructed_eq_next {α : Type} {s : State} {r : Res α} {x : α × State} :
    whenConstructed s r = .next x ↔ s.linkState ≠ .uninitialized ∧ r = .next x := by
  unfold whenConstructed
  split <;> simp_all

theorem whenConstructed_eq_fault {α : Type} {s : State} {r : Res α} {e : Fault} :
    whenConstructed s r = .fault e ↔ s.linkState ≠ .uninitialized ∧ r = .fault e := by
  unfold whenConstructed
  split <;> simp_all

/-! ### Upcalls -/

/-- Drawing an answer of the sink touches the inputs and the counter only. -/
theorem drawSink_keeps (s : State) :
    (drawSink s).2 = { s with env := (drawSink s).2.env, draws := (drawSink s).2.draws } := by
  unfold drawSink
  split <;> rfl

/-- The answer depends on the inputs and the counter only. -/
theorem drawSink_fst_congr {s t : State} (he : s.env = t.env) (hd : s.draws = t.draws) :
    (drawSink s).1 = (drawSink t).1 := by
  unfold drawSink
  rw [he, hd]
  split <;> rfl

theorem drawSink_cons {s : State} {a : SinkStatus} {rest : List SinkStatus} (h : s.env.sink = a :: rest) :
    drawSink s = (a, { s with env := { s.env with sink := rest } }) := by
  unfold drawSink
  rw [h]

theorem drawCallback_keeps (s : State) :
    (drawCallback s).2 = { s with env := (drawCallback s).2.env, draws := (drawCallback s).2.draws } := by
  unfold drawCallback
  split <;> rfl

theorem drawCallback_cons {s : State} {a : CallbackReply} {rest : List CallbackReply} (h : s.env.callback = a :: rest) :
    drawCallback s = (a, { s with env := { s.env with callback := rest } }) := by
  unfold drawCallback
  rw [h]

theorem drawChannelInit_keeps (s : State) :
    (drawChannelInit s).2 = { s with env := (drawChannelInit s).2.env, draws := (drawChannelInit s).2.draws } := by
  unfold drawChannelInit
  split <;> rfl

theorem drawChannelInit_cons {s : State} {a : List Instr} {rest : List (List Instr)}
    (h : s.env.channelInit = a :: rest) :
    drawChannelInit s = (a, { s with env := { s.env with channelInit := rest } }) := by
  unfold drawChannelInit
  rw [h]

/-- One `SinkWrite` whose status is passed on: `afterSinkWrite` with `statusOfSinkWrite`. -/
theorem sinkStatus_sinkWrite (str : Bytes) (s : State) :
    sinkStatus (sinkWrite str s).1 (sinkWrite str s).2 = .next (statusOfSinkWrite s, afterSinkWrite str s) := by
  have hl := congrArg State.linkState (drawSink_keeps s)
  unfold sinkWrite afterSinkWrite statusOfSinkWrite
  rcases hd : drawSink s with ⟨st, s1⟩
  simp only [hd] at hl
  cases st with
  | ok => simp [sinkStatus, emit, hl]
  | fail e => simp [sinkStatus, raiseFatal, emit]

@[simp] theorem afterSinkWrite_rbuf (str : Bytes) (s : State) : (afterSinkWrite str s).rbuf = s.rbuf := by
  have := congrArg State.rbuf (drawSink_keeps s); simpa [afterSinkWrite] using this
@[simp] theorem afterSinkWrite_cur (str : Bytes) (s : State) : (afterSinkWrite str s).cur = s.cur := by
  have := congrArg State.cur (drawSink_keeps s); simpa [afterSinkWrite] using this
@[simp] theorem afterSinkWrite_chans (str : Bytes) (s : State) : (afterSinkWrite str s).chans = s.chans := by
  have := congrArg State.chans (drawSink_keeps s); simpa [afterSinkWrite] using this
@[simp] theorem afterSinkWrite_cfg (str : Bytes) (s : State) : (afterSinkWrite str s).cfg = s.cfg := by
  have := congrArg State.cfg (drawSink_keeps s); simpa [afterSinkWrite] using this
@[simp] theorem afterSinkWrite_port (str : Bytes) (s : State) : (afterSinkWrite str s).port = s.port := by
  have := congrArg State.port (drawSink_keeps s); simpa [afterSinkWrite] using this
@[simp] theorem afterSinkWrite_trace (str : Bytes) (s : State) :
    (afterSinkWrite str s).trace = s.trace ++ [.sink str (drawSink s).1] := by
  have := congrArg State.trace (drawSink_keeps s); simpa [afterSinkWrite] using this

theorem afterSinkWrite_linkState (str : Bytes) (s : State) :
    (afterSinkWrite str s).linkState = if (drawSink s).1 = .ok then s.linkState else .failed := rfl

/-- A `SinkWrite` returns `OK` with the Link as it was, or the Link has failed. -/
theorem sinkWrite_cases (str : Bytes) (s : State) :
    (statusOfSinkWrite s = .ok ∧ (afterSinkWrite str s).linkState = s.linkState) ∨
    (statusOfSinkWrite s = .outputBufferTooSmall ∧ (afterSinkWrite str s).linkState = .failed) := by
  by_cases h : (drawSink s).1 = .ok <;> simp [statusOfSinkWrite, afterSinkWrite_linkState, h]

/-- With an accepting answer next. -/
theorem afterSinkWrite_ok {s : State} {rest : List SinkStatus} (str : Bytes) (h : s.env.sink = .ok :: rest) :
    afterSinkWrite str s = emit (.sink str .ok) { s with env := { s.env with sink := rest } } := by
  simp [afterSinkWrite, drawSink_cons h, emit]

theorem statusOfSinkWrite_ok {s : State} {rest : List SinkStatus} (h : s.env.sink = .ok :: rest) :
    statusOfSinkWrite s = .ok := by simp [statusOfSinkWrite, drawSink_cons h]

theorem statusOfSinkWrite_eq_ok {s : State} : statusOfSinkWrite s = .ok ↔ (drawSink s).1 = .ok := by
  simp [statusOfSinkWrite]

end Sys2Proof.Machine
end

