-- ==== Sys2Proof/Laws/Channel.lean ====
section
/-! SUPPORT. The send side of a channel: what `transmit`, `drain`, `enqueue` and `write_frame` can do, said once, and
the two properties every channel operation has: it keeps the Link (`KeepsLink`) and the soundness of the slots. -/

namespace Sys2Proof.Machine

/-! ### Sound slots -/

/-- The slots of the Link are sound. -/
def slotsSound (s : State) : Prop := channelsSoundFrom s.cfg.queueCap 0 s.chans = true

theorem channelsSoundFrom_get {cap : Option Nat} {l : List Channel} {k i : Nat} {c : Channel}
    (h : channelsSoundFrom cap k l = true) (hi : l[i]? = some c) : c.sound cap (k + i) = true := by
  induction l generalizing k i with
  | nil => simp at hi
  | cons d rest ih =>
    simp only [channelsSoundFrom, Bool.and_eq_true] at h
    cases i with
    | zero => simp at hi; subst hi; simpa using h.1
    | succ i =>
      have := ih h.2 (by simpa using hi)
      simpa [Nat.add_assoc, Nat.add_comm 1 i] using this

theorem channelsSoundFrom_set {cap : Option Nat} {l : List Channel} {k i : Nat} {c : Channel}
    (h : channelsSoundFrom cap k l = true) (hc : c.sound cap (k + i) = true) :
    channelsSoundFrom cap k (l.set i c) = true := by
  induction l generalizing k i with
  | nil => simp [channelsSoundFrom]
  | cons d rest ih =>
    simp only [channelsSoundFrom, Bool.and_eq_true] at h
    cases i with
    | zero => simpa [channelsSoundFrom, h.2] using hc
    | succ i =>
      simp only [List.set_cons_succ, channelsSoundFrom, Bool.and_eq_true]
      exact ⟨h.1, ih h.2 (by simpa [Nat.add_assoc, Nat.add_comm 1 i] using hc)⟩

/-- Soundness of a slot, in parts. -/
theorem Channel.sound_iff {cap : Option Nat} {i : Nat} {c : Channel} :
    c.sound cap i = true ↔ c.chanId.toNat = i ∧ 0 ≤ c.window.toInt ∧
      (∀ frame ∈ c.queue, frameWf frame = true ∧ frameId frame = c.chanId) ∧
      (∀ n, cap = some n → c.queue.length ≤ n) := by
  unfold Channel.sound
  cases cap <;> simp [and_assoc]

/-- Writing a sound slot keeps the slots sound. -/
theorem slotsSound_setChannel {i : Nat} {c : Channel} {s : State} (h : slotsSound s)
    (hc : c.sound s.cfg.queueCap i = true) : slotsSound (setChannel i c s) :=
  channelsSoundFrom_set h (by simpa using hc)

theorem slotsSound_get {i : Nat} {c : Channel} {s : State} (h : slotsSound s) (hi : s.chans[i]? = some c) :
    c.sound s.cfg.queueCap i = true := by simpa using channelsSoundFrom_get h hi

/-- Only the configuration and the slots matter. -/
theorem slotsSound_congr {s t : State} (hc : t.cfg = s.cfg) (hk : t.chans = s.chans) :
    slotsSound t ↔ slotsSound s := by simp [slotsSound, hc, hk]

/-! ### What channel operations keep -/

/-- `t` is `s` but for windows, queues, callbacks, inputs and observations, and the Link may have failed. -/
structure KeepsLink (s t : State) : Prop where
  rbuf : t.rbuf = s.rbuf
  cur : t.cur = s.cur
  cfg : t.cfg = s.cfg
  port : t.port = s.port
  ids : t.chans.map (·.chanId) = s.chans.map (·.chanId)
  link : t.linkState = s.linkState ∨ t.linkState = .failed
  sound : slotsSound s → slotsSound t

theorem KeepsLink.refl (s : State) : KeepsLink s s := ⟨rfl, rfl, rfl, rfl, rfl, .inl rfl, id⟩

theorem KeepsLink.trans {s t u : State} (h : KeepsLink s t) (k : KeepsLink t u) : KeepsLink s u :=
  ⟨k.rbuf.trans h.rbuf, k.cur.trans h.cur, k.cfg.trans h.cfg, k.port.trans h.port, k.ids.trans h.ids, by
    rcases k.link with e | e
    · rw [e]; exact h.link
    · exact .inr e, fun hs => k.sound (h.sound hs)⟩

theorem KeepsLink.length {s t : State} (h : KeepsLink s t) : t.chans.length = s.chans.length := by
  have := congrArg List.length h.ids
  simpa using this

theorem keepsLink_emit (e : Event) (s : State) : KeepsLink s (emit e s) :=
  ⟨rfl, rfl, rfl, rfl, rfl, .inl rfl, fun h => h⟩

theorem keepsLink_fail (s : State) : KeepsLink s { s with linkState := .failed } :=
  ⟨rfl, rfl, rfl, rfl, rfl, .inr rfl, fun h => h⟩

theorem keepsLink_env (s : State) (e : Env) (d : Nat) : KeepsLink s { s with env := e, draws := d } :=
  ⟨rfl, rfl, rfl, rfl, rfl, .inl rfl, fun h => h⟩

theorem keepsLink_afterSinkWrite (str : Bytes) (s : State) : KeepsLink s (afterSinkWrite str s) := by
  refine ⟨by simp, by simp, by simp, by simp, by simp, ?_, fun h => (slotsSound_congr (by simp) (by simp)).mpr h⟩
  rcases sinkWrite_cases str s with h | h
  · exact .inl h.2
  · exact .inr h.2

theorem map_chanId_set {l : List Channel} {i : Nat} {c d : Channel} (h : l[i]? = some c) (hid : d.chanId = c.chanId) :
    (l.set i d).map (·.chanId) = l.map (·.chanId) := by
  apply List.ext_getElem?
  intro j
  by_cases hj : i = j
  · subst hj
    have hlt : i < l.length := (List.getElem?_eq_some_iff.mp h).1
    simp [hlt, hid]
    rw [List.getElem?_eq_getElem hlt] at h
    rw [← Option.some.inj h]
  · simp [List.getElem?_set_ne hj]

/-- Writing a slot with its own ID, sound if it was. -/
theorem keepsLink_setChannel {i : Nat} {c d : Channel} {s : State} (h : s.chans[i]? = some c)
    (hid : d.chanId = c.chanId) (hs : c.sound s.cfg.queueCap i = true → d.sound s.cfg.queueCap i = true) :
    KeepsLink s (setChannel i d s) :=
  ⟨rfl, rfl, rfl, rfl, map_chanId_set h hid, .inl rfl, fun hk => slotsSound_setChannel hk (hs (slotsSound_get hk h))⟩

/-! ### Windows as signed numbers -/

theorem toInt_sub_one {w : Window} (h : 1 ≤ w.toInt) : (w - 1#16).toInt = w.toInt - 1 := by
  rw [BitVec.toInt_sub]
  have h1 : (1#16).toInt = 1 := by decide
  rw [h1]
  have := BitVec.toInt_lt (x := w)
  rw [Int.bmod_eq_of_le] <;> omega

theorem creditWindow_toInt {w : Window} (h : 0 ≤ w.toInt) : 0 ≤ (creditWindow w).toInt := by
  unfold creditWindow
  split
  · exact h
  · rename_i hne
    have hlt := BitVec.toInt_lt (x := w)
    have hne' : w.toInt ≠ 32767 := by
      intro he
      apply hne
      apply BitVec.eq_of_toInt_eq
      rw [he]; decide
    rw [BitVec.toInt_add, show (1#16).toInt = 1 from by decide, Int.bmod_eq_of_le] <;> omega

/-- The exact value of a credit. -/
theorem creditWindow_eq (w : Window) : creditWindow w = if w = 0x7FFF#16 then w else w + 1#16 := rfl

theorem windowClosed_eq {c : Channel} : windowClosed c = true ↔ c.window.toInt < 1 := by simp [windowClosed]

/-! ### `transmit` -/

/-- The window after a frame was sent (R200). -/
def windowAfter (frame : Bytes) (w : Window) : Window := if isFinal (frameFlags frame) then w else w - 1#16

/-- `transmit` of a slot always answers, with the whole next state. -/
theorem transmit_eq {i : Nat} {frame : Bytes} {c : Channel} {s : State} (h : s.chans[i]? = some c) :
    transmit i frame s = .next (statusOfSinkWrite s,
      setChannel i { c with window := windowAfter frame c.window } (afterSinkWrite frame s)) := by
  have hk := drawSink_keeps s
  have hch := congrArg State.chans hk
  have hls := congrArg State.linkState hk
  unfold transmit
  rw [withChannel_some h]
  unfold sinkWrite statusOfSinkWrite windowAfter afterSinkWrite
  rcases hd : drawSink s with ⟨st, s1⟩
  simp only [hd] at hch hls
  by_cases hf : isFinal (frameFlags frame) = true
  · have hself : setChannel i c s1 = s1 := setChannel_self i c s1 (by rw [hch]; exact h)
    have hset : s1.chans.set i c = s1.chans := congrArg State.chans hself
    cases st with
    | ok => simp [hf, sinkStatus, emit, setChannel, hls, hset]
    | fail e => simp [hf, sinkStatus, emit, setChannel, raiseFatal, hset]
  · cases st with
    | ok => simp [hf, sinkStatus, emit, setChannel, hls]
    | fail e => simp [hf, sinkStatus, emit, setChannel, raiseFatal]

/-- Sending a frame that is final or for which the window is open keeps a sound slot sound. -/
theorem sound_windowAfter {cap : Option Nat} {i : Nat} {c : Channel} {frame : Bytes}
    (hw : isFinal (frameFlags frame) = true ∨ 1 ≤ c.window.toInt) (h : c.sound cap i = true) :
    ({ c with window := windowAfter frame c.window } : Channel).sound cap i = true := by
  rw [Channel.sound_iff] at h ⊢
  refine ⟨h.1, ?_, h.2.2.1, h.2.2.2⟩
  show 0 ≤ (windowAfter frame c.window).toInt
  unfold windowAfter
  by_cases hf : isFinal (frameFlags frame) = true
  · simp [hf]; exact h.2.1
  · have h1 : 1 ≤ c.window.toInt := by rcases hw with hw | hw; exacts [absurd hw hf, hw]
    simp only [hf, Bool.false_eq_true, if_false]
    rw [toInt_sub_one h1]; omega

theorem keepsLink_transmit {i : Nat} {frame : Bytes} {c : Channel} {s : State} (h : s.chans[i]? = some c)
    (hw : isFinal (frameFlags frame) = true ∨ 1 ≤ c.window.toInt) :
    KeepsLink s (setChannel i { c with window := windowAfter frame c.window } (afterSinkWrite frame s)) :=
  (keepsLink_afterSinkWrite frame s).trans
    (keepsLink_setChannel (c := c) (by simpa using h) rfl (fun hs => sound_windowAfter hw hs))

/-! ### `drain` -/

/-- The head of the queue may go now (R203). -/
def mayGo (frame : Bytes) (c : Channel) : Prop := isFinal (frameFlags frame) = true ∨ 1 ≤ c.window.toInt

theorem blocked_iff {frame : Bytes} {c : Channel} :
    (!isFinal (frameFlags frame) && windowClosed c) = true ↔ ¬ mayGo frame c := by
  simp [mayGo, windowClosed]

/-- A blocked head ends the drain. -/
theorem drainLoop_blocked {i : Nat} {frame : Bytes} {rest : List Bytes} {c : Channel} {s : State}
    (h : s.chans[i]? = some c) (hb : ¬ mayGo frame c) : drainLoop i (frame :: rest) s = .next (.ok, s) := by
  unfold drainLoop
  rw [withChannel_some h, if_pos (blocked_iff.mpr hb)]

/-- A head that may go is sent. -/
theorem drainLoop_go {i : Nat} {frame : Bytes} {rest : List Bytes} {c : Channel} {s : State}
    (h : s.chans[i]? = some c) (hg : mayGo frame c) :
    drainLoop i (frame :: rest) s =
      if statusOfSinkWrite s = .ok then
        drainLoop i rest (setChannel i { c with queue := rest, window := windowAfter frame c.window }
          (afterSinkWrite frame s))
      else .next (statusOfSinkWrite s, setChannel i { c with queue := rest, window := windowAfter frame c.window }
          (afterSinkWrite frame s)) := by
  have hs1 : (setChannel i { c with queue := rest } s).chans[i]? = some { c with queue := rest } :=
    setChannel_get_same i c _ s h
  have hcomm : setChannel i { c with queue := rest, window := windowAfter frame c.window }
      (afterSinkWrite frame (setChannel i { c with queue := rest } s)) =
      setChannel i { c with queue := rest, window := windowAfter frame c.window } (afterSinkWrite frame s) := by
    unfold afterSinkWrite drawSink setChannel
    simp only
    split <;> simp [emit]
  have hst : statusOfSinkWrite (setChannel i { c with queue := rest } s) = statusOfSinkWrite s := by
    unfold statusOfSinkWrite
    rw [drawSink_fst_congr (s := setChannel i { c with queue := rest } s) (t := s) rfl rfl]
  conv => lhs; unfold drainLoop
  rw [withChannel_some h, if_neg (by rw [blocked_iff]; exact fun hn => hn hg), transmit_eq hs1, andThen_next, hst]
  simp only [hcomm]

/-- `drain` of a slot always answers; it keeps the Link; its queue ends as a rear part of what it was; and either the
status is `OK` and the Link as it was, or the sink has failed and the Link with it. -/
theorem drainLoop_spec {i : Nat} {q : List Bytes} {c : Channel} {s : State} (h : s.chans[i]? = some c)
    (hq : c.queue = q) : ∃ st t sent kept w,
      drainLoop i q s = .next (st, t) ∧ KeepsLink s t ∧ q = sent ++ kept ∧
      t.chans = s.chans.set i { c with queue := kept, window := w } ∧
      ((st = .ok ∧ t.linkState = s.linkState ∧ ∀ head tail, kept = head :: tail →
          ¬ mayGo head { c with queue := kept, window := w }) ∨
        (st = .outputBufferTooSmall ∧ t.linkState = .failed)) := by
  induction q generalizing c s with
  | nil =>
    refine ⟨.ok, s, [], [], c.window, rfl, KeepsLink.refl s, rfl, ?_, .inl ⟨rfl, rfl, by simp⟩⟩
    rw [show ({ c with queue := [], window := c.window } : Channel) = c by cases c; simp_all]
    exact (congrArg State.chans (setChannel_self i c s h)).symm
  | cons frame rest ih =>
    by_cases hg : mayGo frame c
    · rw [drainLoop_go h hg]
      have hk : KeepsLink s (setChannel i { c with queue := rest, window := windowAfter frame c.window }
          (afterSinkWrite frame s)) := by
        refine (keepsLink_afterSinkWrite frame s).trans (keepsLink_setChannel (c := c) (by simpa using h) rfl ?_)
        intro hs
        have h1 := sound_windowAfter hg hs
        rw [Channel.sound_iff] at h1 ⊢
        refine ⟨h1.1, h1.2.1, fun f hf => h1.2.2.1 f (by rw [show _ = c.queue from rfl, hq]; exact .tail _ hf), fun n hn => ?_⟩
        have := h1.2.2.2 n hn
        have hlen : c.queue.length ≤ n := this
        rw [hq] at hlen
        simp at hlen
        show rest.length ≤ n
        omega
      have hget : (setChannel i { c with queue := rest, window := windowAfter frame c.window }
          (afterSinkWrite frame s)).chans[i]? = some { c with queue := rest, window := windowAfter frame c.window } :=
        setChannel_get_same i c _ _ (by simpa using h)
      rcases sinkWrite_cases frame s with ⟨hst, hl⟩ | ⟨hst, hl⟩
      · rw [if_pos hst]
        obtain ⟨st, t, sent, kept, w, he, hkt, hqq, hch, hend⟩ := ih hget rfl
        refine ⟨st, t, frame :: sent, kept, w, he, hk.trans hkt, by simp [hqq], ?_, ?_⟩
        · rw [hch]; simp
        · rcases hend with ⟨h1, h2, h3⟩ | h1
          · exact .inl ⟨h1, h2.trans hl, h3⟩
          · exact .inr h1
      · rw [if_neg (by rw [hst]; decide)]
        exact ⟨_, _, [frame], rest, windowAfter frame c.window, rfl, hk, rfl, by simp, .inr ⟨hst, hl⟩⟩
    · rw [drainLoop_blocked h hg]
      refine ⟨.ok, s, [], frame :: rest, c.window, rfl, KeepsLink.refl s, rfl, ?_, .inl ⟨rfl, rfl, ?_⟩⟩
      · rw [show ({ c with queue := frame :: rest, window := c.window } : Channel) = c by cases c; simp_all]
        exact (congrArg State.chans (setChannel_self i c s h)).symm
      · intro head tail he
        cases he
        exact hg

theorem drain_spec {i : Nat} {c : Channel} {s : State} (h : s.chans[i]? = some c) :
    ∃ st t sent kept w,
      drain i s = .next (st, t) ∧ KeepsLink s t ∧ c.queue = sent ++ kept ∧
      t.chans = s.chans.set i { c with queue := kept, window := w } ∧
      ((st = .ok ∧ t.linkState = s.linkState ∧ ∀ head tail, kept = head :: tail →
          ¬ mayGo head { c with queue := kept, window := w }) ∨
        (st = .outputBufferTooSmall ∧ t.linkState = .failed)) := by
  have := drainLoop_spec h rfl
  unfold drain
  rw [withChannel_some h]
  exact this

/-! ### `write_frame` -/

theorem enqueue_eq_next {i : Nat} {frame : Bytes} {c : Channel} {s : State} {x : Status × State}
    (h : s.chans[i]? = some c) :
    enqueue i frame s = .next x ↔ queueIsFull s.cfg.queueCap c.queue = false ∧
      x = (.ok, setChannel i { c with queue := c.queue ++ [frame] } s) := by
  unfold enqueue
  rw [withChannel_some h]
  cases queueIsFull s.cfg.queueCap c.queue <;> simp [eq_comm]

theorem sound_enqueue {cap : Option Nat} {i : Nat} {c : Channel} {frame : Bytes}
    (hf : frameWf frame = true) (hid : frameId frame = c.chanId) (hq : queueIsFull cap c.queue = false)
    (h : c.sound cap i = true) : ({ c with queue := c.queue ++ [frame] } : Channel).sound cap i = true := by
  rw [Channel.sound_iff] at h ⊢
  refine ⟨h.1, h.2.1, fun f hm => ?_, fun n hn => ?_⟩
  · rcases List.mem_append.mp hm with hm | hm
    · exact h.2.2.1 f hm
    · have : f = frame := by simpa using hm
      subst this; exact ⟨hf, hid⟩
  · subst hn
    simp [queueIsFull] at hq
    show (c.queue ++ [frame]).length ≤ n
    simp; omega

/-- What a submission can answer: it keeps the Link, and its status is `OK` with the Link as it was or
`OutputBufferTooSmall` with the Link failed. -/
theorem submit_next {i : Nat} {frame : Bytes} {c : Channel} {s : State} {st : Status} {t : State}
    (h : s.chans[i]? = some c) (hf : frameWf frame = true) (hid : frameId frame = c.chanId)
    (ht : submit i frame s = .next (st, t)) :
    KeepsLink s t ∧ ((st = .ok ∧ t.linkState = s.linkState) ∨ (st = .outputBufferTooSmall ∧ t.linkState = .failed)) ∧
    ∃ d, t.chans = s.chans.set i d ∧ d.chanId = c.chanId ∧ d.callback = c.callback := by
  obtain ⟨st1, s1, sent, kept, w, hd, hk, hq, hch, hend⟩ := drain_spec h
  unfold submit at ht
  rw [hd, andThen_next] at ht
  rcases hend with ⟨hok, hl, -⟩ | ⟨hbad, hl⟩
  · subst hok
    simp only [ne_eq, not_true, if_false] at ht
    have h1 : s1.chans[i]? = some { c with queue := kept, window := w } := by
      rw [hch]; exact setChannel_get_same i c _ s h
    rw [withChannel_some h1] at ht
    split at ht
    · rename_i hopen
      have hw : mayGo frame { c with queue := kept, window := w } := by
        right
        simp [windowClosed] at hopen
        exact hopen.2
      rw [transmit_eq h1] at ht
      cases ht
      refine ⟨hk.trans (keepsLink_transmit h1 hw), ?_, ?_⟩
      · rcases sinkWrite_cases frame s1 with ⟨h1, h2⟩ | ⟨h1, h2⟩
        · exact .inl ⟨h1, h2.trans hl⟩
        · exact .inr ⟨h1, h2⟩
      · exact ⟨{ c with queue := kept, window := windowAfter frame w }, by simp [hch], rfl, rfl⟩
    · rw [enqueue_eq_next h1] at ht
      obtain ⟨hfull, hx⟩ := ht
      cases hx
      refine ⟨hk.trans (keepsLink_setChannel h1 rfl (sound_enqueue hf (by exact hid) hfull)), .inl ⟨rfl, hl⟩, ?_⟩
      exact ⟨{ c with queue := kept ++ [frame], window := w }, by simp [hch], rfl, rfl⟩
  · subst hbad
    simp at ht
    obtain ⟨rfl, rfl⟩ := ht
    exact ⟨hk, .inr ⟨rfl, hl⟩, ⟨{ c with queue := kept, window := w }, hch, rfl, rfl⟩⟩

/-- The entry checks, then the submission. -/
theorem writeFrameActive_next {i : Nat} {frame : Bytes} {s : State} {st : Status} {t : State}
    (ht : writeFrameActive i frame s = .next (st, t)) :
    (st ≠ .ok ∧ t = s) ∨
    ∃ c, s.chans[i]? = some c ∧ frameWf frame = true ∧ frameId frame = c.chanId ∧ submit i frame s = .next (st, t) := by
  unfold writeFrameActive at ht
  split at ht
  · cases ht; exact .inl ⟨by decide, rfl⟩
  · split at ht
    · cases ht; exact .inl ⟨by decide, rfl⟩
    · split at ht
      · cases ht; exact .inl ⟨by decide, rfl⟩
      · rename_i h4 hbig hlen
        rw [withChannel_eq_next] at ht
        obtain ⟨c, hc, ht⟩ := ht
        split at ht
        · cases ht; exact .inl ⟨by decide, rfl⟩
        · rename_i hid
          refine .inr ⟨c, hc, ?_, by simpa using hid, ht⟩
          simp [frameWf]; omega

/-- For a well-formed frame of the channel's own ID nothing stands before the submission. -/
theorem writeFrameActive_eq_submit {i : Nat} {frame : Bytes} {c : Channel} {s : State} (h : s.chans[i]? = some c)
    (hf : frameWf frame = true) (hid : frameId frame = c.chanId) : writeFrameActive i frame s = submit i frame s := by
  simp [frameWf] at hf
  unfold writeFrameActive
  rw [if_neg (by omega), if_neg (by omega), if_neg (by simpa using hf.1.2), withChannel_some h, if_neg (by simpa using hid)]

/-- The same of `exec`. -/
theorem exec_writeFrame_active {i : Nat} {frame : Bytes} {c : Channel} {s : State} (ha : s.linkState = .active)
    (h : s.chans[i]? = some c) (hf : frameWf frame = true) (hid : frameId frame = c.chanId) :
    exec (.writeFrame i frame) s = returns .status (submit i frame s) := by
  show returns _ (writeFrame i frame s) = _
  unfold writeFrame
  rw [whenActive_active ha, writeFrameActive_eq_submit h hf hid]

/-- What `write_frame` can answer. -/
theorem writeFrame_next {i : Nat} {frame : Bytes} {s : State} {st : Status} {t : State}
    (ht : writeFrame i frame s = .next (st, t)) : KeepsLink s t ∧ (s.linkState ≠ .active → t = s) := by
  unfold writeFrame at ht
  rcases whenActive_eq_next.mp ht with ⟨ha, ht⟩ | ⟨hi, ht⟩
  · refine ⟨?_, fun hn => absurd ha hn⟩
    rcases writeFrameActive_next ht with ⟨-, rfl⟩ | ⟨c, hc, hf, hid, hs⟩
    · exact KeepsLink.refl _
    · exact (submit_next hc hf hid hs).1
  · cases ht; exact ⟨KeepsLink.refl _, fun _ => rfl⟩

/-- What raw `write` can answer. -/
theorem write_next {str : Bytes} {s : State} {st : Status} {t : State} (ht : write str s = .next (st, t)) :
    KeepsLink s t ∧ (s.linkState ≠ .active → t = s) := by
  unfold write at ht
  rcases whenActive_eq_next.mp ht with ⟨ha, ht⟩ | ⟨hi, ht⟩
  · replace ht : sinkStatus (sinkWrite str s).1 (sinkWrite str s).2 = _ := ht
    rw [sinkStatus_sinkWrite] at ht
    cases ht
    exact ⟨keepsLink_afterSinkWrite str s, fun hn => absurd ha hn⟩
  · cases ht; exact ⟨KeepsLink.refl _, fun _ => rfl⟩

/-- What registering a callback can answer. -/
theorem registerCallback_next {i : Nat} {cb : Option Word64} {s : State} {u : Unit} {t : State}
    (ht : registerCallback i cb s = .next (u, t)) : KeepsLink s t ∧ t.linkState = s.linkState := by
  unfold registerCallback at ht
  obtain ⟨c, hc, ht⟩ := withChannel_eq_next.mp ht
  cases ht
  refine ⟨keepsLink_setChannel hc rfl (fun hs => ?_), rfl⟩
  rw [Channel.sound_iff] at hs ⊢
  exact hs

end Sys2Proof.Machine
end

