-- ==== Sys2Proof/Laws/Decode.lean ====
section
/-! SUPPORT. The readers and writers of the operand layout: each reader takes back what its writer wrote, and accepts
nothing else. -/

namespace Sys2Proof

/-- A reader takes back every value that satisfies `p` from its written form. -/
def Reads {α : Type} (read : Reader α) (write : α → Bytes) (p : α → Bool) : Prop :=
  ∀ v rest, p v = true → read (write v ++ rest) = .ok (v, rest)

/-- What a reader accepts is a written value that satisfies `p`, and then the rest. -/
def Accepts {α : Type} (read : Reader α) (write : α → Bytes) (p : α → Bool) : Prop :=
  ∀ str v rest, read str = .ok (v, rest) → p v = true ∧ str = write v ++ rest

/-! ### Big-endian numbers -/

theorem writeBig_length (n v : Nat) : (writeBig n v).length = n := by
  induction n with
  | zero => rfl
  | succ n ih => simp [writeBig, ih]

theorem readBig_writeBig (n acc v : Nat) (rest : Bytes) :
    readBig n acc (writeBig n v ++ rest) = .ok (acc * 256 ^ n + v % 256 ^ n, rest) := by
  induction n generalizing acc with
  | zero => simp [readBig, writeBig, Nat.mod_one]
  | succ n ih =>
    simp only [writeBig, List.cons_append, readBig, ih, BitVec.toNat_ofNat]
    congr 2
    have h8 : v / 256 ^ n % 2 ^ 8 = v / 256 ^ n % 256 := rfl
    have hacc : acc * 256 * 256 ^ n = acc * 256 ^ (n + 1) := by rw [Nat.pow_succ, Nat.mul_assoc, Nat.mul_comm 256]
    have hmod : v % 256 ^ (n + 1) = v % 256 ^ n + 256 ^ n * (v / 256 ^ n % 256) := by
      rw [Nat.pow_succ, Nat.mod_mul]
    rw [h8, hmod, Nat.add_mul, hacc, Nat.mul_comm (v / 256 ^ n % 256)]
    omega

theorem readBig_accepts {n acc : Nat} {str : Bytes} {v : Nat} {rest : Bytes}
    (h : readBig n acc str = .ok (v, rest)) :
    ∃ w, w < 256 ^ n ∧ v = acc * 256 ^ n + w ∧ str = writeBig n w ++ rest := by
  induction n generalizing acc str with
  | zero => simp [readBig] at h; exact ⟨0, by simp, by simp [h.1], by simp [writeBig, h.2]⟩
  | succ n ih =>
    cases str with
    | nil => simp [readBig] at h
    | cons b tail =>
      simp only [readBig] at h
      obtain ⟨w, hw, hv, hs⟩ := ih h
      have hb := b.isLt
      have hpos : 0 < 256 ^ n := Nat.pow_pos (by omega)
      refine ⟨b.toNat * 256 ^ n + w, ?_, ?_, ?_⟩
      · rw [Nat.pow_succ]
        calc b.toNat * 256 ^ n + w < b.toNat * 256 ^ n + 256 ^ n := by omega
          _ = (b.toNat + 1) * 256 ^ n := by rw [Nat.add_mul, Nat.one_mul]
          _ ≤ 256 * 256 ^ n := Nat.mul_le_mul_right _ (by omega)
          _ = 256 ^ n * 256 := Nat.mul_comm _ _
      · rw [hv, Nat.add_mul, Nat.pow_succ, Nat.mul_assoc, Nat.mul_comm 256 (256 ^ n)]; omega
      · rw [writeBig, hs]
        have hdiv : (b.toNat * 256 ^ n + w) / 256 ^ n = b.toNat := by
          rw [Nat.mul_comm, Nat.mul_add_div hpos, Nat.div_eq_of_lt hw]; omega
        have hlow : writeBig n (b.toNat * 256 ^ n + w) = writeBig n w := by
          have hgen : ∀ k, k ≤ n → writeBig k (b.toNat * 256 ^ n + w) = writeBig k w := by
            intro k hk
            induction k with
            | zero => rfl
            | succ k ihk =>
              simp only [writeBig]
              rw [ihk (by omega)]
              congr 1
              apply BitVec.eq_of_toNat_eq
              simp only [BitVec.toNat_ofNat]
              have hsplit : 256 ^ n = 256 ^ k * (256 * 256 ^ (n - k - 1)) := by
                rw [← Nat.mul_assoc, ← Nat.pow_succ, ← Nat.pow_add]; congr 1; omega
              rw [hsplit, ← Nat.mul_assoc, Nat.mul_comm b.toNat, Nat.mul_assoc,
                Nat.mul_add_div (Nat.pow_pos (by omega)), ← Nat.mul_assoc, Nat.mul_comm b.toNat 256, Nat.mul_assoc]
              omega
          exact hgen n (Nat.le_refl n)
        rw [hdiv, hlow]
        simp

/-! ### The readers -/

theorem readNat_reads : Reads readNat writeNat fits32 := by
  intro v rest h
  simp only [fits32, decide_eq_true_eq] at h
  simp only [readNat, writeNat, readBig_writeBig]
  congr 2
  rw [Nat.mod_eq_of_lt (by simpa using h)]; omega

theorem readNat_accepts : Accepts readNat writeNat fits32 := by
  intro str v rest h
  obtain ⟨w, hw, hv, hs⟩ := readBig_accepts h
  have : v = w := by omega
  subst this
  exact ⟨by simpa [fits32] using hw, hs⟩

theorem readWord64_reads : Reads readWord64 writeWord64 (fun _ => true) := by
  intro v rest _
  simp only [readWord64, writeWord64, readBig_writeBig]
  have hv := v.isLt
  congr 2
  apply BitVec.eq_of_toNat_eq
  simp; omega

theorem readWord64_accepts : Accepts readWord64 writeWord64 (fun _ => true) := by
  intro str v rest h
  unfold readWord64 at h
  split at h
  · cases h
  · rename_i w r hw
    cases h
    obtain ⟨x, hx, hv, hs⟩ := readBig_accepts hw
    refine ⟨rfl, ?_⟩
    rw [hs, writeWord64]
    congr 2
    simp at hx ⊢; omega

theorem readSize_reads : Reads readSize writeSize (fun _ => true) := by
  intro v rest _
  simp only [readSize, writeSize, readBig_writeBig]
  have hv := v.isLt
  congr 2
  apply BitVec.eq_of_toNat_eq
  simp; omega

theorem readSize_accepts : Accepts readSize writeSize (fun _ => true) := by
  intro str v rest h
  unfold readSize at h
  split at h
  · cases h
  · rename_i w r hw
    cases h
    obtain ⟨x, hx, hv, hs⟩ := readBig_accepts hw
    refine ⟨rfl, ?_⟩
    rw [hs, writeSize]
    congr 2
    simp at hx ⊢; omega

theorem readCid_reads : Reads readCid writeCid (fun _ => true) := by
  intro v rest _
  have hv := v.isLt
  simp only [readCid, writeCid, readBig_writeBig]
  rw [if_pos (by omega)]
  congr 2
  apply BitVec.eq_of_toNat_eq
  simp; omega

theorem readCid_accepts : Accepts readCid writeCid (fun _ => true) := by
  intro str v rest h
  unfold readCid at h
  split at h
  · cases h
  · rename_i w r hw
    split at h
    · rename_i hlt
      cases h
      obtain ⟨x, hx, hv, hs⟩ := readBig_accepts hw
      refine ⟨rfl, ?_⟩
      rw [hs, writeCid]
      congr 2
      simp at hlt ⊢; omega
    · cases h

theorem readFlags_reads : Reads readFlags writeFlags (fun _ => true) := by
  rintro ⟨_ | _, _ | _, _ | _⟩ rest _ <;> rfl

theorem toByte_ofByte (b : Byte) (h : b &&& 0x1F#8 = 0#8) : (Flags.ofByte b).toByte = b := by
  revert b
  decide

theorem readFlags_accepts : Accepts readFlags writeFlags (fun _ => true) := by
  intro str v rest h
  cases str with
  | nil => cases h
  | cons b tail =>
    simp only [readFlags] at h
    split at h
    · rename_i hz
      cases h
      exact ⟨rfl, by simp [writeFlags, toByte_ofByte b hz]⟩
    · cases h

theorem readBool_reads : Reads readBool writeBool (fun _ => true) := by
  rintro (_ | _) rest _ <;> rfl

theorem readBool_accepts : Accepts readBool writeBool (fun _ => true) := by
  intro str v rest h
  cases str with
  | nil => cases h
  | cons b tail =>
    simp only [readBool] at h
    split at h
    · rename_i hz; cases h; exact ⟨rfl, by simp [writeBool, hz]⟩
    · split at h
      · rename_i hz; cases h; exact ⟨rfl, by simp [writeBool, hz]⟩
      · cases h

theorem readString_reads : Reads readString writeString (fun str => fits32 str.length) := by
  intro v rest h
  have := readNat_reads v.length (v ++ rest) h
  simp [readString, writeString, List.append_assoc, this]

theorem readString_accepts : Accepts readString writeString (fun str => fits32 str.length) := by
  intro str v rest h
  unfold readString at h
  split at h
  · cases h
  · rename_i n r hn
    split at h
    · rename_i hle
      cases h
      obtain ⟨h1, h2⟩ := readNat_accepts _ _ _ hn
      have hl : (r.take n).length = n := by simp; omega
      refine ⟨by simpa [hl] using h1, ?_⟩
      rw [writeString, hl, h2, List.append_assoc, List.take_append_drop]
    · cases h

theorem readRest_eq (str : Bytes) : readRest str = .ok (str, []) := rfl

theorem readRest_accepts : Accepts readRest (fun str => str) (fun _ => true) := by
  intro str v rest h
  cases h
  exact ⟨rfl, (List.append_nil str).symm⟩

theorem readOption_reads {α : Type} {read : Reader α} {write : α → Bytes} {p : α → Bool} (h : Reads read write p) :
    Reads (readOption read) (writeOption write) (fun o => (o.map p).getD true) := by
  intro v rest hv
  cases v with
  | none => rfl
  | some v =>
    have h1 := readBool_reads true (write v ++ rest) rfl
    have h2 := h v rest (by simpa using hv)
    simp [readOption, writeOption, List.append_assoc, h1, h2]

theorem readOption_accepts {α : Type} {read : Reader α} {write : α → Bytes} {p : α → Bool}
    (h : Accepts read write p) : Accepts (readOption read) (writeOption write) (fun o => (o.map p).getD true) := by
  intro str v rest hr
  unfold readOption at hr
  split at hr
  · cases hr
  · rename_i hb
    cases hr
    exact ⟨rfl, (readBool_accepts _ _ _ hb).2⟩
  · rename_i r hb
    split at hr
    · cases hr
    · rename_i w r' hw
      cases hr
      obtain ⟨h1, h2⟩ := h _ _ _ hw
      exact ⟨by simpa using h1, by rw [(readBool_accepts _ _ _ hb).2, h2]; simp [writeOption]⟩

theorem readInput_reads : Reads readInput writeInput (fun o => (o.map fun str => fits32 str.length).getD true) := by
  intro v rest hv
  cases v with
  | none => rfl
  | some v =>
    have h1 := readBool_reads false (writeString v ++ rest) rfl
    have h2 := readString_reads v rest (by simpa using hv)
    simp [readInput, writeInput, List.append_assoc, h1, h2]

theorem readInput_accepts :
    Accepts readInput writeInput (fun o => (o.map fun str => fits32 str.length).getD true) := by
  intro str v rest hr
  unfold readInput at hr
  split at hr
  · cases hr
  · rename_i hb
    cases hr
    exact ⟨rfl, (readBool_accepts _ _ _ hb).2⟩
  · rename_i r hb
    split at hr
    · cases hr
    · rename_i w r' hw
      cases hr
      obtain ⟨h1, h2⟩ := readString_accepts _ _ _ hw
      exact ⟨by simpa using h1, by rw [(readBool_accepts _ _ _ hb).2, h2]; simp [writeInput]⟩

/-- The operand checks of `init`. -/
def configFits (c : LinkConfig) : Bool :=
  fits32 c.nChannels && fits32 c.wMax && (c.queueCap.map fits32).getD true

theorem readConfig_reads : Reads readConfig writeConfig configFits := by
  intro v rest hv
  simp only [configFits, Bool.and_eq_true] at hv
  have h1 := readNat_reads v.nChannels (writeNat v.wMax ++ (writeOption writeNat v.queueCap ++
    (writeBool v.sink ++ (writeBool v.channelInit ++ rest)))) hv.1.1
  have h2 := readNat_reads v.wMax (writeOption writeNat v.queueCap ++
    (writeBool v.sink ++ (writeBool v.channelInit ++ rest))) hv.1.2
  have h3 := readOption_reads readNat_reads v.queueCap (writeBool v.sink ++ (writeBool v.channelInit ++ rest)) hv.2
  have h4 := readBool_reads v.sink (writeBool v.channelInit ++ rest) rfl
  have h5 := readBool_reads v.channelInit rest rfl
  simp only [readConfig, writeConfig, List.append_assoc, h1, h2, h3, h4, h5, bind, Except.bind]

theorem readConfig_accepts : Accepts readConfig writeConfig configFits := by
  intro str v rest h
  unfold readConfig at h
  simp only [bind, Except.bind] at h
  split at h
  · cases h
  rename_i p1 h1
  split at h
  · cases h
  rename_i p2 h2
  split at h
  · cases h
  rename_i p3 h3
  split at h
  · cases h
  rename_i p4 h4
  split at h
  · cases h
  rename_i p5 h5
  cases h
  obtain ⟨a1, b1⟩ := readNat_accepts _ _ _ h1
  obtain ⟨a2, b2⟩ := readNat_accepts _ _ _ h2
  obtain ⟨a3, b3⟩ := readOption_accepts readNat_accepts _ _ _ h3
  obtain ⟨-, b4⟩ := readBool_accepts _ _ _ h4
  obtain ⟨-, b5⟩ := readBool_accepts _ _ _ h5
  refine ⟨by simp [configFits, a1, a2, a3], ?_⟩
  rw [b1, b2, b3, b4, b5]
  simp [writeConfig]

end Sys2Proof
end

