-- ==== Sys2Proof/Laws/Memory.lean ====
section
/-! SUPPORT. The laws of the reassembly buffer: read after write, and the canonical form. -/

namespace Sys2Proof.Machine

/-- A read after a write to the same address gives the value written. -/
@[simp] theorem Memory.read_write_same (m : List Host.Cell) (a : Nat) (v : Byte) :
    Memory.read (Memory.write m a v) a = some v := by
  induction m with
  | nil => simp [Memory.write, Memory.read]
  | cons c rest ih =>
    obtain ⟨x, b⟩ := c
    unfold Memory.write
    split
    · simp [Memory.read]
    · split
      · simp [Memory.read]
      · have hx : ¬ x = a := by omega
        simp [Memory.read, hx, ih]

/-- A write leaves every other address alone. -/
theorem Memory.read_write_other (m : List Host.Cell) (a x : Nat) (v : Byte) (h : x ≠ a) :
    Memory.read (Memory.write m a v) x = Memory.read m x := by
  induction m with
  | nil => simp [Memory.write, Memory.read, Ne.symm h]
  | cons c rest ih =>
    obtain ⟨y, b⟩ := c
    unfold Memory.write
    split
    · simp [Memory.read, Ne.symm h]
    · split
      · rename_i h1 h2
        subst h2
        simp [Memory.read, Ne.symm h]
      · simp [Memory.read, ih]

theorem Memory.risingFrom_mono {lo lo' : Nat} {m : List Host.Cell} (h : Memory.risingFrom lo m = true)
    (hle : lo' ≤ lo) : Memory.risingFrom lo' m = true := by
  cases m with
  | nil => rfl
  | cons c rest =>
    simp only [Memory.risingFrom, Bool.and_eq_true, decide_eq_true_eq] at h ⊢
    exact ⟨by omega, h.2⟩

theorem Memory.risingFrom_write {lo : Nat} {m : List Host.Cell} (a : Nat) (v : Byte)
    (h : Memory.risingFrom lo m = true) (hlo : lo ≤ a) : Memory.risingFrom lo (Memory.write m a v) = true := by
  induction m generalizing lo with
  | nil => simp [Memory.write, Memory.risingFrom, hlo]
  | cons c rest ih =>
    obtain ⟨x, b⟩ := c
    simp only [Memory.risingFrom, Bool.and_eq_true, decide_eq_true_eq] at h
    unfold Memory.write
    split
    · simp only [Memory.risingFrom, Bool.and_eq_true, decide_eq_true_eq]
      exact ⟨hlo, by omega, h.2⟩
    · split
      · rename_i hx
        subst hx
        simp only [Memory.risingFrom, Bool.and_eq_true, decide_eq_true_eq]
        exact ⟨hlo, h.2⟩
      · simp only [Memory.risingFrom, Bool.and_eq_true, decide_eq_true_eq]
        exact ⟨h.1, ih h.2 (by omega)⟩

theorem Memory.mem_write {m : List Host.Cell} {a : Nat} {v : Byte} {c : Host.Cell} (h : c ∈ Memory.write m a v) :
    c = (a, v) ∨ c ∈ m := by
  induction m with
  | nil => simpa [Memory.write] using h
  | cons d rest ih =>
    obtain ⟨x, b⟩ := d
    unfold Memory.write at h
    split at h
    · simpa using h
    · split at h
      · rcases List.mem_cons.mp h with h | h
        · exact .inl h
        · exact .inr (List.mem_cons_of_mem _ h)
      · rcases List.mem_cons.mp h with h | h
        · exact .inr (by simp [h])
        · rcases ih h with h | h
          · exact .inl h
          · exact .inr (List.mem_cons_of_mem _ h)

/-- A write inside the buffer keeps the canonical form. -/
theorem Memory.write_wf {m : List Host.Cell} {a : Nat} (v : Byte) (h : Memory.wf m = true) (ha : a < maxFrame) :
    Memory.wf (Memory.write m a v) = true := by
  simp only [Memory.wf, Bool.and_eq_true, List.all_eq_true, decide_eq_true_eq] at h ⊢
  refine ⟨Memory.risingFrom_write a v h.1 (Nat.zero_le _), fun c hc => ?_⟩
  rcases Memory.mem_write hc with rfl | hc
  · exact ha
  · exact h.2 c hc

/-- The reset buffer has the canonical form. -/
theorem Memory.reset_wf : Memory.wf State.reset.rbuf = true := rfl

/-- A range read gives exactly as many bytes as were asked for. -/
theorem Memory.readRange_length {m : List Host.Cell} {a n : Nat} {str : Bytes}
    (h : Memory.readRange m a n = some str) : str.length = n := by
  induction n generalizing a str with
  | zero => simp [Memory.readRange] at h; simp [h]
  | succ n ih =>
    simp only [Memory.readRange] at h
    split at h
    · rename_i b rest _ hr
      cases h
      simp [ih hr]
    · cases h

/-- A range read in terms of single bytes. -/
theorem Memory.readRange_iff {m : List Host.Cell} {a n : Nat} {str : Bytes} :
    Memory.readRange m a n = some str ↔ str.length = n ∧ ∀ k, (hk : k < str.length) →
      Memory.read m (a + k) = some str[k] := by
  induction n generalizing a str with
  | zero =>
    constructor
    · intro h; simp [Memory.readRange] at h; subst h; simp
    · rintro ⟨h, -⟩; simp [List.length_eq_zero_iff.mp h, Memory.readRange]
  | succ n ih =>
    constructor
    · intro h
      simp only [Memory.readRange] at h
      split at h
      · rename_i b rest hb hr
        cases h
        obtain ⟨hl, hk⟩ := ih.mp hr
        refine ⟨by simp [hl], fun k hk' => ?_⟩
        cases k with
        | zero => simpa using hb
        | succ k =>
          have := hk k (by simpa using hk')
          simpa [Nat.add_assoc, Nat.add_comm 1 k] using this
      · cases h
    · rintro ⟨hl, hk⟩
      cases str with
      | nil => simp at hl
      | cons b rest =>
        have h0 : Memory.read m a = some b := hk 0 (by simp)
        have hr : Memory.readRange m (a + 1) n = some rest := by
          refine ih.mpr ⟨by simpa using hl, fun k hk' => ?_⟩
          have := hk (k + 1) (by simpa using hk')
          simpa [Nat.add_assoc, Nat.add_comm 1 k] using this
        simp [Memory.readRange, h0, hr]

/-- A write outside a range does not change what the range reads as. -/
theorem Memory.readRange_write_outside {m : List Host.Cell} {a n x : Nat} (v : Byte) (h : x < a ∨ a + n ≤ x) :
    Memory.readRange (Memory.write m x v) a n = Memory.readRange m a n := by
  induction n generalizing a with
  | zero => rfl
  | succ n ih =>
    simp only [Memory.readRange]
    rw [Memory.read_write_other m x a v (by omega), ih (by omega)]

/-- A range read grows by the byte behind it. -/
theorem Memory.readRange_snoc {m : List Host.Cell} {a n : Nat} {str : Bytes} {b : Byte}
    (h : Memory.readRange m a n = some str) (hb : Memory.read m (a + n) = some b) :
    Memory.readRange m a (n + 1) = some (str ++ [b]) := by
  obtain ⟨hl, hk⟩ := Memory.readRange_iff.mp h
  refine Memory.readRange_iff.mpr ⟨by simp [hl], fun k hk' => ?_⟩
  by_cases hkn : k < str.length
  · rw [List.getElem_append_left hkn]; exact hk k hkn
  · have : k = str.length := by simp at hk'; omega
    subst this
    simpa [hl] using hb

/-- A shorter range read is the front of a longer one. -/
theorem Memory.readRange_take {m : List Host.Cell} {a n : Nat} {str : Bytes} (k : Nat)
    (h : Memory.readRange m a n = some str) (hk : k ≤ n) : Memory.readRange m a k = some (str.take k) := by
  obtain ⟨hl, hb⟩ := Memory.readRange_iff.mp h
  refine Memory.readRange_iff.mpr ⟨by simp; omega, fun j hj => ?_⟩
  have hj' : j < str.length := by simp at hj; omega
  simpa using hb j hj'

end Sys2Proof.Machine
end

