-- ==== Sys2Proof/Laws/Receive.lean ====
section
/-! SUPPORT. The receive side: what `process_frame` and `route` can do, what storing bytes does, and one round of the
reassembler, said once. -/

namespace Sys2Proof.Machine

/-! ### Storing bytes -/

@[simp] theorem stored_nil (s : State) : stored [] s = s := rfl
@[simp] theorem stored_cons (b : Byte) (rest : Bytes) (s : State) :
    stored (b :: rest) s = stored rest (storeByte b s) := rfl

theorem stored_append (x y : Bytes) (s : State) : stored (x ++ y) s = stored y (stored x s) := by
  simp [stored, List.foldl_append]

@[simp] theorem stored_cur (x : Bytes) (s : State) : (stored x s).cur = s.cur + x.length := by
  induction x generalizing s with
  | nil => rfl
  | cons b rest ih => simp [ih]; omega

/-- Storing bytes touches `RBUF` and `CUR` only. -/
theorem stored_keeps (x : Bytes) (s : State) :
    stored x s = { s with rbuf := (stored x s).rbuf, cur := (stored x s).cur } := by
  induction x generalizing s with
  | nil => rfl
  | cons b rest ih => rw [stored_cons, ih]; rfl

@[simp] theorem stored_linkState (x : Bytes) (s : State) : (stored x s).linkState = s.linkState := by
  rw [stored_keeps]
@[simp] theorem stored_chans (x : Bytes) (s : State) : (stored x s).chans = s.chans := by rw [stored_keeps]
@[simp] theorem stored_cfg (x : Bytes) (s : State) : (stored x s).cfg = s.cfg := by rw [stored_keeps]
@[simp] theorem stored_port (x : Bytes) (s : State) : (stored x s).port = s.port := by rw [stored_keeps]
@[simp] theorem stored_env (x : Bytes) (s : State) : (stored x s).env = s.env := by rw [stored_keeps]
@[simp] theorem stored_draws (x : Bytes) (s : State) : (stored x s).draws = s.draws := by rw [stored_keeps]
@[simp] theorem stored_trace (x : Bytes) (s : State) : (stored x s).trace = s.trace := by rw [stored_keeps]

/-- Every byte outside the stored ones reads as before. -/
theorem stored_read_other {x : Bytes} {s : State} {a : Nat} (h : a < s.cur ∨ s.cur + x.length ≤ a) :
    Memory.read (stored x s).rbuf a = Memory.read s.rbuf a := by
  induction x generalizing s with
  | nil => rfl
  | cons b rest ih =>
    rw [stored_cons, ih (by simp at h ⊢; omega), storeByte_rbuf, Memory.read_write_other _ _ _ _ (by simp at h; omega)]

/-- The stored bytes read back. -/
theorem stored_read {x : Bytes} {s : State} {k : Nat} (hk : k < x.length) :
    Memory.read (stored x s).rbuf (s.cur + k) = some x[k] := by
  induction x generalizing s k with
  | nil => simp at hk
  | cons b rest ih =>
    rw [stored_cons]
    cases k with
    | zero =>
      rw [stored_read_other (by simp)]
      simp
    | succ k =>
      have := ih (s := storeByte b s) (k := k) (by simpa using hk)
      simpa [Nat.add_assoc, Nat.add_comm 1 k] using this

/-- A range in front of the cursor is not touched. -/
theorem stored_readRange_before {x : Bytes} {s : State} {a n : Nat} (h : a + n ≤ s.cur) :
    Memory.readRange (stored x s).rbuf a n = Memory.readRange s.rbuf a n := by
  induction x generalizing s with
  | nil => rfl
  | cons b rest ih =>
    rw [stored_cons, ih (by simp; omega), storeByte_rbuf, Memory.readRange_write_outside _ (by omega)]

/-- What was in front of the cursor, and then the stored bytes. -/
theorem stored_readRange {x front : Bytes} {s : State} (h : Memory.readRange s.rbuf 0 s.cur = some front) :
    Memory.readRange (stored x s).rbuf 0 (s.cur + x.length) = some (front ++ x) := by
  obtain ⟨hl, hk⟩ := Memory.readRange_iff.mp h
  refine Memory.readRange_iff.mpr ⟨by simp [hl], fun k hk' => ?_⟩
  by_cases hf : k < front.length
  · rw [List.getElem_append_left hf, stored_read_other (by left; omega)]
    exact hk k hf
  · have := stored_read (x := x) (s := s) (k := k - front.length) (by simp at hk'; omega)
    rw [List.getElem_append_right (by omega), ← this]
    congr 1
    omega

/-- From a frame boundary, the stored bytes alone. -/
theorem stored_readRange_boundary {x : Bytes} {s : State} (h : s.cur = 0) :
    Memory.readRange (stored x s).rbuf 0 x.length = some x := by
  have := stored_readRange (x := x) (s := s) (front := []) (by rw [h]; rfl)
  simpa [h] using this

/-- Storing inside the buffer keeps the canonical form. -/
theorem stored_wf {x : Bytes} {s : State} (h : Memory.wf s.rbuf = true) (hc : s.cur + x.length ≤ maxFrame) :
    Memory.wf (stored x s).rbuf = true := by
  induction x generalizing s with
  | nil => exact h
  | cons b rest ih =>
    simp only [List.length_cons] at hc
    rw [stored_cons]
    exact ih (by rw [storeByte_rbuf]; exact Memory.write_wf b h (by omega)) (by simp; omega)

/-- Storing keeps `RBUF[0..CUR)` written. -/
theorem stored_filled {x : Bytes} {s : State} (h : bufferFilled s.rbuf s.cur = true) :
    bufferFilled (stored x s).rbuf (stored x s).cur = true := by
  obtain ⟨front, hf⟩ := Option.isSome_iff_exists.mp h
  rw [stored_cur]
  exact Option.isSome_iff_exists.mpr ⟨_, stored_readRange hf⟩

/-- A filled buffer reads in every shorter range from 0. -/
theorem filled_readRange {m : List Host.Cell} {n k : Nat} (h : bufferFilled m n = true) (hk : k ≤ n) :
    ∃ str, Memory.readRange m 0 k = some str ∧ str.length = k := by
  obtain ⟨front, hf⟩ := Option.isSome_iff_exists.mp h
  have := Memory.readRange_take k hf hk
  exact ⟨_, this, Memory.readRange_length this⟩

/-- `fill` stores as many bytes as the bound lets it. -/
theorem fill_eq (t : Nat) (x : Bytes) (s : State) :
    fill t x s = (x.drop (t - s.cur), stored (x.take (t - s.cur)) s) := by
  induction x generalizing s with
  | nil => simp [fill]
  | cons b rest ih =>
    unfold fill
    split
    · rename_i h
      rw [ih, storeByte_cur, show t - s.cur = (t - (s.cur + 1)) + 1 by omega]
      simp
    · rename_i h
      simp [show t - s.cur = 0 by omega]

/-! ### A string that began to arrive earlier -/

/-- At a frame boundary a string is about to arrive. -/
theorem arrivedFront_boundary {str : Bytes} {s : State} (hc : s.cur = 0) (hs : str ≠ []) : arrivedFront str s :=
  ⟨by rw [hc]; exact List.length_pos_iff.mpr hs, by rw [hc]; rfl⟩

/-- Once the rest of it is stored, the whole string stands in `RBUF`. -/
theorem arrivedFront_readRange {str : Bytes} {s : State} (h : arrivedFront str s) :
    Memory.readRange (stored (str.drop s.cur) s).rbuf 0 str.length = some str := by
  have := stored_readRange (x := str.drop s.cur) h.2
  rwa [List.take_append_drop, List.length_drop, Nat.add_sub_cancel' (Nat.le_of_lt h.1)] at this

/-! ### `process_frame` and `route` -/

theorem keepsLink_returnsPure {r : Ret} {s t : State} (h : returnsPure r s = .next t) : KeepsLink s t := by
  cases h
  exact keepsLink_emit _ _

/-- A callback that invokes `x` and then `y`. -/
theorem runInCallback_append (x y : List Instr) (s : State) :
    runInCallback (x ++ y) s = andThen (runInCallback x s) fun _ t => runInCallback y t := by
  induction x generalizing s with
  | nil => rfl
  | cons i rest ih =>
    simp only [List.cons_append, runInCallback]
    cases execInCallback i s with
    | next t => exact ih t
    | fault e => rfl
    | refused e => rfl

/-- An operation inside a callback keeps the Link. -/
theorem execInCallback_next {i : Instr} {s t : State} (h : execInCallback i s = .next t) : KeepsLink s t := by
  cases i <;> simp only [execInCallback, reduceCtorEq] at h
  case writeFrame j frame =>
    obtain ⟨v, u, hr, rfl⟩ := returns_eq_next.mp h
    exact (writeFrame_next hr).1.trans (keepsLink_emit _ _)
  case write str =>
    obtain ⟨v, u, hr, rfl⟩ := returns_eq_next.mp h
    exact (write_next hr).1.trans (keepsLink_emit _ _)
  case getChannel k =>
    obtain ⟨v, u, hr, rfl⟩ := returns_eq_next.mp h
    obtain ⟨-, hr⟩ := whenConstructed_eq_next.mp hr
    cases hr
    exact keepsLink_emit _ _
  case id j =>
    obtain ⟨v, u, hr, rfl⟩ := returns_eq_next.mp h
    obtain ⟨-, hr⟩ := whenConstructed_eq_next.mp hr
    obtain ⟨c, -, hr⟩ := withChannel_eq_next.mp hr
    cases hr
    exact keepsLink_emit _ _
  case sendWindow j =>
    obtain ⟨v, u, hr, rfl⟩ := returns_eq_next.mp h
    obtain ⟨-, hr⟩ := whenConstructed_eq_next.mp hr
    obtain ⟨c, -, hr⟩ := withChannel_eq_next.mp hr
    cases hr
    exact keepsLink_emit _ _
  case setCallback j cb =>
    obtain ⟨v, u, hr, rfl⟩ := returns_eq_next.mp h
    obtain ⟨-, hr⟩ := whenConstructed_eq_next.mp hr
    exact (registerCallback_next hr).1.trans (keepsLink_emit _ _)
  all_goals exact keepsLink_returnsPure h

/-- So do all of them together. -/
theorem runInCallback_next {calls : List Instr} {s : State} {u : Unit} {t : State}
    (h : runInCallback calls s = .next (u, t)) : KeepsLink s t := by
  induction calls generalizing s with
  | nil => cases h; exact KeepsLink.refl _
  | cons i rest ih =>
    unfold runInCallback at h
    split at h
    · rename_i s1 h1
      exact (execInCallback_next h1).trans (ih h)
    · cases h
    · cases h

theorem keepsLink_drawCallback (s : State) : KeepsLink s (drawCallback s).2 := by
  rw [drawCallback_keeps]
  exact keepsLink_env s _ _

theorem callbackInvocation_next {i : Nat} {frame : Bytes} {s : State} {st : Status} {t : State}
    (h : callbackInvocation i frame s = .next (st, t)) : KeepsLink s t := by
  unfold callbackInvocation at h
  obtain ⟨c, -, h⟩ := withChannel_eq_next.mp h
  split at h
  · cases h; exact KeepsLink.refl _
  · have hk := keepsLink_drawCallback s
    rcases hd : drawCallback s with ⟨reply, s1⟩
    rw [hd] at h hk
    obtain ⟨u, s2, hr, hx⟩ := andThen_eq_next.mp h
    cases hx
    exact hk.trans ((keepsLink_emit _ _).trans (runInCallback_next hr))

theorem ackEmission_eq {i : Nat} {c : Channel} {s : State} (h : s.chans[i]? = some c) :
    ackEmission i s = .next (statusOfSinkWrite s, afterSinkWrite (makeAck c.chanId) s) := by
  unfold ackEmission
  rw [withChannel_some h]
  exact sinkStatus_sinkWrite _ _

theorem creditAndDrain_next {i : Nat} {s : State} {st : Status} {t : State}
    (h : creditAndDrain i s = .next (st, t)) :
    KeepsLink s t ∧ ((st = .ok ∧ t.linkState = s.linkState) ∨ (st = .outputBufferTooSmall ∧ t.linkState = .failed)) := by
  unfold creditAndDrain at h
  obtain ⟨c, hc, h⟩ := withChannel_eq_next.mp h
  have hk : KeepsLink s (setChannel i { c with window := creditWindow c.window } s) := by
    refine keepsLink_setChannel hc rfl (fun hs => ?_)
    rw [Channel.sound_iff] at hs ⊢
    exact ⟨hs.1, creditWindow_toInt hs.2.1, hs.2.2⟩
  obtain ⟨st', t', sent, kept, w, hd, hkt, -, -, hend⟩ :=
    drain_spec (setChannel_get_same i c { c with window := creditWindow c.window } s hc)
  rw [hd] at h
  cases h
  refine ⟨hk.trans hkt, ?_⟩
  rcases hend with ⟨h1, h2, -⟩ | h1
  · exact .inl ⟨h1, h2⟩
  · exact .inr h1

theorem processFrame_next {i : Nat} {frame : Bytes} {s : State} {r : Bool × Status} {t : State}
    (h : processFrame i frame s = .next (r, t)) : KeepsLink s t := by
  unfold processFrame at h
  split at h
  · unfold ackAndNotify at h
    obtain ⟨st, s1, h1, h2⟩ := andThen_eq_next.mp h
    have hk : KeepsLink s s1 := by
      split at h1
      · cases h1; exact KeepsLink.refl _
      · unfold ackEmission at h1
        obtain ⟨c, -, h1⟩ := withChannel_eq_next.mp h1
        replace h1 : sinkStatus (sinkWrite (makeAck c.chanId) s).1 (sinkWrite (makeAck c.chanId) s).2 = _ := h1
        rw [sinkStatus_sinkWrite] at h1
        cases h1
        exact keepsLink_afterSinkWrite _ _
    split at h2
    · cases h2; exact hk
    · obtain ⟨st', s2, h3, h4⟩ := andThen_eq_next.mp h2
      cases h4
      exact hk.trans (callbackInvocation_next h3)
  · obtain ⟨st, s1, h1, h2⟩ := andThen_eq_next.mp h
    cases h2
    exact (creditAndDrain_next h1).1

/-- The dispatcher keeps the Link. -/
theorem route_next {frame : Bytes} {s : State} {st : Status} {t : State} (h : route frame s = .next (st, t)) :
    KeepsLink s t := by
  unfold route controlHandler raiseFatal at h
  split at h
  · cases h; exact keepsLink_fail s
  · split at h
    · obtain ⟨r, s1, h1, h2⟩ := andThen_eq_next.mp h
      cases h2
      exact processFrame_next h1
    · cases h; exact keepsLink_fail s

/-! ### One round of the reassembler -/

theorem phaseSound_iff {s : State} : phaseSound s = true ↔ s.cur < 4 ∨
    ∃ hdr, Memory.readRange s.rbuf 0 4 = some hdr ∧ s.cur < totalLength hdr ∧ totalLength hdr ≤ maxFrame := by
  unfold phaseSound headerLen
  cases h : Memory.readRange s.rbuf 0 4 with
  | none => simp
  | some hdr => simp

/-- The header bytes after a header phase on `x`. -/
def headerAfter (x : Bytes) (s : State) : Option Bytes :=
  Memory.readRange (stored (x.take (4 - s.cur)) s).rbuf 0 4

/-- Before a frame is complete its header stands in the first four bytes. -/
theorem headerAfter_eq {x : Bytes} {s : State} {k : Nat} (h : 4 ≤ s.cur + k) :
    Memory.readRange (stored (x.take k) s).rbuf 0 4 = headerAfter x s := by
  unfold headerAfter
  by_cases hc : 4 - s.cur ≤ k
  · rw [show k = (4 - s.cur) + (k - (4 - s.cur)) by omega, List.take_add, stored_append]
    by_cases hl : 4 - s.cur ≤ x.length
    · rw [stored_readRange_before]
      rw [stored_cur, List.length_take]; omega
    · rw [List.drop_of_length_le (by omega)]
      simp
  · omega

/-- The header of a string whose rest arrives. -/
theorem headerAfter_arrived {str rest : Bytes} {s : State} (h : arrivedFront str s) (h4 : 4 ≤ str.length) :
    headerAfter (str.drop s.cur ++ rest) s = some (str.take 4) := by
  unfold headerAfter
  by_cases hc : 4 ≤ s.cur
  · rw [Nat.sub_eq_zero_of_le hc, List.take_zero, stored_nil, Memory.readRange_take 4 h.2 hc, List.take_take,
      Nat.min_eq_left hc]
  · rw [List.take_append_of_le_length (by rw [List.length_drop]; omega)]
    have := stored_readRange (x := (str.drop s.cur).take (4 - s.cur)) h.2
    rw [List.length_take, List.length_drop, show s.cur + min (4 - s.cur) (str.length - s.cur) = 4 by omega,
      ← List.take_add, show s.cur + (4 - s.cur) = 4 by omega] at this
    exact this

/-- What one round meets, from a state whose buffer is filled up to `CUR` and that is in one of the two phases: an
incomplete header; or a header, and then a frame that is too long, incomplete, or complete, well-formed and readable. -/
theorem round_cases {x : Bytes} {s : State} (hfill : bufferFilled s.rbuf s.cur = true) (hph : phaseSound s = true) :
    s.cur + x.length < 4 ∨
    ∃ hdr, 4 ≤ s.cur + x.length ∧ headerAfter x s = some hdr ∧ s.cur < totalLength hdr ∧
      ((x ≠ [] ∧ maxFrame < totalLength hdr) ∨
       (totalLength hdr ≤ maxFrame ∧ s.cur + x.length < totalLength hdr) ∨
       (totalLength hdr ≤ maxFrame ∧ totalLength hdr ≤ s.cur + x.length ∧ ∃ frame,
          Memory.readRange (stored (x.take (totalLength hdr - s.cur)) s).rbuf 0 (totalLength hdr) = some frame ∧
          frameWf frame = true ∧ frame.length = totalLength hdr)) := by
  by_cases h4 : s.cur + x.length < 4
  · exact .inl h4
  right
  have hlen : 4 ≤ (stored (x.take (4 - s.cur)) s).cur := by
    rw [stored_cur, List.length_take]; omega
  obtain ⟨hdr, hh', -⟩ := filled_readRange (stored_filled (x := x.take (4 - s.cur)) hfill) hlen
  have hh : headerAfter x s = some hdr := hh'
  have hge := totalLength_ge hdr
  have hcur : s.cur < totalLength hdr ∧ (maxFrame < totalLength hdr → x ≠ []) := by
    rcases phaseSound_iff.mp hph with h | ⟨hdr', h', hlt, hle⟩
    · refine ⟨by omega, fun _ hx => ?_⟩
      subst hx; simp at h4; omega
    · by_cases hc : s.cur < 4
      · refine ⟨by omega, fun _ hx => ?_⟩
        subst hx; simp at h4; omega
      · have : hdr = hdr' := by
          rw [stored_readRange_before (by omega), h'] at hh'
          exact (Option.some.inj hh').symm
        subst this
        exact ⟨hlt, fun h => absurd hle (by omega)⟩
  refine ⟨hdr, by omega, hh, hcur.1, ?_⟩
  by_cases hT : maxFrame < totalLength hdr
  · exact .inl ⟨hcur.2 hT, hT⟩
  right
  by_cases hp : s.cur + x.length < totalLength hdr
  · exact .inl ⟨by omega, hp⟩
  right
  refine ⟨by omega, by omega, ?_⟩
  have hk : totalLength hdr ≤ (stored (x.take (totalLength hdr - s.cur)) s).cur := by
    rw [stored_cur, List.length_take]; omega
  obtain ⟨frame, hf, hfl⟩ := filled_readRange (stored_filled (x := x.take (totalLength hdr - s.cur)) hfill) hk
  refine ⟨frame, hf, ?_, hfl⟩
  have hhead := Memory.readRange_take 4 hf hge
  rw [headerAfter_eq (by omega), hh] at hhead
  have hTf : totalLength frame = totalLength hdr := by
    rw [Option.some.inj hhead, totalLength_take frame 4 (Nat.le_refl 4)]
  simp [frameWf, headerLen, hTf, hfl]
  omega

/-- What one round does with a complete frame. -/
def finishRound (n fuel fs : Nat) (k : Nat) (x : Bytes) (s : State) (frame : Bytes) : Res (Status × Nat) :=
  andThen (route frame (stored (x.take k) s)) fun st s3 =>
    if s3.linkState = .failed then .next ((if st = .ok then .linkNotActive else st, fs), s3)
    else if st ≠ .ok then .next ((st, n - (x.drop k).length), frameBoundary s3)
    else feedLoop n fuel (n - (x.drop k).length) (x.drop k) (frameBoundary s3)

theorem feedLoop_nil (n fuel fs : Nat) (s : State) : feedLoop n fuel fs [] s = .next ((.ok, n), s) := by
  cases fuel <;> simp [feedLoop]

/-- The header is not complete: all input is taken. -/
theorem feedLoop_header {n fuel fs : Nat} {x : Bytes} {s : State} (h : s.cur + x.length < 4) :
    feedLoop n (fuel + 1) fs x s = .next ((.ok, n), stored x s) := by
  by_cases hx : x = []
  · subst hx; simp [feedLoop]
  · unfold feedLoop
    rw [if_neg (by simpa using hx), fill_eq]
    have htake : x.take (headerLen - s.cur) = x := by
      apply List.take_of_length_le; unfold headerLen; omega
    simp only [htake, stored_cur]
    rw [if_pos (by unfold headerLen; omega)]

/-- The header is complete and its frame too long: a fatal error. -/
theorem feedLoop_overlong {n fuel fs : Nat} {x hdr : Bytes} {s : State} (hx : x ≠ []) (h : 4 ≤ s.cur + x.length)
    (hh : headerAfter x s = some hdr) (hT : maxFrame < totalLength hdr) :
    feedLoop n (fuel + 1) fs x s =
      .next ((.payloadTooBig, fs), { stored (x.take (4 - s.cur)) s with linkState := .failed }) := by
  unfold feedLoop
  rw [if_neg (by simpa using hx)]
  simp only [fill_eq, stored_cur, headerLen]
  rw [if_neg (by simp; omega)]
  unfold headerAfter at hh
  simp only [readBuffer, hh]
  rw [if_pos hT]
  simp [raiseFatal]

/-- The header is complete, the frame is not: all input is taken. -/
theorem feedLoop_partial {n fuel fs : Nat} {x hdr : Bytes} {s : State} (h : 4 ≤ s.cur + x.length)
    (hh : headerAfter x s = some hdr) (hT : totalLength hdr ≤ maxFrame) (hp : s.cur + x.length < totalLength hdr) :
    feedLoop n (fuel + 1) fs x s = .next ((.ok, n), stored x s) := by
  by_cases hx : x = []
  · subst hx; simp [feedLoop]
  · unfold feedLoop
    rw [if_neg (by simpa using hx)]
    simp only [fill_eq, stored_cur, headerLen]
    rw [if_neg (by simp; omega)]
    unfold headerAfter at hh
    simp only [readBuffer, hh]
    rw [if_neg (by omega)]
    have htake : List.take (totalLength hdr - (s.cur + (x.take (4 - s.cur)).length)) (x.drop (4 - s.cur)) =
        x.drop (4 - s.cur) := by
      apply List.take_of_length_le
      simp only [List.length_take, List.length_drop]
      omega
    simp only [htake, ← stored_append, List.take_append_drop]
    rw [if_pos (by simp only [List.length_take, List.length_drop]; omega)]

/-- A complete frame: it is read back, dispatched, and the round ends as `finishRound` says. -/
theorem feedLoop_frame {n fuel fs : Nat} {x hdr frame : Bytes} {s : State} (hx : x ≠ [])
    (hcur : s.cur ≤ totalLength hdr) (hh : headerAfter x s = some hdr) (hT : totalLength hdr ≤ maxFrame)
    (hp : totalLength hdr ≤ s.cur + x.length)
    (hf : Memory.readRange (stored (x.take (totalLength hdr - s.cur)) s).rbuf 0 (totalLength hdr) = some frame) :
    feedLoop n (fuel + 1) fs x s = finishRound n fuel fs (totalLength hdr - s.cur) x s frame := by
  have h4 := totalLength_ge hdr
  conv => lhs; unfold feedLoop
  rw [if_neg (by simpa using hx)]
  simp only [fill_eq, stored_cur, headerLen]
  rw [if_neg (by simp; omega)]
  unfold headerAfter at hh
  simp only [readBuffer, hh]
  rw [if_neg (by omega)]
  have hk : (4 - s.cur) + (totalLength hdr - (s.cur + (x.take (4 - s.cur)).length)) = totalLength hdr - s.cur := by
    simp only [List.length_take]; omega
  simp only [← stored_append, List.drop_drop, ← List.take_add, hk]
  rw [if_neg (by simp only [List.length_take, List.length_drop]; omega), hf]
  rfl

/-- The bytes that complete a well-formed frame, and then `rest`: the frame is dispatched, and `rest` is fed at the next
boundary. -/
theorem feedLoop_arrived {n fuel fs : Nat} {frame rest : Bytes} {s : State} (h : arrivedFront frame s)
    (hw : frameWf frame = true) :
    feedLoop n (fuel + 1) fs (frame.drop s.cur ++ rest) s =
      andThen (route frame (stored (frame.drop s.cur) s)) fun st t =>
        if t.linkState = .failed then .next ((if st = .ok then .linkNotActive else st, fs), t)
        else if st ≠ .ok then .next ((st, n - rest.length), frameBoundary t)
        else feedLoop n fuel (n - rest.length) rest (frameBoundary t) := by
  simp only [frameWf, Bool.and_eq_true, decide_eq_true_eq] at hw
  obtain ⟨⟨h4 : 4 ≤ frame.length, hlen⟩, hmax⟩ := hw
  have hT : totalLength (frame.take 4) = frame.length := by rw [totalLength_take _ _ (Nat.le_refl _), hlen]
  have hk : (frame.drop s.cur).length = frame.length - s.cur := List.length_drop
  have htake : (frame.drop s.cur ++ rest).take (frame.length - s.cur) = frame.drop s.cur := by
    rw [← hk, List.take_left]
  have hdrop : (frame.drop s.cur ++ rest).drop (frame.length - s.cur) = rest := by rw [← hk, List.drop_left]
  have hlt := h.1
  rw [feedLoop_frame (hdr := frame.take 4) (frame := frame)
    (fun hx => by have := congrArg List.length hx; rw [List.length_append, hk] at this; simp at this; omega)
    (by omega) (headerAfter_arrived h h4) (by omega) (by rw [List.length_append, hk]; omega)
    (by rw [hT, htake]; exact arrivedFront_readRange h)]
  simp only [finishRound, hT, htake, hdrop]

/-- The counts of `feed` are relative to where its input starts, and any fuel above the input's length is enough. -/
theorem feedLoop_shift {x : Bytes} {s : State} {n fuel fuel' fs d : Nat} (hn : x.length ≤ n) (h : x.length < fuel)
    (h' : x.length < fuel') (hc : s.cur < 4) :
    feedLoop (n + d) fuel' (fs + d) x s =
      andThen (feedLoop n fuel fs x s) fun r t => .next ((r.1, r.2 + d), t) := by
  induction fuel generalizing x s fs fuel' with
  | zero => omega
  | succ fuel ih =>
    obtain ⟨fuel', rfl⟩ : ∃ k, fuel' = k + 1 := ⟨fuel' - 1, by omega⟩
    by_cases hx : x = []
    · subst hx; simp only [feedLoop_nil, andThen_next]
    have hpos : 0 < x.length := List.length_pos_iff.mpr hx
    have hne : ¬ (x.isEmpty = true) := by simpa using hx
    unfold feedLoop
    simp only [fill_eq, headerLen, if_neg hne]
    by_cases hhead : (stored (x.take (4 - s.cur)) s).cur < 4
    · simp only [if_pos hhead, andThen_next]
    simp only [if_neg hhead, readBuffer]
    cases Memory.readRange (stored (x.take (4 - s.cur)) s).rbuf 0 4 with
    | none => rfl
    | some hdr =>
      have hle := totalLength_ge hdr
      dsimp only
      by_cases hlong : totalLength hdr > maxFrame
      · simp only [if_pos hlong, raiseFatal, andThen_next]
      simp only [if_neg hlong, ← stored_append]
      generalize hrest : List.drop (totalLength hdr - (stored (x.take (4 - s.cur)) s).cur) (x.drop (4 - s.cur)) = rest
      have hlen : rest.length < x.length := by
        rw [← hrest]; simp only [List.length_drop]; omega
      generalize stored _ s = s2
      by_cases hpart : s2.cur < totalLength hdr
      · simp only [if_pos hpart, andThen_next]
      simp only [if_neg hpart]
      cases Memory.readRange s2.rbuf 0 (totalLength hdr) with
      | none => rfl
      | some frame =>
        dsimp only
        cases route frame s2 with
        | fault e => rfl
        | refused e => rfl
        | next p =>
          obtain ⟨st, t⟩ := p
          simp only [andThen_next]
          have hsub : n + d - rest.length = n - rest.length + d := by omega
          by_cases hf : t.linkState = .failed
          · simp only [if_pos hf, andThen_next]
          by_cases hst : st ≠ .ok
          · simp only [if_neg hf, if_pos hst, andThen_next, hsub]
          · simp only [if_neg hf, if_neg hst, hsub]
            exact ih (by omega) (by omega) (by omega) (by simp)

end Sys2Proof.Machine
end

