-- ==== Sys2Proof/Laws/Lifecycle.lean ====
section
/-! SUPPORT. Construction: fresh slots, and what the `CHANNEL_INIT` upcalls can do. -/

namespace Sys2Proof.Machine

@[simp] theorem freshChannels_length (w i n : Nat) : (freshChannels w i n).length = n := by
  induction n generalizing i with
  | zero => rfl
  | succ n ih => simp [freshChannels, ih]

theorem freshChannels_get {w i n k : Nat} (hk : k < n) :
    (freshChannels w i n)[k]? = some ⟨BitVec.ofNat 13 (i + k), BitVec.ofNat 16 w, [], none⟩ := by
  induction n generalizing i k with
  | zero => omega
  | succ n ih =>
    cases k with
    | zero => simp [freshChannels]
    | succ k =>
      have := ih (i := i + 1) (k := k) (by omega)
      simpa [freshChannels, Nat.add_assoc, Nat.add_comm 1 k] using this

/-- Fresh slots with legal parameters are sound. -/
theorem freshChannels_sound {cap : Option Nat} {w i n : Nat} (hw : w ≤ 32767) (hn : i + n ≤ 8192) :
    channelsSoundFrom cap i (freshChannels w i n) = true := by
  induction n generalizing i with
  | zero => rfl
  | succ n ih =>
    simp only [freshChannels, channelsSoundFrom, Bool.and_eq_true]
    refine ⟨Channel.sound_iff.mpr ⟨?_, ?_, ?_, ?_⟩, ih (by omega)⟩
    · simp only [BitVec.toNat_ofNat]; omega
    · show 0 ≤ (BitVec.ofNat 16 w).toInt
      rw [BitVec.toInt_eq_toNat_of_lt (by rw [BitVec.toNat_ofNat]; omega)]
      omega
    · simp
    · simp

theorem keepsLink_drawChannelInit (s : State) : KeepsLink s (drawChannelInit s).2 := by
  rw [drawChannelInit_keeps]
  exact keepsLink_env s _ _

/-- A `CHANNEL_INIT` that invokes `x` and then `y`. -/
theorem runInChannelInit_append (slot : Nat) (x y : List Instr) (s : State) :
    runInChannelInit slot (x ++ y) s = andThen (runInChannelInit slot x s) fun _ t => runInChannelInit slot y t := by
  induction x generalizing s with
  | nil => rfl
  | cons i rest ih =>
    simp only [List.cons_append, runInChannelInit]
    cases execInChannelInit slot i s with
    | next t => exact ih t
    | fault e => rfl
    | refused e => rfl

/-- The upcalls of `k` slots, and then of the `m` slots after them. -/
theorem channelInits_add (k m i : Nat) (s : State) :
    channelInits (k + m) i s = andThen (channelInits k i s) fun _ t => channelInits m (i + k) t := by
  induction k generalizing i s with
  | zero => simp [channelInits, andThen]
  | succ k ih =>
    rw [Nat.succ_add]
    simp only [channelInits]
    cases runInChannelInit i (drawChannelInit s).1 (emit (.channelInit i) (drawChannelInit s).2) with
    | next p =>
      obtain ⟨v, t⟩ := p
      simp only [andThen_next, ih, Nat.add_assoc, Nat.add_comm 1 k]
    | fault e => rfl
    | refused e => rfl

/-- What an operation inside `CHANNEL_INIT` can answer. -/
theorem execInChannelInit_next {slot : Nat} {i : Instr} {s t : State} (h : execInChannelInit slot i s = .next t) :
    KeepsLink s t ∧ t.linkState = s.linkState := by
  cases i <;> simp only [execInChannelInit, reduceCtorEq] at h
  case setCallback j cb =>
    split at h
    · obtain ⟨v, u, hr, rfl⟩ := returns_eq_next.mp h
      have := registerCallback_next hr
      exact ⟨this.1.trans (keepsLink_emit _ _), this.2⟩
    · cases h
  case id j =>
    split at h
    · obtain ⟨v, u, hr, rfl⟩ := returns_eq_next.mp h
      obtain ⟨c, -, hr⟩ := withChannel_eq_next.mp hr
      cases hr
      exact ⟨keepsLink_emit _ _, rfl⟩
    · cases h
  case sendWindow j =>
    split at h
    · obtain ⟨v, u, hr, rfl⟩ := returns_eq_next.mp h
      obtain ⟨c, -, hr⟩ := withChannel_eq_next.mp hr
      cases hr
      exact ⟨keepsLink_emit _ _, rfl⟩
    · cases h

theorem runInChannelInit_next {slot : Nat} {calls : List Instr} {s : State} {u : Unit} {t : State}
    (h : runInChannelInit slot calls s = .next (u, t)) : KeepsLink s t ∧ t.linkState = s.linkState := by
  induction calls generalizing s with
  | nil => cases h; exact ⟨KeepsLink.refl _, rfl⟩
  | cons i rest ih =>
    unfold runInChannelInit at h
    split at h
    · rename_i s1 h1
      have hk := execInChannelInit_next h1
      have hr := ih h
      exact ⟨hk.1.trans hr.1, hr.2.trans hk.2⟩
    · cases h
    · cases h

/-- The upcalls of `init` keep what `construct` wrote, callbacks and observations apart. -/
theorem channelInits_next {k i : Nat} {s : State} {u : Unit} {t : State} (h : channelInits k i s = .next (u, t)) :
    KeepsLink s t ∧ t.linkState = s.linkState := by
  induction k generalizing i s with
  | zero => cases h; exact ⟨KeepsLink.refl _, rfl⟩
  | succ k ih =>
    unfold channelInits at h
    have hd := keepsLink_drawChannelInit s
    have hl := congrArg State.linkState (drawChannelInit_keeps s)
    rcases hc : drawChannelInit s with ⟨calls, s1⟩
    rw [hc] at h hd hl
    obtain ⟨v, s2, h1, h2⟩ := andThen_eq_next.mp h
    have hr := runInChannelInit_next h1
    have hrest := ih h2
    exact ⟨(hd.trans (keepsLink_emit _ _)).trans (hr.1.trans hrest.1), hrest.2.trans (hr.2.trans hl)⟩

theorem configLegal_iff {cfg : LinkConfig} : configLegal cfg = true ↔
    1 ≤ cfg.nChannels ∧ cfg.nChannels ≤ 8191 ∧ 1 ≤ cfg.wMax ∧ cfg.wMax ≤ 32767 ∧ cfg.sink = true := by
  simp [configLegal, and_assoc]

/-- What `init` can answer: the state it was given, for illegal parameters; or an `Active` Link whose slots are as
`construct` made them, up to callbacks. -/
theorem initLink_next {cfg : LinkConfig} {s : State} {st : Status} {t : State} (h : initLink cfg s = .next (st, t)) :
    s.linkState = .uninitialized ∧
    ((configLegal cfg = false ∧ st = .invalidParameter ∧ t = s) ∨
     (configLegal cfg = true ∧ st = .ok ∧ t.linkState = .active ∧
       ∃ u, KeepsLink (construct cfg s) u ∧ t = { u with linkState := .active })) := by
  unfold initLink at h
  split at h
  · cases h
  rename_i hu
  refine ⟨by simpa using hu, ?_⟩
  split at h
  · rename_i hl
    cases h
    exact .inl ⟨by simpa using hl, rfl, rfl⟩
  · rename_i hl
    obtain ⟨v, s1, h1, h2⟩ := andThen_eq_next.mp h
    cases h2
    refine .inr ⟨by simpa using hl, rfl, rfl, s1, ?_, rfl⟩
    split at h1
    · exact (channelInits_next h1).1
    · cases h1; exact KeepsLink.refl _

end Sys2Proof.Machine
end

