-- ==== Sys2Proof/Laws/Varint.lean ====
section
/-! SUPPORT. The varint codec: the bytes of a group, the two loops, and the zig-zag map over integers. -/

namespace Sys2Proof.Machine

theorem withTop_true_toNat : ∀ v : BitVec 7, (withTop true v).toNat = 128 + v.toNat := by decide
theorem withTop_false_toNat : ∀ v : BitVec 7, (withTop false v).toNat = v.toNat := by decide

theorem withTop_top : ∀ (c : Bool) (v : BitVec 7), (withTop c v).getLsbD 7 = c := by decide
theorem low7_withTop : ∀ (c : Bool) (v : BitVec 7), low7 (withTop c v) = v := by decide

theorem low7_toNat (b : Byte) : (low7 b).toNat = b.toNat % 128 := by simp [low7]

/-- The continuation bit as a comparison. -/
theorem top_iff : ∀ b : Byte, b.getLsbD 7 = decide (128 ≤ b.toNat) := by decide

/-! ### The encoder -/

/-- One round of the encoder. -/
theorem encodeUintLoop_succ (fuel : Nat) (v : Word64) : encodeUintLoop (fuel + 1) v =
    if v.toNat < 128 then [withTop false (v.extractLsb' 0 7)]
    else withTop true (v.extractLsb' 0 7) :: encodeUintLoop fuel (v >>> 7) := by
  have hsh : (v >>> 7).toNat = v.toNat / 128 := by simp [Nat.shiftRight_eq_div_pow]
  have : v >>> 7 = 0#64 ↔ v.toNat < 128 := by
    rw [← BitVec.toNat_inj, hsh]
    simp only [BitVec.toNat_ofNat, Nat.zero_mod]
    omega
  conv => lhs; unfold encodeUintLoop
  simp only [this]

theorem shift7_toNat (v : Word64) : (v >>> 7).toNat = v.toNat / 128 := by simp [Nat.shiftRight_eq_div_pow]

theorem group0_toNat (v : Word64) : (v.extractLsb' 0 7).toNat = v.toNat % 128 := by simp

/-! ### The decoder -/

/-- What a group adds, as a number. -/
theorem contribution_toNat (g : BitVec 7) (k : Nat) : (contribution g k).toNat = (g.toNat * 128 ^ k) % 2 ^ 64 := by
  have hp : (2 : Nat) ^ (7 * k) = 128 ^ k := by rw [Nat.pow_mul]
  have hg := g.isLt
  unfold contribution
  split
  · rw [BitVec.toNat_shiftLeft, BitVec.toNat_setWidth, Nat.shiftLeft_eq, hp,
      Nat.mod_eq_of_lt (a := g.toNat) (by omega)]
  · have hd : (2 : Nat) ^ 64 ∣ g.toNat * 128 ^ k := by
      apply Dvd.dvd.mul_left
      rw [← hp]
      exact Nat.pow_dvd_pow 2 (by omega)
    rw [Nat.mod_eq_zero_of_dvd hd]
    rfl

/-- Groups are added at distinct places: the bitwise or is a sum. -/
theorem or_contribution_toNat {v : Word64} {g : BitVec 7} {k a : Nat} (hv : v.toNat = a % 2 ^ 64)
    (ha : a < 128 ^ k) : (v ||| contribution g k).toNat = (a + g.toNat * 128 ^ k) % 2 ^ 64 := by
  have hp : (128 : Nat) ^ k = 2 ^ (7 * k) := by rw [Nat.pow_mul]
  rw [BitVec.toNat_or, contribution_toNat, hv, ← Nat.or_mod_two_pow]
  congr 1
  rw [hp] at ha ⊢
  rw [Nat.mul_comm, Nat.or_comm, ← Nat.two_pow_add_eq_or_of_lt ha, Nat.add_comm]

/-- The decoder on a varint that ends: it gives the number the groups denote, modulo 2^64. -/
theorem decodeUintLoop_ok {conts : Bytes} {last : Byte} {rest : Bytes} {k : Nat} {v : Word64} {a : Nat}
    (hc : ∀ b ∈ conts, b.getLsbD 7 = true) (hl : last.getLsbD 7 = false) (hv : v.toNat = a % 2 ^ 64)
    (ha : a < 128 ^ k) :
    decodeUintLoop (conts ++ last :: rest) k v =
      .ok (BitVec.ofNat 64 (a + 128 ^ k * groupsValue (conts ++ [last])), k + conts.length + 1) := by
  induction conts generalizing k v a with
  | nil =>
    simp only [List.nil_append, decodeUintLoop, hl, List.length_nil, groupsValue, Bool.false_eq_true, if_false]
    congr 2
    apply BitVec.eq_of_toNat_eq
    rw [or_contribution_toNat hv ha, low7_toNat]
    simp [Nat.mul_comm]
  | cons b conts ih =>
    have hb := hc b (by simp)
    simp only [List.cons_append, decodeUintLoop, hb, if_true]
    have hlt : a + (low7 b).toNat * 128 ^ k < 128 ^ (k + 1) := by
      have h7 : (low7 b).toNat ≤ 127 := by have := (low7 b).isLt; omega
      have := Nat.mul_le_mul_right (128 ^ k) h7
      rw [Nat.pow_succ]; omega
    rw [ih (fun x hx => hc x (by simp [hx])) (or_contribution_toNat hv ha) hlt]
    congr 2
    · congr 1
      rw [low7_toNat, groupsValue, Nat.pow_succ]; ring
    · simp; omega

/-- The decoder on bytes that all have the continuation bit. -/
theorem decodeUintLoop_incomplete {str : Bytes} {k : Nat} {v : Word64} (h : ∀ b ∈ str, b.getLsbD 7 = true) :
    decodeUintLoop str k v = .error .incompleteNumber := by
  induction str generalizing k v with
  | nil => rfl
  | cons b rest ih =>
    have hb := h b (by simp)
    simp only [decodeUintLoop, hb, if_true]
    exact ih (fun x hx => h x (by simp [hx]))

/-- The only error of the decoder. -/
theorem decodeUintLoop_error {str : Bytes} {k : Nat} {v : Word64} {e : Status}
    (h : decodeUintLoop str k v = .error e) : e = .incompleteNumber ∧ ∀ b ∈ str, b.getLsbD 7 = true := by
  induction str generalizing k v with
  | nil => cases h; exact ⟨rfl, by simp⟩
  | cons b rest ih =>
    unfold decodeUintLoop at h
    by_cases hb : b.getLsbD 7 = true
    · simp only [hb, if_true] at h
      obtain ⟨h1, h2⟩ := ih h
      refine ⟨h1, fun x hx => ?_⟩
      rcases List.mem_cons.mp hx with rfl | hx
      · exact hb
      · exact h2 x hx
    · simp only [hb] at h
      cases h

/-- Every string has no end of a varint, or splits at the first one. -/
theorem varint_split (str : Bytes) : (∀ b ∈ str, b.getLsbD 7 = true) ∨
    ∃ conts last rest, str = conts ++ last :: rest ∧ (∀ b ∈ conts, b.getLsbD 7 = true) ∧ last.getLsbD 7 = false := by
  induction str with
  | nil => exact .inl (by simp)
  | cons b rest ih =>
    by_cases hb : b.getLsbD 7 = true
    · rcases ih with h | ⟨conts, last, r, rfl, h2, h3⟩
      · left
        intro x hx
        rcases List.mem_cons.mp hx with rfl | hx
        · exact hb
        · exact h x hx
      · right
        refine ⟨b :: conts, last, r, rfl, fun x hx => ?_, h3⟩
        rcases List.mem_cons.mp hx with rfl | hx
        · exact hb
        · exact h2 x hx
    · exact .inr ⟨[], b, rest, rfl, by simp, Bool.eq_false_iff.mpr hb⟩

/-! ### The zig-zag map -/

theorem zigzag_toNat_nonneg {v : Word64} (h : 0 ≤ v.toInt) : ((zigzag v).toNat : Int) = 2 * v.toInt := by
  have hm : v.msb = false := by
    rw [← Bool.not_eq_true, BitVec.msb_eq_toInt]
    simp; omega
  have hlt : v.toNat < 2 ^ 63 := by
    rw [BitVec.msb_eq_decide] at hm
    simpa using hm
  have hs : v.sshiftRight 63 = 0#64 := by
    rw [BitVec.sshiftRight_eq_of_msb_false hm]
    apply BitVec.eq_of_toNat_eq
    rw [BitVec.toNat_ushiftRight, Nat.shiftRight_eq_div_pow, Nat.div_eq_of_lt hlt]
    rfl
  rw [BitVec.toInt_eq_toNat_of_msb hm]
  simp only [zigzag, hs, BitVec.xor_zero, BitVec.toNat_shiftLeft, Nat.shiftLeft_eq]
  omega

theorem zigzag_toNat_neg {v : Word64} (h : v.toInt < 0) : ((zigzag v).toNat : Int) = -2 * v.toInt - 1 := by
  have hm : v.msb = true := by
    rw [BitVec.msb_eq_toInt]
    simp; omega
  have hge : 2 ^ 63 ≤ v.toNat := by
    rw [BitVec.msb_eq_decide] at hm
    simpa using hm
  have hlt := v.isLt
  have hs : v.sshiftRight 63 = BitVec.allOnes 64 := by
    rw [BitVec.sshiftRight_eq_of_msb_true hm]
    apply BitVec.eq_of_toNat_eq
    rw [BitVec.toNat_not, BitVec.toNat_ushiftRight, BitVec.toNat_not, Nat.shiftRight_eq_div_pow,
      Nat.div_eq_of_lt (by omega)]
    rfl
  rw [BitVec.toInt_eq_msb_cond, hm]
  simp only [zigzag, hs, BitVec.xor_allOnes, BitVec.toNat_not, BitVec.toNat_shiftLeft, Nat.shiftLeft_eq, if_true]
  omega

/-- Bit 0 as a remainder. -/
theorem and_one_ne_zero (u : Word64) : (u &&& 1#64 != 0#64) = decide (u.toNat % 2 = 1) := by
  have hu : u &&& 1#64 = BitVec.ofNat 64 (u.toNat % 2) := by
    apply BitVec.eq_of_toNat_eq
    rw [BitVec.toNat_and, BitVec.toNat_ofNat, BitVec.toNat_ofNat]
    simp [Nat.and_one_is_mod]; omega
  rw [hu]
  rcases Nat.mod_two_eq_zero_or_one u.toNat with h | h <;> simp [h]

theorem unzigzag_even {u : Word64} (h : u.toNat % 2 = 0) : (u.toNat : Int) = 2 * (unzigzag u).toInt := by
  have hu := u.isLt
  unfold unzigzag
  rw [and_one_ne_zero, h]
  simp only [Nat.zero_ne_one, decide_false, Bool.false_eq_true, if_false]
  rw [BitVec.toInt_eq_toNat_of_lt (by rw [BitVec.toNat_ushiftRight, Nat.shiftRight_eq_div_pow]; omega),
    BitVec.toNat_ushiftRight, Nat.shiftRight_eq_div_pow]
  omega

theorem unzigzag_odd {u : Word64} (h : u.toNat % 2 = 1) : (u.toNat : Int) = -2 * (unzigzag u).toInt - 1 := by
  have hu := u.isLt
  unfold unzigzag
  rw [and_one_ne_zero, h]
  simp only [decide_true, if_true]
  rw [BitVec.toInt_eq_toNat_cond, BitVec.toNat_not, BitVec.toNat_ushiftRight, Nat.shiftRight_eq_div_pow]
  split <;> omega

/-- The two maps are inverse. -/
theorem unzigzag_zigzag (v : Word64) : unzigzag (zigzag v) = v := by
  apply BitVec.eq_of_toInt_eq
  by_cases h : 0 ≤ v.toInt
  · have h1 := zigzag_toNat_nonneg h
    have h2 := unzigzag_even (u := zigzag v) (by omega)
    omega
  · have h1 := zigzag_toNat_neg (v := v) (by omega)
    have h2 := unzigzag_odd (u := zigzag v) (by omega)
    omega

end Sys2Proof.Machine
end

