-- ==== Sys2Proof/Laws/PerInstr.lean ====
section
/-! SUPPORT. The per-instruction family `LeadingWord`: the words the encoder gives an instruction begin with the bits
that `spec/opcode_table.json` fixes in its row. -/

namespace Sys2Proof.Laws.LeadingWord

/-- The mask and the match of an instruction's row of the opcode table, byte by byte, most significant first. -/
def row : Instr → Bytes × Bytes
  | .frameNone _ _ => ([0x00, 0x00, 0xE0, 0x00], [0x00, 0x00, 0x00, 0x00])
  | .frameHead _ _ _ => ([0x00, 0x00, 0xE0, 0x00], [0x00, 0x00, 0x20, 0x00])
  | .frameBody _ _ _ => ([0x00, 0x00, 0xE0, 0x00], [0x00, 0x00, 0x40, 0x00])
  | .frameHeadBody _ _ _ => ([0x00, 0x00, 0xE0, 0x00], [0x00, 0x00, 0x60, 0x00])
  | .frameAck _ _ => ([0x00, 0x00, 0xE0, 0x00], [0x00, 0x00, 0x80, 0x00])
  | .frameFlowHead _ _ => ([0x00, 0x00, 0xE0, 0x00], [0x00, 0x00, 0xA0, 0x00])
  | .frameFinal _ _ => ([0x00, 0x00, 0xE0, 0x00], [0x00, 0x00, 0xC0, 0x00])
  | .frameFinalHead _ _ => ([0x00, 0x00, 0xE0, 0x00], [0x00, 0x00, 0xE0, 0x00])
  | .routeControl _ _ _ => ([0x00, 0x00, 0x1F, 0xFF], [0x00, 0x00, 0x1F, 0xFF])
  | .varintCont _ _ => ([0x80], [0x80])
  | .varintLast _ _ => ([0x80], [0x00])
  | .lenShort _ _ => ([0x80], [0x00])
  | .lenLong _ _ _ => ([0x80, 0x00], [0x80, 0x00])
  | .textChar1 _ _ => ([0xFF, 0x00], [0x00, 0x00])
  | .textChar1Long _ _ => ([0xFF, 0xFF, 0x00], [0x80, 0x00, 0x00])
  | .encodeHeader _ _ _ => ([0x1F], [0x00])
  | .decodeHeader _ => ([0x1F], [0x01])
  | .frameTotalLength _ => ([0x1F], [0x02])
  | .payload _ => ([0x1F], [0x03])
  | .encodeUint _ => ([0x1F], [0x04])
  | .decodeUint _ _ => ([0x1F], [0x05])
  | .encodeInt _ => ([0x1F], [0x06])
  | .decodeInt _ _ => ([0x1F], [0x07])
  | .encodeLength _ => ([0x1F], [0x08])
  | .decodeLength _ _ => ([0x1F], [0x09])
  | .encodeText _ => ([0x1F], [0x0A])
  | .decodeText _ _ => ([0x1F], [0x0B])
  | .recv _ => ([0x1F], [0x0C])
  | .writeFrame _ _ => ([0x1F], [0x0D])
  | .processFrame _ _ => ([0x1F], [0x0E])
  | .getChannel _ => ([0x1F], [0x0F])
  | .write _ => ([0x1F], [0x10])
  | .id _ => ([0x1F], [0x11])
  | .sendWindow _ => ([0x1F], [0x12])
  | .setCallback _ _ => ([0x1F], [0x13])
  | .init _ => ([0x1F], [0x14])
  | .close => ([0x1F], [0x15])
  | .destroy => ([0x1F], [0x16])
  | .makeFrame _ _ _ => ([0x1F], [0x17])

/-- The masked leading bytes of the encoded instruction are the match of its row. -/
def Statement (i : Instr) : Prop :=
  (row i).1.length ≤ (encode i).bytes.length ∧
    List.zipWith (fun m b => m &&& b) (row i).1 (encode i).bytes = (row i).2

/-- The kind bits of a header (R82). -/
theorem kind_masked (cid : ChanId) (f : Flags) (size : Size16) (body : Bytes) :
    List.zipWith (fun m b => m &&& b) [0x00#8, 0x00#8, 0xE0#8, 0x00#8] (frameWords cid f size body).bytes =
      [0x00#8, 0x00#8, f.toByte, 0x00#8] := by
  have h : ∀ hi : BitVec 5, 0xE0#8 &&& (f.toByte ||| hi.setWidth 8) = f.toByte := by
    rcases f with ⟨_ | _, _ | _, _ | _⟩ <;> decide
  simp [frameWords, headerBytes, h]

/-- The ID bits of a control frame (R82, R90). -/
theorem route_masked (f : Flags) (size : Size16) (body : Bytes) :
    List.zipWith (fun m b => m &&& b) [0x00#8, 0x00#8, 0x1F#8, 0xFF#8]
      (frameWords (BitVec.ofNat 13 controlId) f size body).bytes = [0x00#8, 0x00#8, 0x1F#8, 0xFF#8] := by
  have h : 0x1F#8 &&& (f.toByte ||| ((BitVec.ofNat 13 controlId).extractLsb' 8 5).setWidth 8) = 0x1F#8 := by
    rcases f with ⟨_ | _, _ | _, _ | _⟩ <;> decide
  have h0 : 0xFF#8 &&& (BitVec.ofNat 13 controlId).extractLsb' 0 8 = 0xFF#8 := by decide
  simp only [frameWords, headerBytes, List.cons_append, List.zipWith_cons_cons, List.zipWith_nil_left, h, h0,
    BitVec.zero_and]

theorem top_set_bit : ∀ v : BitVec 7, 0x80#8 &&& withTop true v = 0x80#8 := by decide
theorem top_clear_bit : ∀ v : BitVec 7, 0x80#8 &&& withTop false v = 0x00#8 := by decide

theorem frameNone (a : Size16) (b : ChanId) : Statement (.frameNone a b) :=
  ⟨by simp [row, encode, frameWords], kind_masked b ⟨false, false, false⟩ a []⟩
theorem frameHead (a : Size16) (b : ChanId) (c : Bytes) : Statement (.frameHead a b c) :=
  ⟨by simp [row, encode, frameWords], kind_masked b ⟨false, false, true⟩ a c⟩
theorem frameBody (a : Size16) (b : ChanId) (c : Bytes) : Statement (.frameBody a b c) :=
  ⟨by simp [row, encode, frameWords], kind_masked b ⟨false, true, false⟩ a c⟩
theorem frameHeadBody (a : Size16) (b : ChanId) (c : Bytes) : Statement (.frameHeadBody a b c) :=
  ⟨by simp [row, encode, frameWords], kind_masked b ⟨false, true, true⟩ a c⟩
theorem frameAck (a : Size16) (b : ChanId) : Statement (.frameAck a b) :=
  ⟨by simp [row, encode, frameWords], kind_masked b ⟨true, false, false⟩ a []⟩
theorem frameFlowHead (a : Size16) (b : ChanId) : Statement (.frameFlowHead a b) :=
  ⟨by simp [row, encode, frameWords], kind_masked b ⟨true, false, true⟩ a []⟩
theorem frameFinal (a : Size16) (b : ChanId) : Statement (.frameFinal a b) :=
  ⟨by simp [row, encode, frameWords], kind_masked b ⟨true, true, false⟩ a []⟩
theorem frameFinalHead (a : Size16) (b : ChanId) : Statement (.frameFinalHead a b) :=
  ⟨by simp [row, encode, frameWords], kind_masked b ⟨true, true, true⟩ a []⟩
theorem routeControl (a : Flags) (b : Size16) (c : Bytes) : Statement (.routeControl a b c) :=
  ⟨by simp [row, encode, frameWords], route_masked a b c⟩
theorem varintCont (a : BitVec 7) (b : Bytes) : Statement (.varintCont a b) :=
  ⟨by simp [row, encode], by simp [row, encode, top_set_bit]⟩
theorem varintLast (a : BitVec 7) (b : Bytes) : Statement (.varintLast a b) :=
  ⟨by simp [row, encode], by simp [row, encode, top_clear_bit]⟩
theorem lenShort (a : BitVec 7) (b : Bytes) : Statement (.lenShort a b) :=
  ⟨by simp [row, encode], by simp [row, encode, top_clear_bit]⟩
theorem lenLong (a : BitVec 7) (b : Byte) (c : Bytes) : Statement (.lenLong a b c) :=
  ⟨by simp [row, encode], by simp [row, encode, top_set_bit]⟩
theorem textChar1 (a : Byte) (b : Bytes) : Statement (.textChar1 a b) :=
  ⟨by simp [row, encode], by simp [row, encode]⟩
theorem textChar1Long (a : Byte) (b : Bytes) : Statement (.textChar1Long a b) :=
  ⟨by simp [row, encode], by simp [row, encode]⟩
theorem encodeHeader (a : ChanId) (b : Flags) (c : Size16) : Statement (.encodeHeader a b c) :=
  ⟨by simp [row, encode, opWords], by simp [row, encode, opWords]⟩
theorem decodeHeader (a : Bytes) : Statement (.decodeHeader a) :=
  ⟨by simp [row, encode, opWords], by simp [row, encode, opWords]⟩
theorem frameTotalLength (a : Bytes) : Statement (.frameTotalLength a) :=
  ⟨by simp [row, encode, opWords], by simp [row, encode, opWords]⟩
theorem payload (a : Bytes) : Statement (.payload a) :=
  ⟨by simp [row, encode, opWords], by simp [row, encode, opWords]⟩
theorem encodeUint (a : Word64) : Statement (.encodeUint a) :=
  ⟨by simp [row, encode, opWords], by simp [row, encode, opWords]⟩
theorem decodeUint (a : Bytes) (b : Nat) : Statement (.decodeUint a b) :=
  ⟨by simp [row, encode, opWords], by simp [row, encode, opWords]⟩
theorem encodeInt (a : Word64) : Statement (.encodeInt a) :=
  ⟨by simp [row, encode, opWords], by simp [row, encode, opWords]⟩
theorem decodeInt (a : Bytes) (b : Nat) : Statement (.decodeInt a b) :=
  ⟨by simp [row, encode, opWords], by simp [row, encode, opWords]⟩
theorem encodeLength (a : Nat) : Statement (.encodeLength a) :=
  ⟨by simp [row, encode, opWords], by simp [row, encode, opWords]⟩
theorem decodeLength (a : Bytes) (b : Nat) : Statement (.decodeLength a b) :=
  ⟨by simp [row, encode, opWords], by simp [row, encode, opWords]⟩
theorem encodeText (a : Bytes) : Statement (.encodeText a) :=
  ⟨by simp [row, encode, opWords], by simp [row, encode, opWords]⟩
theorem decodeText (a : Bytes) (b : Nat) : Statement (.decodeText a b) :=
  ⟨by simp [row, encode, opWords], by simp [row, encode, opWords]⟩
theorem recv (a : Option Bytes) : Statement (.recv a) :=
  ⟨by simp [row, encode, opWords], by simp [row, encode, opWords]⟩
theorem writeFrame (a : Nat) (b : Bytes) : Statement (.writeFrame a b) :=
  ⟨by simp [row, encode, opWords], by simp [row, encode, opWords]⟩
theorem processFrame (a : Nat) (b : Bytes) : Statement (.processFrame a b) :=
  ⟨by simp [row, encode, opWords], by simp [row, encode, opWords]⟩
theorem getChannel (a : Nat) : Statement (.getChannel a) :=
  ⟨by simp [row, encode, opWords], by simp [row, encode, opWords]⟩
theorem write (a : Bytes) : Statement (.write a) :=
  ⟨by simp [row, encode, opWords], by simp [row, encode, opWords]⟩
theorem id (a : Nat) : Statement (.id a) :=
  ⟨by simp [row, encode, opWords], by simp [row, encode, opWords]⟩
theorem sendWindow (a : Nat) : Statement (.sendWindow a) :=
  ⟨by simp [row, encode, opWords], by simp [row, encode, opWords]⟩
theorem setCallback (a : Nat) (b : Option Word64) : Statement (.setCallback a b) :=
  ⟨by simp [row, encode, opWords], by simp [row, encode, opWords]⟩
theorem init (a : LinkConfig) : Statement (.init a) :=
  ⟨by simp [row, encode, opWords], by simp [row, encode, opWords]⟩
theorem close : Statement (.close) :=
  ⟨by simp [row, encode, opWords], by simp [row, encode, opWords]⟩
theorem destroy : Statement (.destroy) :=
  ⟨by simp [row, encode, opWords], by simp [row, encode, opWords]⟩
theorem makeFrame (a : ChanId) (b : Flags) (c : Bytes) : Statement (.makeFrame a b c) :=
  ⟨by simp [row, encode, opWords], by simp [row, encode, opWords]⟩

end Sys2Proof.Laws.LeadingWord
end

