-- ==== Sys2Proof/Tests/Slice0.lean ====
section
/-! SUPPORT. The model's own tests: ill-formed terms, decoded words, single operations with the results of
`95_test_vectors.md`, and a witness for the hypotheses of each statement. -/

namespace Sys2Proof.Tests

open Sys2Proof Sys2Proof.Machine

/-! ### Helpers -/

/-- An `Active` Link as `init` leaves it, with `n` channels and window `w`, an unbounded queue, no callback. -/
def link (n w : Nat) : State :=
  { State.reset with cfg := ⟨n, w, none, true, false⟩, chans := freshChannels w 0 n }

/-- `s` with the answers of the upcalls. -/
def answering (sink : List SinkStatus) (callback : List CallbackReply) (s : State) : State :=
  { s with env := ⟨sink, callback, []⟩ }

/-- `s` with slot `i` changed. -/
def slot (i : Nat) (f : Channel → Channel) (s : State) : State := { s with chans := s.chans.modify i f }

/-- `s` with callback 7 on slot `i`. -/
def registered (i : Nat) (s : State) : State := slot i (fun c => { c with callback := some 7#64 }) s

/-- The next state, if there is one. -/
def next? : Host.Outcome State Fault Refusal → Option State
  | .next t => some t
  | .fault _ => none
  | .refused _ => none

/-- What was observed. -/
def observed (o : Host.Outcome State Fault Refusal) : Option (List Event) := (next? o).map (·.trace)

/-- The `SEND_WINDOW` and the queue of slot `i` afterwards. -/
def slotAfter (i : Nat) (o : Host.Outcome State Fault Refusal) : Option (Int × List Bytes) :=
  (next? o).bind fun t => (t.chans[i]?).map fun c => (c.window.toInt, c.queue)

/-- The output of a codec operation, which changes nothing else. -/
def output (i : Instr) : Option (List Event) := observed (exec i (link 1 1))

/-- `D(i,c)` of `95_test_vectors.md`: a one-byte `BODY` frame for channel `i`. -/
def dataFrame (i c : Byte) : Bytes := [0x00#8, 0x01#8, 0x40#8, i, c]

/-- `ACK(i)`. -/
def ackFrame (i : Byte) : Bytes := [0x00#8, 0x00#8, 0x80#8, i]

/-- `Z`: a final frame of channel 0. -/
def finalFrame : Bytes := [0x00#8, 0x00#8, 0xC0#8, 0x00#8]

/-! ### Ill-formed terms -/

theorem test_illFormed_controlId :
    (Instr.frameNone 0 0x1FFF).wf = false ∧ (Instr.frameHead 1 0x1FFF [0]).wf = false ∧
    (Instr.frameBody 1 0x1FFF [0]).wf = false ∧ (Instr.frameHeadBody 1 0x1FFF [0]).wf = false ∧
    (Instr.frameAck 0 0x1FFF).wf = false ∧ (Instr.frameFlowHead 0 0x1FFF).wf = false ∧
    (Instr.frameFinal 0 0x1FFF).wf = false ∧ (Instr.frameFinalHead 0 0x1FFF).wf = false := by decide

theorem test_illFormed_body :
    (Instr.frameHead 2 0 [0]).wf = false ∧ (Instr.frameBody 0 0 [0]).wf = false ∧
    (Instr.frameHeadBody 1 0 []).wf = false ∧ (Instr.frameBody 0xFFFD 0 [0]).wf = false ∧
    (Instr.routeControl ⟨true, true, false⟩ 1 [0]).wf = false ∧
    (Instr.routeControl ⟨false, true, false⟩ 2 [0]).wf = false := by decide

theorem test_illFormed_number :
    (Instr.encodeLength (2 ^ 32)).wf = false ∧ (Instr.getChannel (2 ^ 32)).wf = false ∧
    (Instr.id (2 ^ 32)).wf = false ∧ (Instr.sendWindow (2 ^ 32)).wf = false ∧
    (Instr.setCallback (2 ^ 32) none).wf = false ∧ (Instr.decodeUint [] (2 ^ 32)).wf = false ∧
    (Instr.decodeInt [] (2 ^ 32)).wf = false ∧ (Instr.decodeLength [] (2 ^ 32)).wf = false ∧
    (Instr.decodeText [] (2 ^ 32)).wf = false ∧ (Instr.writeFrame (2 ^ 32) []).wf = false ∧
    (Instr.processFrame (2 ^ 32) []).wf = false ∧ (Instr.init ⟨2 ^ 32, 1, none, true, false⟩).wf = false ∧
    (Instr.init ⟨1, 2 ^ 32, none, true, false⟩).wf = false ∧
    (Instr.init ⟨1, 1, some (2 ^ 32), true, false⟩).wf = false := by decide

theorem test_illFormed_string :
    ∀ str : Bytes, str.length = 2 ^ 32 →
      (Instr.decodeUint str 0).wf = false ∧ (Instr.decodeInt str 0).wf = false ∧
      (Instr.decodeLength str 0).wf = false ∧ (Instr.encodeText str).wf = false ∧
      (Instr.decodeText str 0).wf = false ∧ (Instr.recv (some str)).wf = false ∧
      (Instr.write str).wf = false ∧
      (Instr.makeFrame 0 ⟨false, true, false⟩ str).wf = false := by
  intro str h
  simp [Instr.wf, fits32, h]

/-! ### Words, written out from the spec's encodings -/

/- R82: `size` in bits 31..16, FLOW 15, BODY 14, HEAD 13, `id` 12..0; R55: most significant byte first. -/
theorem test_decode_frameNone : decode ⟨.stream, [0x12#8, 0x34#8, 0x00#8, 0x05#8]⟩ = .ok (.frameNone 0x1234 5) :=
  by decide
theorem test_decode_frameHead :
    decode ⟨.stream, [0x00#8, 0x02#8, 0x20#8, 0x01#8, 0x68#8, 0x69#8]⟩ = .ok (.frameHead 2 1 [0x68, 0x69]) :=
  by decide
theorem test_decode_frameBody :
    decode ⟨.stream, [0x00#8, 0x01#8, 0x41#8, 0x23#8, 0xAA#8]⟩ = .ok (.frameBody 1 0x0123 [0xAA]) := by decide
theorem test_decode_frameHeadBody :
    decode ⟨.stream, [0x00#8, 0x01#8, 0x7F#8, 0xFE#8, 0x41#8]⟩ = .ok (.frameHeadBody 1 0x1FFE [0x41]) :=
  by decide
theorem test_decode_frameAck : decode ⟨.stream, [0x00#8, 0x00#8, 0x92#8, 0x34#8]⟩ = .ok (.frameAck 0 0x1234) :=
  by decide
theorem test_decode_frameFlowHead :
    decode ⟨.stream, [0xFF#8, 0xFD#8, 0xA0#8, 0x00#8]⟩ = .ok (.frameFlowHead 0xFFFD 0) := by decide
theorem test_decode_frameFinal : decode ⟨.stream, [0x00#8, 0x00#8, 0xC0#8, 0x03#8]⟩ = .ok (.frameFinal 0 3) :=
  by decide
theorem test_decode_frameFinalHead :
    decode ⟨.stream, [0x00#8, 0x00#8, 0xE0#8, 0x00#8]⟩ = .ok (.frameFinalHead 0 0) := by decide
theorem test_decode_routeControl :
    decode ⟨.stream, [0x00#8, 0x01#8, 0x5F#8, 0xFF#8, 0x07#8]⟩ = .ok (.routeControl ⟨false, true, false⟩ 1 [0x07]) :=
  by decide
/- R91, R94, R96 -/
theorem test_decode_varintCont : decode ⟨.varint, [0xAC#8, 0x02#8]⟩ = .ok (.varintCont 0x2C [0x02]) :=
  by decide
theorem test_decode_varintLast : decode ⟨.varint, [0x7F#8, 0x80#8]⟩ = .ok (.varintLast 0x7F [0x80]) :=
  by decide
theorem test_decode_lenShort : decode ⟨.length, [0x7F#8]⟩ = .ok (.lenShort 0x7F []) := by decide
theorem test_decode_lenLong : decode ⟨.length, [0x81#8, 0x2C#8]⟩ = .ok (.lenLong 0x01 0x2C []) := by decide
theorem test_decode_textChar1 : decode ⟨.text, [0x00#8, 0x41#8]⟩ = .ok (.textChar1 0x41 []) := by decide
theorem test_decode_textChar1Long :
    decode ⟨.text, [0x80#8, 0x00#8, 0x41#8]⟩ = .ok (.textChar1Long 0x41 []) := by decide
/- R100: OPSEL 0 to 23; the operand bytes are the model's layout (notes/assumptions/8.md) -/
theorem test_decode_encodeHeader :
    decode ⟨.operation, [0x00#8, 0x01#8, 0x23#8, 0x60#8, 0x00#8, 0x05#8]⟩ =
      .ok (.encodeHeader 0x0123 ⟨false, true, true⟩ 5) := by decide
theorem test_decode_decodeHeader :
    decode ⟨.operation, [0x01#8, 0xAB#8]⟩ = .ok (.decodeHeader [0xAB]) :=
  by decide
theorem test_decode_frameTotalLength :
    decode ⟨.operation, [0x02#8, 0xAB#8]⟩ = .ok (.frameTotalLength [0xAB]) :=
  by decide
theorem test_decode_payload :
    decode ⟨.operation, [0x03#8, 0xAB#8]⟩ = .ok (.payload [0xAB]) := by decide
theorem test_decode_encodeUint :
    decode ⟨.operation, [0x04#8, 0x01#8, 0x00#8, 0x00#8, 0x00#8, 0x00#8, 0x00#8, 0x00#8, 0x02#8]⟩ =
      .ok (.encodeUint 0x0100000000000002) := by decide
theorem test_decode_decodeUint :
    decode ⟨.operation, [0x05#8, 0x00#8, 0x00#8, 0x00#8, 0x01#8, 0xAB#8, 0x00#8, 0x00#8, 0x01#8, 0x02#8]⟩ =
      .ok (.decodeUint [0xAB] 0x102) := by decide
theorem test_decode_encodeInt :
    decode ⟨.operation, [0x06#8, 0xFF#8, 0xFF#8, 0xFF#8, 0xFF#8, 0xFF#8, 0xFF#8, 0xFF#8, 0xFE#8]⟩ =
      .ok (.encodeInt (-2)) := by decide
theorem test_decode_decodeInt :
    decode ⟨.operation, [0x07#8, 0x00#8, 0x00#8, 0x00#8, 0x00#8, 0x00#8, 0x00#8, 0x00#8, 0x00#8]⟩ =
      .ok (.decodeInt [] 0) := by decide
theorem test_decode_encodeLength :
    decode ⟨.operation, [0x08#8, 0x00#8, 0x00#8, 0x80#8, 0x00#8]⟩ = .ok (.encodeLength 0x8000) := by decide
theorem test_decode_decodeLength :
    decode ⟨.operation, [0x09#8, 0x00#8, 0x00#8, 0x00#8, 0x00#8, 0x00#8, 0x00#8, 0x00#8, 0x01#8]⟩ =
      .ok (.decodeLength [] 1) := by decide
theorem test_decode_encodeText :
    decode ⟨.operation, [0x0A#8, 0x00#8, 0x00#8, 0x00#8, 0x02#8, 0x68#8, 0x69#8]⟩ =
      .ok (.encodeText [0x68, 0x69]) := by decide
theorem test_decode_decodeText :
    decode ⟨.operation, [0x0B#8, 0x00#8, 0x00#8, 0x00#8, 0x00#8, 0x00#8, 0x00#8, 0x00#8, 0x00#8]⟩ =
      .ok (.decodeText [] 0) := by decide
theorem test_decode_recv :
    decode ⟨.operation, [0x0C#8, 0x00#8, 0x00#8, 0x00#8, 0x00#8, 0x01#8, 0xAA#8]⟩ = .ok (.recv (some [0xAA])) ∧
    decode ⟨.operation, [0x0C#8, 0x01#8]⟩ = .ok (.recv none) := by decide
theorem test_decode_writeFrame :
    decode ⟨.operation, [0x0D#8, 0x00#8, 0x00#8, 0x00#8, 0x05#8, 0xAA#8]⟩ =
      .ok (.writeFrame 5 [0xAA]) := by decide
theorem test_decode_processFrame :
    decode ⟨.operation, [0x0E#8, 0x00#8, 0x00#8, 0x00#8, 0x05#8, 0xAA#8]⟩ =
      .ok (.processFrame 5 [0xAA]) := by decide
theorem test_decode_getChannel :
    decode ⟨.operation, [0x0F#8, 0x00#8, 0x00#8, 0x1F#8, 0xFF#8]⟩ = .ok (.getChannel 0x1FFF) := by decide
theorem test_decode_write :
    decode ⟨.operation, [0x10#8, 0x00#8, 0x00#8, 0x00#8, 0x01#8, 0xAA#8]⟩ = .ok (.write [0xAA]) := by decide
theorem test_decode_id : decode ⟨.operation, [0x11#8, 0x00#8, 0x00#8, 0x00#8, 0x07#8]⟩ = .ok (.id 7) :=
  by decide
theorem test_decode_sendWindow :
    decode ⟨.operation, [0x12#8, 0x00#8, 0x00#8, 0x00#8, 0x07#8]⟩ = .ok (.sendWindow 7) := by decide
theorem test_decode_setCallback :
    decode ⟨.operation, [0x13#8, 0x00#8, 0x00#8, 0x00#8, 0x07#8, 0x00#8]⟩ = .ok (.setCallback 7 none) ∧
    decode ⟨.operation, [0x13#8, 0x00#8, 0x00#8, 0x00#8, 0x07#8, 0x01#8, 0x00#8, 0x00#8, 0x00#8, 0x00#8, 0x00#8,
      0x00#8, 0x00#8, 0x09#8]⟩ = .ok (.setCallback 7 (some 9)) := by decide
theorem test_decode_init :
    decode ⟨.operation, [0x14#8, 0x00#8, 0x00#8, 0x00#8, 0x02#8, 0x00#8, 0x00#8, 0x00#8, 0x08#8, 0x00#8, 0x01#8,
      0x00#8]⟩ = .ok (.init ⟨2, 8, none, true, false⟩) := by decide
theorem test_decode_close : decode ⟨.operation, [0x15#8]⟩ = .ok .close := by decide
theorem test_decode_destroy : decode ⟨.operation, [0x16#8]⟩ = .ok .destroy := by decide
theorem test_decode_makeFrame :
    decode ⟨.operation, [0x17#8, 0x00#8, 0x03#8, 0xC0#8, 0x00#8, 0x00#8, 0x00#8, 0x00#8]⟩ =
      .ok (.makeFrame 3 ⟨true, true, false⟩ []) := by decide

/-- Reserved and incomplete bytes are refused by name (R100, R103). -/
theorem test_decode_refuses :
    decode ⟨.operation, [0x18#8]⟩ = .error .selectorUnassigned ∧ decode ⟨.operation, [0x20#8]⟩ = .error .selectorTooWide ∧
    decode ⟨.operation, [0x15#8, 0x00#8]⟩ = .error .trailingBytes ∧ decode ⟨.operation, []⟩ = .error .truncated ∧
    decode ⟨.operation, [0x00#8, 0x20#8, 0x00#8, 0x00#8, 0x00#8, 0x00#8]⟩ = .error .operandTooWide ∧
    decode ⟨.operation, [0x0C#8, 0x02#8]⟩ = .error .badTag ∧
    decode ⟨.stream, [0x00#8, 0x01#8, 0x40#8, 0x00#8]⟩ = .error .payloadLength ∧
    decode ⟨.text, [0x01#8, 0x41#8]⟩ = .error .notShorthand := by decide

/-! ### Frames that arrive (V7, V9, S6) -/

theorem test_frameNone : slotAfter 0 (exec (.frameNone 0 0) (link 2 8)) = some (9, []) ∧
    observed (exec (.frameNone 0 0) (link 2 8)) = some [.ret (.consumed .ok 4)] := by decide
theorem test_frameHead :
    observed (exec (.frameHead 2 1 [0x68, 0x69]) (answering [.ok] [⟨[], .ok⟩] (registered 1 (link 2 8)))) =
      some [.sink (ackFrame 1) .ok, .callback 1 7 [0x00, 0x02, 0x20, 0x01, 0x68, 0x69] 6 .ok,
        .ret (.consumed .ok 6)] := by decide
theorem test_frameBody :
    observed (exec (.frameBody 1 5 [0xAA]) (answering [.ok] [⟨[], .ok⟩] (registered 5 (link 8 8)))) =
      some [.sink (ackFrame 5) .ok, .callback 5 7 (dataFrame 5 0xAA) 5 .ok, .ret (.consumed .ok 5)] := by
  decide
theorem test_frameBody_ackFails :
    observed (exec (.frameBody 1 0 [0xAA]) (answering [.fail 1] [] (registered 0 (link 1 8)))) =
      some [.sink (ackFrame 0) (.fail 1), .ret (.consumed .outputBufferTooSmall 0)] := by decide
theorem test_frameHeadBody_noCallback :
    observed (exec (.frameHeadBody 1 1 [0xAA]) (answering [.ok] [] (link 2 8))) =
      some [.sink (ackFrame 1) .ok, .ret (.consumed .ok 5)] := by decide
theorem test_frameAck_sizeIgnored : slotAfter 0 (exec (.frameAck 0x1234 0) (link 2 8)) = some (9, []) := by
  decide
theorem test_frameAck_saturates : slotAfter 0 (exec (.frameAck 0 0) (link 1 32767)) = some (32767, []) := by
  decide
theorem test_frameFlowHead : slotAfter 0 (exec (.frameFlowHead 0xFFFD 0) (link 2 8)) = some (9, []) := by
  decide
theorem test_frameFinal : observed (exec (.frameFinal 0 5) (registered 5 (link 8 8))) =
    some [.ret (.consumed .ok 4)] ∧ slotAfter 5 (exec (.frameFinal 0 5) (registered 5 (link 8 8))) = some (9, []) := by
  decide
theorem test_frameFinalHead : slotAfter 0 (exec (.frameFinalHead 0 0) (link 2 9)) = some (10, []) := by decide
theorem test_routeControl :
    observed (exec (.routeControl ⟨true, false, false⟩ 0 []) (link 2 8)) =
      some [.ret (.consumed .invalidChannelId 0)] ∧
    (next? (exec (.routeControl ⟨true, false, false⟩ 0 []) (link 2 8))).map (fun t => (t.linkState, t.cur)) =
      some (.failed, 4) := by decide

/-! ### The codecs (S1 to S3, V1, V3 to V6) -/

theorem test_varintCont : output (.varintCont 0x2C [0x02, 0xFF]) = some [.ret (.uintAt 300 2)] := by decide
theorem test_varintLast : output (.varintLast 0x7F []) = some [.ret (.uintAt 127 1)] := by decide
theorem test_lenShort : output (.lenShort 0x7F []) = some [.ret (.lengthAt 127 1)] := by decide
theorem test_lenLong : output (.lenLong 0x7F 0xFE []) = some [.ret (.lengthAt 32766 2)] := by decide
theorem test_textChar1 : output (.textChar1 0x00 []) = some [.ret (.textAt [0x00] 2)] := by decide
theorem test_textChar1Long : output (.textChar1Long 0x41 []) = some [.ret (.textAt [0x41] 3)] := by decide
theorem test_encodeHeader :
    output (.encodeHeader 0x0123 ⟨false, true, true⟩ 5) = some [.ret (.bytes [0x00, 0x05, 0x61, 0x23])] := by
  decide
theorem test_decodeHeader :
    output (.decodeHeader [0x00, 0x05, 0x61, 0x23, 0x99, 0x99]) =
      some [.ret (.header ⟨0x0123, ⟨false, true, true⟩, 5⟩)] := by decide
theorem test_decodeHeader_short :
    output (.decodeHeader [0x00, 0x05, 0x61]) = some [.ret (.err .invalidParameter)] := by decide
theorem test_frameTotalLength_notCapped :
    output (.frameTotalLength [0xFF, 0xFD, 0x20, 0x00]) = some [.ret (.nat 65537)] := by decide
theorem test_frameTotalLength_flow :
    output (.frameTotalLength [0xFF, 0xFD, 0xA0, 0x00]) = some [.ret (.nat 4)] := by decide
theorem test_payload :
    output (.payload [0x00, 0x02, 0x20, 0x01, 0x68, 0x69]) = some [.ret (.bytes [0x68, 0x69])] := by decide
theorem test_encodeUint : output (.encodeUint 16384) = some [.ret (.bytes [0x80, 0x80, 0x01])] := by decide
theorem test_encodeUint_max : output (.encodeUint (-1)) =
    some [.ret (.bytes [0xFF, 0xFF, 0xFF, 0xFF, 0xFF, 0xFF, 0xFF, 0xFF, 0xFF, 0x01])] := by decide
theorem test_decodeUint_position :
    output (.decodeUint [0xFF, 0xAC, 0x02] 1) = some [.ret (.uintAt 300 3)] := by decide
theorem test_decodeUint_group9 :
    output (.decodeUint [0xFF, 0xFF, 0xFF, 0xFF, 0xFF, 0xFF, 0xFF, 0xFF, 0xFF, 0x02] 0) =
      some [.ret (.uintAt 0x7FFFFFFFFFFFFFFF 10)] := by decide
theorem test_encodeInt : output (.encodeInt (-65)) = some [.ret (.bytes [0x81, 0x01])] := by decide
theorem test_encodeInt_min : output (.encodeInt 0x8000000000000000) =
    some [.ret (.bytes [0xFF, 0xFF, 0xFF, 0xFF, 0xFF, 0xFF, 0xFF, 0xFF, 0xFF, 0x01])] := by decide
theorem test_decodeInt : output (.decodeInt [0x81, 0x00] 0) = some [.ret (.intAt (-1) 2)] := by decide
theorem test_decodeInt_incomplete : output (.decodeInt [0x80] 0) = some [.ret (.err .incompleteNumber)] := by
  decide
theorem test_encodeLength : output (.encodeLength 300) = some [.ret (.bytes [0x81, 0x2C])] := by decide
theorem test_encodeLength_tooBig : output (.encodeLength 32768) = some [.ret (.err .payloadTooBig)] := by
  decide
theorem test_decodeLength_nonMinimal : output (.decodeLength [0x80, 0x05] 0) = some [.ret (.lengthAt 5 2)] := by
  decide
theorem test_decodeLength_incomplete : output (.decodeLength [0x81] 0) = some [.ret (.err .incompleteLength)] := by
  decide
theorem test_encodeText : output (.encodeText [0x41]) = some [.ret (.bytes [0x01, 0x41])] := by decide
theorem test_encodeText_empty : output (.encodeText []) = some [.ret (.err .invalidParameter)] := by decide
theorem test_decodeText :
    output (.decodeText [0x02, 0x68, 0x69, 0xFF] 0) = some [.ret (.textAt [0x68, 0x69] 3)] := by decide
theorem test_decodeText_incomplete : output (.decodeText [0x02, 0x41] 0) = some [.ret (.err .incompleteString)] := by
  decide
theorem test_makeFrame :
    output (.makeFrame 0 ⟨false, true, true⟩ [0x41]) = some [.ret (.bytes [0x00, 0x01, 0x60, 0x00, 0x41])] := by
  decide
theorem test_makeFrame_final :
    output (.makeFrame 3 ⟨true, true, false⟩ [0x41]) = some [.ret (.err .invalidParameter)] := by decide

/-! ### The reassembler (V7 i, V9 g) -/

theorem test_recv_payloadTooBig :
    observed (exec (.recv (some (ackFrame 0 ++ [0xFF, 0xFD, 0x20, 0x00, 0x11]))) (link 2 8)) =
      some [.ret (.consumed .payloadTooBig 4)] ∧
    (next? (exec (.recv (some (ackFrame 0 ++ [0xFF, 0xFD, 0x20, 0x00, 0x11]))) (link 2 8))).map
      (fun t => (t.linkState, t.cur, Memory.read t.rbuf 4)) = some (.failed, 4, none) := by decide
theorem test_recv_callbackError :
    observed (exec (.recv (some (dataFrame 0 0xAA ++ dataFrame 1 0xBB)))
      (answering [.ok] [⟨[], .fail (-7)⟩] (registered 0 (link 2 8)))) =
      some [.sink (ackFrame 0) .ok, .callback 0 7 (dataFrame 0 0xAA) 5 (.fail (-7)),
        .ret (.consumed (.callbackError (-7)) 5)] := by decide

/-! ### The channel (S5, V8, V9 c, V10, V11) -/

theorem test_writeFrame_finalQueued :
    observed (exec (.writeFrame 0 finalFrame) (link 1 0)) = some [.ret (.status .ok)] ∧
    slotAfter 0 (exec (.writeFrame 0 finalFrame) (link 1 0)) = some (0, [finalFrame]) := by decide
theorem test_writeFrame_sinkFails :
    observed (exec (.writeFrame 0 (dataFrame 0 0x41)) (answering [.fail 3] [] (link 1 2))) =
      some [.sink (dataFrame 0 0x41) (.fail 3), .ret (.status .outputBufferTooSmall)] ∧
    slotAfter 0 (exec (.writeFrame 0 (dataFrame 0 0x41)) (answering [.fail 3] [] (link 1 2))) = some (1, []) := by
  decide
theorem test_processFrame :
    observed (exec (.processFrame 1 (dataFrame 1 0xAA)) (answering [.ok] [⟨[], .ok⟩] (registered 1 (link 2 8)))) =
      some [.sink (ackFrame 1) .ok, .callback 1 7 (dataFrame 1 0xAA) 5 .ok, .ret (.headStatus false .ok)] := by
  decide
theorem test_processFrame_echo :
    observed (exec (.processFrame 1 (dataFrame 1 0x68))
      (answering [.ok, .fail 1] [⟨[.writeFrame 1 (dataFrame 1 0x68)], .ok⟩] (registered 1 (link 2 8)))) =
      some [.sink (ackFrame 1) .ok, .callback 1 7 (dataFrame 1 0x68) 5 .ok, .sink (dataFrame 1 0x68) (.fail 1),
        .ret (.status .outputBufferTooSmall), .ret (.headStatus false .ok)] := by decide

/-! ### The Link (R207, R208, R230 to R237) -/

theorem test_getChannel : observed (exec (.getChannel 2) (link 2 8)) = some [.ret (.slot none)] ∧
    observed (exec (.getChannel 1) (link 2 8)) = some [.ret (.slot (some 1))] := by decide
theorem test_write_sinkFails :
    observed (exec (.write [0x00, 0x00, 0x9F, 0xFF]) (answering [.fail 1] [] (link 1 8))) =
      some [.sink [0x00, 0x00, 0x9F, 0xFF] (.fail 1), .ret (.status .outputBufferTooSmall)] := by decide
theorem test_id : observed (exec (.id 1) (link 2 8)) = some [.ret (.chanId 1)] := by decide
theorem test_sendWindow : observed (exec (.sendWindow 1) (link 2 8)) = some [.ret (.window 8)] := by decide
theorem test_setCallback : exec (.setCallback 1 (some 7)) (link 2 8) = .next (emit (.ret .unit) (registered 1 (link 2 8))) :=
  rfl
theorem test_init : exec (.init ⟨2, 8, none, true, false⟩) State.powerOn = .next (emit (.ret (.status .ok)) (link 2 8)) :=
  rfl
theorem test_init_tooMany :
    exec (.init ⟨8192, 8, none, true, false⟩) State.powerOn =
      .next (emit (.ret (.status .invalidParameter)) State.powerOn) := rfl
theorem test_close : (next? (exec .close (link 2 8))).map (·.linkState) = some .closed := by decide
theorem test_destroy : (next? (exec .destroy (link 2 8))).map (fun t => (t.linkState, t.chans)) =
    some (.uninitialized, []) := rfl

/-- A step fetches from the port, and the table's word of `close` runs as the first instruction after reset. -/
theorem test_step_close : step (State.reset.withFetchWord 8 0x15) =
    exec .close { State.reset with env := ⟨[.ok], [], []⟩ } := rfl

/-! ### Witnesses: concrete states and operands that meet the hypotheses of each statement -/

/-- What a procedure answers, if it does. -/
def answer? {α : Type} : Res α → Option (α × State)
  | .next p => some p
  | .fault _ => none
  | .refused _ => none

/-- How an outcome stops, if it does. -/
def stop? {α : Type} : Host.Outcome α Fault Refusal → Option (Fault ⊕ Refusal)
  | .next _ => none
  | .fault e => some (.inl e)
  | .refused e => some (.inr e)

/-- Slot 0 with a given window and queue, on a Link of two channels. -/
def queued (w : Window) (q : List Bytes) : State := slot 0 (fun c => { c with window := w, queue := q }) (link 2 8)

/-- The same slot as a value. -/
def chan (w : Window) (q : List Bytes) : Channel := ⟨0, w, q, none⟩

/-- The Link with a finite queue. -/
def bounded (n : Nat) (s : State) : State := { s with cfg := { s.cfg with queueCap := some n } }

theorem witness_HeaderOperationsResult : ([0x00, 0x05, 0x61] : Bytes).length < 4 := by decide

theorem witness_FrameTotalLengthResult : ([0x00, 0x05, 0x61] : Bytes).length < 4 := by decide

theorem witness_PayloadResult :
    frameWf (headerBytes 1 ⟨false, false, true⟩ 2 ++ [0x68, 0x69]) = true ∧
    frameWf (headerBytes 1 ⟨true, false, false⟩ 0x1234 ++ []) = true := by decide

theorem witness_MakeFrameResult :
    0xFFFC < (List.replicate 0xFFFD 0#8).length ∧
    (([0x41] : Bytes).length ≤ 0xFFFC ∧ hasPayload ⟨true, true, false⟩ = false ∧ ([0x41] : Bytes) ≠ []) ∧
    ((List.replicate 0xFFFC 0#8).length ≤ 0xFFFC ∧ hasPayload ⟨false, true, false⟩ = true) ∧
    (([] : Bytes).length ≤ 0xFFFC ∧ hasPayload ⟨true, true, false⟩ = false) := by
  refine ⟨?_, by decide, ⟨?_, by decide⟩, by decide⟩
  · rw [List.length_replicate]; decide
  · rw [List.length_replicate]

theorem witness_ZigzagOperationsResult :
    0 ≤ (0x7FFFFFFFFFFFFFFF : Word64).toInt ∧ (0x8000000000000000 : Word64).toInt < 0 ∧ 0 ≤ (0 : Word64).toInt ∧
    decodeUint [0x80] 0 = .error .incompleteNumber ∧ decodeUint [0x7E] 0 = .ok (126, 1) ∧
    decodeUint [0x7F] 0 = .ok (127, 1) := by decide

theorem witness_DecodeUintResult :
    (∀ b ∈ ([0xAC, 0x02] : Bytes).drop 2, b.getLsbD 7 = true) ∧ (∀ b ∈ ([0x80] : Bytes).drop 0, b.getLsbD 7 = true) ∧
    ([0xFF, 0xAC, 0x02, 0x05] : Bytes).drop 1 = [0xAC] ++ 0x02 :: [0x05] ∧
    (∀ b ∈ ([0xAC] : Bytes), b.getLsbD 7 = true) ∧ (0x02 : Byte).getLsbD 7 = false := by decide

theorem witness_VarintByteForms :
    decodeUint [] 0 = .error .incompleteNumber ∧ decodeUint [0x02, 0xFF] 0 = .ok (2, 1) := by decide

theorem witness_LengthOperationsResult :
    ([0x05] : Bytes).drop 1 = [] ∧ (([0x7F] : Bytes).drop 0 = 0x7F :: [] ∧ (0x7F : Byte).toNat < 128) ∧
    (([0x80] : Bytes).drop 0 = [0x80] ∧ 128 ≤ (0x80 : Byte).toNat) ∧
    (([0x80, 0x80] : Bytes).drop 0 = 0x80 :: 0x80 :: [] ∧ 128 ≤ (0x80 : Byte).toNat) := by decide

theorem witness_LengthAndTextRoundTrip :
    (0x7FFF ≤ 0x7FFF ∧ 0 ≤ 0x7FFF) ∧ (([0x41] : Bytes) ≠ [] ∧ ([0x41] : Bytes).length ≤ 0x7FFF) ∧
    (List.replicate 0x7FFF 0#8 ≠ [] ∧ (List.replicate 0x7FFF 0#8).length ≤ 0x7FFF) := by
  refine ⟨by decide, by decide, fun h => ?_, ?_⟩
  · have := congrArg List.length h
    rw [List.length_replicate] at this
    exact absurd this (by decide)
  · rw [List.length_replicate]

theorem witness_TextOperationsResult :
    0x7FFF < (List.replicate 0x8000 0#8).length ∧ (([0x41] : Bytes) ≠ [] ∧ ([0x41] : Bytes).length ≤ 0x7FFF) ∧
    decodeLength [0x81] 0 = .error .incompleteLength ∧
    (decodeLength [0x00] 0 = .ok (0, 1) ∧ ([0x00] : Bytes).length < 1 + max 0 1) ∧
    (decodeLength [0x00, 0x41] 0 = .ok (0, 1) ∧ 1 + max 0 1 ≤ ([0x00, 0x41] : Bytes).length) ∧
    (decodeLength [0x02, 0x41] 0 = .ok (2, 1) ∧ ([0x02, 0x41] : Bytes).length < 1 + max 2 1) ∧
    (decodeLength [0x02, 0x68, 0x69] 0 = .ok (2, 1) ∧ 1 + max 2 1 ≤ ([0x02, 0x68, 0x69] : Bytes).length) := by
  refine ⟨?_, by decide, ?_⟩
  · rw [List.length_replicate]; decide
  · decide

theorem witness_CodecOperationsArePure : isCodec (.encodeUint 0) = true ∧ isCodec (.textChar1 0 []) = true := by decide

theorem witness_WriteFrameEntryChecks :
    (link 2 8).linkState = .active ∧ ([0x00, 0x00, 0x60] : Bytes).length < 4 ∧
    (4 ≤ ([0xFF, 0xFD, 0x20, 0x00] : Bytes).length ∧ 0x10000 < totalLength [0xFF, 0xFD, 0x20, 0x00]) ∧
    (4 ≤ ([0x00, 0x02, 0x60, 0x00, 0x41] : Bytes).length ∧ totalLength [0x00, 0x02, 0x60, 0x00, 0x41] ≤ 0x10000 ∧
      ([0x00, 0x02, 0x60, 0x00, 0x41] : Bytes).length ≠ totalLength [0x00, 0x02, 0x60, 0x00, 0x41]) ∧
    (frameWf (ackFrame 1) = true ∧ (link 2 8).chans[0]? = some (chan 8 []) ∧ frameId (ackFrame 1) ≠ (chan 8 []).chanId) ∧
    (frameWf (ackFrame 1) = true ∧ (link 2 8).chans[2]? = none) := by decide

theorem witness_WriteFrameSendsWhenWindowOpen :
    (queued 1 []).linkState = .active ∧ (queued 1 []).chans[0]? = some (chan 1 []) ∧
    frameWf (dataFrame 0 0x41) = true ∧ frameId (dataFrame 0 0x41) = (chan 1 []).chanId ∧ (chan 1 []).queue = [] ∧
    1 ≤ (chan 1 []).window.toInt := by decide

theorem witness_WriteFrameQueuesWhenWindowClosed :
    (queued 0 [dataFrame 0 0x42]).linkState = .active ∧
    (queued 0 [dataFrame 0 0x42]).chans[0]? = some (chan 0 [dataFrame 0 0x42]) ∧
    frameWf finalFrame = true ∧ frameId finalFrame = (chan 0 []).chanId ∧
    isFinal (frameFlags (dataFrame 0 0x42)) = false ∧ (chan 0 []).window.toInt < 1 ∧
    ((bounded 1 (queued 0 [dataFrame 0 0x42])).cfg.queueCap = some 1 ∧ 1 ≤ (chan 0 [dataFrame 0 0x42]).queue.length) ∧
    ((bounded 2 (queued 0 [dataFrame 0 0x42])).cfg.queueCap = some 2 ∧ (chan 0 [dataFrame 0 0x42]).queue.length < 2) ∧
    (queued 0 [dataFrame 0 0x42]).cfg.queueCap = none := by decide

theorem witness_DrainSendsAllowedFront :
    (answering [.ok, .ok] [] (queued 1 [dataFrame 0 0x42, finalFrame])).chans[0]? =
      some (chan 1 [dataFrame 0 0x42, finalFrame]) ∧
    (answering [.ok, .ok] [] (queued 1 [dataFrame 0 0x42, finalFrame])).env.sink =
      List.replicate (chan 1 [dataFrame 0 0x42, finalFrame]).queue.length .ok ++ [] := by decide

theorem witness_DrainStopsAtSinkFailure :
    (answering [.fail 1] [] (queued 1 [dataFrame 0 0x42])).chans[0]? = some (chan 1 [dataFrame 0 0x42]) ∧
    1 ≤ (chan 1 [dataFrame 0 0x42]).window.toInt ∧
    (drawSink (answering [.fail 1] [] (queued 1 [dataFrame 0 0x42]))).1 = .fail 1 ∧
    ((queued 0 [finalFrame]).chans[0]? = some (chan 0 [finalFrame]) ∧ isFinal (frameFlags finalFrame) = true) ∧
    (let q := [dataFrame 0 0x42, finalFrame] ++ dataFrame 0 0x43 :: [ackFrame 0]
     let s := answering [.ok, .ok, .fail 1, .ok] [] (queued 2 q)
     s.chans[0]? = some (chan 2 q) ∧
     (nonFinalCount ([dataFrame 0 0x42, finalFrame] ++ [dataFrame 0 0x43]) : Int) ≤ (chan 2 q).window.toInt ∧
     s.env.sink = List.replicate 2 .ok ++ .fail 1 :: [.ok]) ∧
    (let q := [finalFrame] ++ finalFrame :: []
     (answering [.ok, .fail 1] [] (queued 0 q)).chans[0]? = some (chan 0 q) ∧
     nonFinalCount ([finalFrame] ++ [finalFrame]) = 0) := by
  decide

theorem witness_DrainAlwaysReturns : (link 2 8).chans[0]? = some (chan 8 []) := by decide

theorem witness_WriteFrameAfterDrain :
    (link 2 8).linkState = .active ∧ frameWf (dataFrame 0 0x41) = true ∧ frameId (dataFrame 0 0x41) = (chan 1 []).chanId ∧
    (answer? (drain 0 (answering [.fail 1] [] (queued 1 [dataFrame 0 0x42])))).map (fun r => r.1) =
      some .outputBufferTooSmall ∧
    (answer? (drain 0 (answering [.ok] [] (queued 2 [dataFrame 0 0x42])))).map (fun r => (r.1, r.2.chans[0]?)) =
      some (.ok, some (chan 1 [])) ∧
    (answer? (drain 0 (answering [.ok] [] (queued 1 [dataFrame 0 0x42])))).map (fun r => (r.1, r.2.chans[0]?)) =
      some (.ok, some (chan 0 [])) ∧
    (answer? (drain 0 (bounded 1 (queued 0 [dataFrame 0 0x42])))).map (fun r => (r.1, r.2.chans[0]?, r.2.cfg.queueCap)) =
      some (.ok, some (chan 0 [dataFrame 0 0x42]), some 1) := by decide

theorem witness_ChannelOperationsLeaveRest :
    (next? (exec (.writeFrame 0 (dataFrame 0 0x41)) (answering [.ok] [] (link 2 8)))).isSome = true ∧
    ((link 2 8).chans[0]? = some (chan 8 []) ∧ (chan 8 []).callback = none ∧ hasPayload (frameFlags (ackFrame 0)) = false ∧
      (next? (exec (.processFrame 0 (ackFrame 0)) (link 2 8))).isSome = true ∧
      (next? (exec (.processFrame 0 (dataFrame 0 0x41)) (answering [.ok] [] (link 2 8)))).isSome = true) := by
  decide

theorem witness_WriteFrameConservation :
    let s := answering [.ok, .ok] [] (queued 1 [dataFrame 0 0x42])
    s.linkState = .active ∧ s.chans[0]? = some (chan 1 [dataFrame 0 0x42]) ∧ frameWf (dataFrame 0 0x41) = true ∧
    frameId (dataFrame 0 0x41) = (chan 1 []).chanId ∧ 0 ≤ (chan 1 []).window.toInt ∧ s.cfg.queueCap = none ∧
    s.env.sink = List.replicate ((chan 1 [dataFrame 0 0x42]).queue.length + 1) .ok ++ [] := by decide

theorem witness_SlotOperationsResult :
    (link 2 8).linkState ≠ .uninitialized ∧ (link 2 8).chans[0]? = some (chan 8 []) ∧ 1 < (link 2 8).cfg.nChannels ∧
    (link 2 8).cfg.nChannels ≤ 2 := by decide

theorem witness_NoSlotFaults : (link 2 8).chans[2]? = none ∧ (link 2 8).linkState ≠ .uninitialized ∧
    (link 2 8).linkState = .active := by decide

theorem witness_WriteGoesToSink : (link 2 8).linkState = .active := rfl

theorem witness_NoPayloadFrameIsCredit :
    (link 2 8).linkState = .active ∧ (link 2 8).chans[0]? = some (chan 8 []) ∧ frameWf (ackFrame 0) = true ∧
    frameId (ackFrame 0) = (chan 8 []).chanId ∧ hasPayload (frameFlags (ackFrame 0)) = false ∧ (chan 8 []).queue = [] ∧
    (answer? (drain 0 (setChannel 0 (chan 9 []) (link 2 8)))).isSome = true ∧
    (answer? (drain 0 (setChannel 0 (chan 0x7FFF []) (link 2 0x7FFF)))).isSome = true := by decide

theorem witness_CreditReleasesOldestFrame :
    let s := answering [.ok] [] (queued 0 [dataFrame 0 0x42, dataFrame 0 0x43])
    s.linkState = .active ∧ s.chans[0]? = some (chan 0 [dataFrame 0 0x42, dataFrame 0 0x43]) ∧
    frameWf finalFrame = true ∧ frameId finalFrame = (chan 0 []).chanId ∧ hasPayload (frameFlags finalFrame) = false ∧
    isFinal (frameFlags (dataFrame 0 0x42)) = false ∧ isFinal (frameFlags (dataFrame 0 0x43)) = false ∧
    s.env.sink = .ok :: [] := by decide

theorem witness_PayloadFrameAckedWithoutCallback :
    (link 2 8).linkState = .active ∧ (link 2 8).chans[0]? = some (chan 8 []) ∧ frameWf (dataFrame 0 0x41) = true ∧
    frameId (dataFrame 0 0x41) = (chan 8 []).chanId ∧ hasPayload (frameFlags (dataFrame 0 0x41)) = true ∧
    (chan 8 []).callback = none := by decide

theorem witness_AckPrecedesCallback :
    let s := answering [.ok] [⟨[], .fail (-7)⟩] (registered 0 (link 2 8))
    let c : Channel := ⟨0, 8, [], some 7⟩
    s.linkState = .active ∧ s.chans[0]? = some c ∧ frameWf (dataFrame 0 0x41) = true ∧
    frameId (dataFrame 0 0x41) = c.chanId ∧ hasPayload (frameFlags (dataFrame 0 0x41)) = true ∧
    (drawSink s).1 = .ok ∧
    (drawCallback (afterSinkWrite (headerBytes c.chanId ⟨true, false, false⟩ 0) s)).1 = ⟨[], .fail (-7)⟩ ∧
    s.env.sink = .ok :: [] ∧ s.env.callback = ⟨[], .fail (-7)⟩ :: [] := by decide

theorem witness_FailedAckSuppressesCallback :
    let s := answering [.fail 1] [] (registered 0 (link 2 8))
    s.linkState = .active ∧ s.chans[0]? = some ⟨0, 8, [], some 7⟩ ∧ frameWf (dataFrame 0 0x41) = true ∧
    frameId (dataFrame 0 0x41) = 0 ∧ hasPayload (frameFlags (dataFrame 0 0x41)) = true ∧ (drawSink s).1 = .fail 1 := by
  decide

theorem witness_CallbackMaySubmit :
    let s := answering [.ok, .fail 1] [⟨[.writeFrame 1 (dataFrame 1 0x42)], .ok⟩] (registered 0 (link 2 1))
    s.linkState = .active ∧ s.chans[0]? = some ⟨0, 1, [], some 7⟩ ∧ frameWf (dataFrame 0 0x41) = true ∧
    frameId (dataFrame 0 0x41) = 0 ∧ hasPayload (frameFlags (dataFrame 0 0x41)) = true ∧
    s.chans[1]? = some ⟨1, 1, [], none⟩ ∧ frameWf (dataFrame 1 0x42) = true ∧ frameId (dataFrame 1 0x42) = 1 ∧
    1 ≤ (1 : Window).toInt ∧ s.env.sink = .ok :: .fail 1 :: [] ∧
    s.env.callback = ⟨[.writeFrame 1 (dataFrame 1 0x42)], .ok⟩ :: [] := by decide

theorem witness_CallbackMaySubmit_refused :
    callbackMayInvoke (.write []) = true ∧
    (let s := answering [.ok] [⟨[.id 0] ++ .recv none :: [.close], .ok⟩] (registered 0 (link 2 1))
     s.env.sink = .ok :: [] ∧ s.env.callback = ⟨[.id 0] ++ .recv none :: [.close], .ok⟩ :: [] ∧
     (answer? (runInCallback [.id 0]
       { s with env := { s.env with sink := [], callback := [] },
                trace := s.trace ++ [.sink (ackFrame 0) .ok, .callback 0 7 (dataFrame 0 0x41) 5 .ok] })).isSome = true ∧
     [Instr.recv none, .close, .destroy, .init LinkConfig.typical, .processFrame 0 [], .frameAck 0 0].map
       callbackMayInvoke = List.replicate 6 false) := by decide

theorem witness_ProcessFramePreconditions :
    State.powerOn.linkState = .uninitialized ∧ ({ link 2 8 with linkState := .closed } : State).linkState = .closed ∧
    ((link 2 8).linkState = .active ∧ (link 2 8).chans[0]? = some (chan 8 []) ∧
      frameWf [0x00, 0x01, 0xC0, 0x00, 0x41] = false) ∧
    (frameWf (ackFrame 1) = true ∧ frameId (ackFrame 1) ≠ (chan 8 []).chanId) := by decide

theorem witness_RecvKeepsPartialFrame :
    (link 2 8).linkState = .active ∧ (link 2 8).cur + ([0x00, 0x00, 0x80] : Bytes).length < 4 ∧
    (let s := stored [0x00, 0x02, 0x20, 0x01] (link 2 8)
     s.linkState = .active ∧ Memory.readRange (stored [0x68] s).rbuf 0 4 = some [0x00, 0x02, 0x20, 0x01] ∧
     4 ≤ s.cur + ([0x68] : Bytes).length ∧ s.cur + ([0x68] : Bytes).length < totalLength [0x00, 0x02, 0x20, 0x01] ∧
     totalLength [0x00, 0x02, 0x20, 0x01] ≤ 0x10000) := by decide

/-- The header completes in the input: exactly its four bytes, and from a header begun earlier with a payload byte
behind it, the longest payload. -/
theorem witness_RecvKeepsPartialFrame_header :
    (let inp : Bytes := [0x00, 0x01, 0x20, 0x01]
     4 ≤ (link 2 8).cur + inp.length ∧ Memory.readRange (stored inp (link 2 8)).rbuf 0 4 = some inp ∧
     (link 2 8).cur + inp.length < totalLength inp ∧ totalLength inp ≤ 0x10000) ∧
    (let s := stored [0xFF, 0xFC] (link 2 8)
     let inp : Bytes := [0x20, 0x01, 0x68]
     s.linkState = .active ∧ s.cur < 4 ∧ 4 ≤ s.cur + inp.length ∧
     Memory.readRange (stored inp s).rbuf 0 4 = some [0xFF, 0xFC, 0x20, 0x01] ∧
     s.cur + inp.length < totalLength [0xFF, 0xFC, 0x20, 0x01] ∧ totalLength [0xFF, 0xFC, 0x20, 0x01] ≤ 0x10000) := by
  decide

theorem witness_OverlongFrameIsFatal :
    (link 2 8).linkState = .active ∧ (link 2 8).cur = 0 ∧ hasPayload ⟨false, false, true⟩ = true ∧
    0xFFFC < (0xFFFD : Size16).toNat ∧
    payloadKind (.frameHead 0xFFFD 0 []) = some (⟨false, false, true⟩, 0xFFFD, 0, []) ∧
    arrivedFront (headerBytes 0 ⟨false, false, true⟩ 0xFFFD) (link 2 8) ∧
    (stored [0xFF, 0xFD, 0x20] (link 2 8)).linkState = .active ∧
    arrivedFront (headerBytes 0 ⟨false, false, true⟩ 0xFFFD) (stored [0xFF, 0xFD, 0x20] (link 2 8)) := by
  unfold arrivedFront; decide

theorem witness_NoPayloadKindsArrive :
    noPayloadKind (.frameFinal 0xFFFF 1) = some (⟨true, true, false⟩, 0xFFFF, 1) ∧ (link 2 8).linkState = .active ∧
    (link 2 8).cur = 0 ∧ (1 : ChanId).toNat < (link 2 8).cfg.nChannels ∧ (1 : ChanId).toNat ≠ 0x1FFF ∧
    (link 2 8).chans[1]? = some ⟨1, 8, [], none⟩ ∧
    (answer? (drain 0 (setChannel 0 (chan 1 [dataFrame 0 0x42])
      (stored (headerBytes 0 ⟨true, false, false⟩ 0) (answering [.ok] [] (queued 0 [dataFrame 0 0x42])))))).map
        (fun r => r.1) = some .ok ∧
    (answer? (drain 0 (setChannel 0 (chan 1 [dataFrame 0 0x42])
      (stored (headerBytes 0 ⟨true, false, false⟩ 0) (answering [.fail 1] [] (queued 0 [dataFrame 0 0x42])))))).map
        (fun r => r.1) = some .outputBufferTooSmall := by decide

/-- A callback's answer and what its nested operations give, on a `BODY` frame that arrives for channel 0. -/
def callbackRun (sink : List SinkStatus) (reply : CallbackReply) : CallbackReply × Res Unit :=
  let s := answering sink [reply] (registered 0 (link 2 8))
  let acked := afterSinkWrite (headerBytes 0 ⟨true, false, false⟩ 0) (stored (dataFrame 0 0x41) s)
  let (r, s1) := drawCallback acked
  (r, runInCallback r.calls (emit (.callback 0 7 (dataFrame 0 0x41) 5 r.answer) s1))

/-- A callback's answer and the Link after its nested operations, for the four cases of `PayloadKindsArrive`. -/
def callbackCase (sink : List SinkStatus) (reply : CallbackReply) : Option (CallbackReply × LinkState) :=
  (answer? (callbackRun sink reply).2).map fun p => ((callbackRun sink reply).1, p.2.linkState)

theorem witness_PayloadKindsArrive :
    payloadKind (.frameBody 1 0 [0x41]) = some (⟨false, true, false⟩, 1, 0, [0x41]) ∧
    ([0x41] : Bytes).length = (1 : Size16).toNat ∧ (1 : Size16).toNat ≤ 0xFFFC ∧ (link 2 8).linkState = .active ∧
    (link 2 8).cur = 0 ∧ (0 : ChanId).toNat < (link 2 8).cfg.nChannels ∧ (link 2 8).chans[0]? = some (chan 8 []) ∧
    (drawSink (answering [.fail 1] [] (link 2 8))).1 ≠ .ok ∧ (drawSink (answering [.ok] [] (link 2 8))).1 = .ok ∧
    callbackCase [.ok] ⟨[], .ok⟩ = some (⟨[], .ok⟩, .active) ∧
    callbackCase [.ok] ⟨[], .fail 2⟩ = some (⟨[], .fail 2⟩, .active) ∧
    callbackCase [.ok, .fail 1] ⟨[.write []], .ok⟩ = some (⟨[.write []], .ok⟩, .failed) ∧
    callbackCase [.ok, .fail 1] ⟨[.write []], .fail 2⟩ = some (⟨[.write []], .fail 2⟩, .failed) ∧
    stop? (callbackRun [.ok] ⟨[.close], .ok⟩).2 = some (.inr .notInCallback) ∧
    stop? (callbackRun [.ok] ⟨[.id 2], .ok⟩).2 = some (.inl (.noSlot 2)) := by decide

theorem witness_ControlFrameIsFatal :
    (link 2 8).linkState = .active ∧ (link 2 8).cur = 0 ∧
    (([] : Bytes).length = if hasPayload ⟨true, true, true⟩ then (0xFFFF : Size16).toNat else 0) ∧
    (([0x41] : Bytes).length = if hasPayload ⟨false, true, false⟩ then (1 : Size16).toNat else 0) ∧
    (1 : Size16).toNat ≤ 0xFFFC ∧
    (let frame : Bytes := [0x00, 0x01, 0x5F, 0xFF, 0x41]
     frameWf frame = true ∧ (frameId frame).toNat = 0x1FFF ∧ arrivedFront frame (link 2 8) ∧
     arrivedFront frame (stored [0x00, 0x01, 0x5F, 0xFF] (link 2 8))) := by unfold arrivedFront; decide

theorem witness_OutOfRangeIdIsFatal :
    (link 2 8).linkState = .active ∧ arrivedFront (ackFrame 2) (link 2 8) ∧
    arrivedFront (ackFrame 2) (stored [0x00, 0x00] (link 2 8)) ∧ frameWf (ackFrame 2) = true ∧
    (link 2 8).cfg.nChannels ≤ (frameId (ackFrame 2)).toNat := by unfold arrivedFront; decide

theorem witness_CompleteFrameIsRouted :
    (link 2 8).linkState = .active ∧ arrivedFront (ackFrame 0) (link 2 8) ∧
    arrivedFront (ackFrame 0) (stored [0x00, 0x00, 0x80] (link 2 8)) ∧ frameWf (ackFrame 0) = true ∧
    (answer? (route (ackFrame 0) (stored (ackFrame 0) (link 2 8)))).map (fun r => (r.1, r.2.linkState)) =
      some (.ok, .active) ∧
    (answer? (feed [] (frameBoundary (link 2 8)))).map (fun r => r.1) = some (.ok, 0) ∧
    (answer? (feed (ackFrame 2) (frameBoundary (link 2 8)))).map (fun r => r.1) = some (.invalidChannelId, 0) ∧
    (answer? (route (ackFrame 2) (stored (ackFrame 2) (link 2 8)))).map (fun r => (r.1, r.2.linkState)) =
      some (.invalidChannelId, .failed) ∧
    (answer? (route (dataFrame 0 1) (stored (dataFrame 0 1)
      (answering [.ok] [⟨[], .fail 2⟩] (registered 0 (link 2 8)))))).map (fun r => (r.1, r.2.linkState)) =
      some (.callbackError 2, .active) := by unfold arrivedFront; decide

/-- A frame whose callback stops, and one behind a frame that is routed. -/
theorem witness_CompleteFrameIsRouted_stop :
    let s := answering [.ok] [⟨[.close], .ok⟩] (registered 0 (link 2 8))
    arrivedFront (dataFrame 0 1) s ∧
    stop? (route (dataFrame 0 1) (stored (dataFrame 0 1) s)) = some (.inr .notInCallback) ∧
    stop? (feed (dataFrame 0 1) (frameBoundary s)) = some (.inr .notInCallback) ∧
    stop? (route (dataFrame 0 1) (stored (dataFrame 0 1)
      (answering [.ok] [⟨[.id 2], .ok⟩] (registered 0 (link 2 8))))) = some (.inl (.noSlot 2)) := by unfold arrivedFront; decide

theorem witness_CallbackFailureIsNotFatal :
    let s := answering [.ok] [⟨[], .fail (-7)⟩] (registered 0 (link 2 8))
    s.linkState = .active ∧ arrivedFront (dataFrame 0 0xAA) s ∧
    arrivedFront (dataFrame 0 0xAA) (stored [0x00, 0x01, 0x40, 0x00] s) ∧ frameWf (dataFrame 0 0xAA) = true ∧
    hasPayload (frameFlags (dataFrame 0 0xAA)) = true ∧ (frameId (dataFrame 0 0xAA)).toNat < s.cfg.nChannels ∧
    (frameId (dataFrame 0 0xAA)).toNat ≠ 0x1FFF ∧ s.chans[0]? = some ⟨0, 8, [], some 7⟩ ∧ s.env.sink = .ok :: [] ∧
    s.env.callback = ⟨[], .fail (-7)⟩ :: [] := by unfold arrivedFront; decide

theorem witness_inv : (link 2 8).Inv := by
  refine ⟨by decide, by decide, fun _ => ⟨by decide, by decide, by decide, by decide⟩, fun _ => by decide⟩

theorem witness_FragmentationInvariance :
    (link 2 8).Inv ∧ (link 2 8).linkState = .active ∧
    (answer? (feed [0x00, 0x00, 0x80] (link 2 8))).map (fun r => r.1) = some (.ok, 3) ∧
    ((answer? (feed [0x00, 0x00, 0x80] (link 2 8))).bind fun r => (answer? (feed [0x00, 0x00] r.2)).map fun q => q.1) =
      some (.ok, 2) := by
  refine ⟨witness_inv, rfl, ?_⟩
  decide

theorem witness_RecvConsumedCount :
    (link 2 8).linkState = .active ∧ (answer? (feed (ackFrame 0) (link 2 8))).map (fun r => r.1) = some (.ok, 4) ∧
    (answer? (feed (ackFrame 0 ++ ackFrame 2) (link 2 8))).map (fun r => r.1) = some (.invalidChannelId, 4) ∧
    stop? (feed (dataFrame 0 1) (answering [.ok] [⟨[.close], .ok⟩] (registered 0 (link 2 8)))) =
      some (.inr .notInCallback) ∧
    stop? (feed (dataFrame 0 1) (answering [.ok] [⟨[.id 2], .ok⟩] (registered 0 (link 2 8)))) =
      some (.inl (.noSlot 2)) := by
  decide

theorem witness_InitResult :
    (let cfg : LinkConfig := ⟨8191, 32767, none, true, false⟩
     State.powerOn.linkState = .uninitialized ∧ 1 ≤ cfg.nChannels ∧ cfg.nChannels ≤ 8191 ∧ 1 ≤ cfg.wMax ∧
     cfg.wMax ≤ 32767 ∧ cfg.sink = true ∧ cfg.channelInit = false) ∧
    (⟨0, 8, none, true, false⟩ : LinkConfig).nChannels < 1 ∧ 8191 < (⟨8192, 8, none, true, false⟩ : LinkConfig).nChannels ∧
    (⟨2, 0, none, true, false⟩ : LinkConfig).wMax < 1 ∧ 32767 < (⟨2, 32768, none, true, false⟩ : LinkConfig).wMax ∧
    (⟨2, 8, none, false, false⟩ : LinkConfig).sink = false ∧ (link 2 8).linkState ≠ .uninitialized := by decide

theorem witness_ChannelInitOncePerSlot :
    let s : State := { State.powerOn with env := ⟨[], [], [[.setCallback 0 (some 7)], [.setCallback 1 (some 8)]]⟩ }
    let cfg : LinkConfig := ⟨2, 8, none, true, true⟩
    let handle : Nat → Word64 := fun i => BitVec.ofNat 64 (7 + i)
    s.linkState = .uninitialized ∧ 1 ≤ cfg.nChannels ∧ cfg.nChannels ≤ 8191 ∧ 1 ≤ cfg.wMax ∧ cfg.wMax ≤ 32767 ∧
    cfg.sink = true ∧ cfg.channelInit = true ∧ (answer? (channelInits 2 0 (construct cfg s))).isSome = true ∧
    s.env.channelInit = (List.range cfg.nChannels).map (fun i => [.setCallback i (some (handle i))]) := by decide

/-- The second slot's upcall registers on its own slot and then on the first. -/
theorem witness_ChannelInitOncePerSlot_refused :
    let calls : List Instr := [.setCallback 1 (some 8)] ++ .setCallback 0 (some 9) :: []
    let s : State := { State.powerOn with env := ⟨[], [], [[], calls]⟩ }
    let after := channelInits 1 0 (construct ⟨2, 8, none, true, true⟩ s)
    (answer? after).map (fun r => r.2.env.channelInit) = some [calls] ∧
    ((answer? after).bind fun r => answer? (runInChannelInit 1 [.setCallback 1 (some 8)]
      (emit (.channelInit 1) { r.2 with env := { r.2.env with channelInit := [] } }))).isSome = true ∧
    channelInitMayInvoke 1 (.setCallback 0 (some 9)) = false ∧ channelInitMayInvoke 1 .close = false ∧
    channelInitMayInvoke 1 (.encodeUint 0) = false ∧ (link 2 8).chans[1]? = some ⟨1, 8, [], none⟩ := by decide

theorem witness_CloseAndDestroyResult :
    (link 2 8).linkState ≠ .uninitialized ∧ State.powerOn.linkState = .uninitialized := by decide

theorem witness_InactiveLinkAnswersLinkNotActive :
    ({ link 2 8 with linkState := .failed } : State).linkState = .failed ∧
    ({ link 2 8 with linkState := .closed } : State).linkState = .closed ∧
    noPayloadKind (.frameAck 0 1) = some (⟨true, false, false⟩, 0, 1) ∧
    payloadKind (.frameBody 1 0 [0x41]) = some (⟨false, true, false⟩, 1, 0, [0x41]) := by decide

theorem witness_UninitializedLinkRefuses :
    State.powerOn.linkState = .uninitialized ∧ isCodec .close = false ∧ Instr.close ≠ .destroy := by decide

theorem witness_LinkStateTransitions :
    (next? (exec (.recv (some (ackFrame 2))) (link 2 8))).map (·.linkState) = some .failed ∧
    (next? (exec .close (link 2 8))).map (·.linkState) = some .closed := by decide

theorem witness_LinkStateTransitions_init : (next? (exec (.init ⟨2, 8, none, true, false⟩) State.powerOn)).map
    (·.linkState) = some .active ∧ (next? (exec .destroy (link 2 8))).map (·.linkState) = some .uninitialized :=
  ⟨rfl, rfl⟩

theorem witness_ConfigAndIdsFixed : (next? (exec (.frameAck 0 1) (link 2 8))).isSome = true := by decide

theorem witness_DecodeEncode :
    (Instr.frameHeadBody 1 0x1FFE [0x41]).wf = true ∧ (Instr.routeControl ⟨false, true, false⟩ 0xFFFF []).wf = true ∧
    (Instr.init ⟨2 ^ 32 - 1, 8, some 0, true, false⟩).wf = true := by decide

theorem witness_DecodeSound : decode ⟨.operation, [0x15]⟩ = .ok .close := by decide

theorem witness_StepRunsDecodedInstruction :
    (State.reset.withFetchWord 8 0x15).port = [⟨⟨.operation, [0x15]⟩, ⟨[.ok], [], []⟩⟩] ∧
    decode ⟨.operation, [0x15]⟩ = .ok .close ∧ decode ⟨.operation, [0xFF]⟩ = .error .selectorTooWide ∧
    State.reset.port = [] := by decide

theorem witness_StepKeepsInvariant :
    (link 2 8).Inv ∧ (next? (step ((link 2 8).withFetchWord 32 0x00008000))).isSome = true :=
  ⟨witness_inv, by decide⟩

theorem witness_NoUnwrittenRead : (link 2 8).Inv := witness_inv

end Sys2Proof.Tests
end

section
/-! The command port and one step (R8, R9): what `takeCommand` and `step` do with an empty port and with a next
command. -/

namespace Sys2Proof.Machine

variable {s : State} {c : Command} {rest : List Command}

theorem takeCommand_of_port_nil (hport : s.port = []) : takeCommand s = none := by
  simp only [takeCommand, hport]

theorem takeCommand_of_port_cons (hport : s.port = c :: rest) :
    takeCommand s = some (c.words, { s with port := rest, env := c.env }) := by
  simp only [takeCommand, hport]

theorem step_of_port_nil (hport : s.port = []) : step s = .next s := by
  simp only [step, takeCommand_of_port_nil hport]

theorem step_of_decode_ok {i : Instr} (hport : s.port = c :: rest) (hdecode : decode c.words = .ok i) :
    step s = exec i { s with port := rest, env := c.env } := by
  simp only [step, takeCommand_of_port_cons hport, hdecode]

theorem step_of_decode_error {e : DecodeError} (hport : s.port = c :: rest) (hdecode : decode c.words = .error e) :
    step s = .refused (.undecodable e) := by
  simp only [step, takeCommand_of_port_cons hport, hdecode]

/-- Settles O57: one clause per answer of the port and the decoder. -/
theorem stepRunsDecodedInstruction : Obligations.StepRunsDecodedInstruction :=
  ⟨fun _ _ _ _ hport hdecode => step_of_decode_ok hport hdecode,
    fun _ _ _ _ hport hdecode => step_of_decode_error hport hdecode,
    fun _ hport => step_of_port_nil hport⟩

end Sys2Proof.Machine
end

section
/-! What one instruction can do to the state: the instructions by kind, and what each kind keeps. -/

namespace Sys2Proof.Machine

/-! ### The instructions by kind -/

/-- An instruction is one a callback may invoke, an arrival on the inbound stream, a direct `process_frame`, or one of
the three that construct and end a Link. -/
theorem instr_kinds (i : Instr) :
    callbackMayInvoke i = true ∨ (∃ inp, ∀ s, exec i s = execRecv inp s) ∨ (∃ k frame, i = .processFrame k frame) ∨
      (∃ cfg, i = .init cfg) ∨ i = .close ∨ i = .destroy := by
  cases i
  case frameNone | frameHead | frameBody | frameHeadBody | frameAck | frameFlowHead | frameFinal | frameFinalHead |
      routeControl | recv =>
    exact .inr (.inl ⟨_, fun _ => rfl⟩)
  case processFrame k frame => exact .inr (.inr (.inl ⟨k, frame, rfl⟩))
  case init cfg => exact .inr (.inr (.inr (.inl ⟨cfg, rfl⟩)))
  case close => exact .inr (.inr (.inr (.inr (.inl rfl))))
  case destroy => exact .inr (.inr (.inr (.inr (.inr rfl))))
  all_goals exact .inl rfl

/-- Inside a callback the allowed operations have the meaning they have outside (R66 (a)). -/
theorem execInCallback_eq_exec {i : Instr} (h : callbackMayInvoke i = true) (s : State) :
    execInCallback i s = exec i s := by
  cases i <;> simp only [callbackMayInvoke, Bool.false_eq_true] at h <;> rfl

/-- Outside an `Active` Link no operation of a callback changes `LINK_STATE`. -/
theorem execInCallback_linkState {i : Instr} {s t : State} (h : execInCallback i s = .next t)
    (hs : s.linkState ≠ .active) : t.linkState = s.linkState := by
  cases i <;> simp only [execInCallback, reduceCtorEq] at h
  case writeFrame j frame =>
    obtain ⟨v, u, hr, rfl⟩ := returns_eq_next.mp h
    rw [(writeFrame_next hr).2 hs, emit_linkState]
  case write str =>
    obtain ⟨v, u, hr, rfl⟩ := returns_eq_next.mp h
    rw [(write_next hr).2 hs, emit_linkState]
  case getChannel k =>
    obtain ⟨v, u, hr, rfl⟩ := returns_eq_next.mp h
    obtain ⟨-, hr⟩ := whenConstructed_eq_next.mp hr
    cases hr
    rfl
  case id j | sendWindow j =>
    obtain ⟨v, u, hr, rfl⟩ := returns_eq_next.mp h
    obtain ⟨-, hr⟩ := whenConstructed_eq_next.mp hr
    obtain ⟨c, -, hr⟩ := withChannel_eq_next.mp hr
    cases hr
    rfl
  case setCallback j cb =>
    obtain ⟨v, u, hr, rfl⟩ := returns_eq_next.mp h
    obtain ⟨-, hr⟩ := whenConstructed_eq_next.mp hr
    exact (registerCallback_next hr).2
  all_goals
    cases h
    rfl

/-- A codec operation outputs a value that its operands alone give. -/
theorem exec_codec {i : Instr} (h : isCodec i = true) : ∃ r, ∀ s, exec i s = returnsPure r s := by
  cases i <;> simp only [isCodec, Bool.false_eq_true] at h <;> exact ⟨_, fun _ => rfl⟩

/-- Settles O17: every codec operation is `returnsPure` of its output. -/
theorem codecOperationsArePure : Obligations.CodecOperationsArePure := fun _ h => exec_codec h

/-! ### Direct calls on a channel -/

/-- A direct `process_frame` that answers has met its preconditions (R202). -/
theorem execProcessFrame_next {i : Nat} {frame : Bytes} {s t : State} (h : execProcessFrame i frame s = .next t) :
    s.linkState = .active ∧ ∃ c r u, s.chans[i]? = some c ∧ processFrame i frame s = .next (r, u) ∧
      t = emit (.ret (.headStatus r.1 r.2)) u := by
  unfold execProcessFrame at h
  split at h
  case h_4 hact =>
    obtain ⟨r, u, hr, rfl⟩ := returns_eq_next.mp h
    obtain ⟨c, hc, hr⟩ := withChannel_eq_next.mp hr
    split at hr
    · cases hr
    · split at hr
      · cases hr
      · exact ⟨hact, c, r, u, hc, hr, rfl⟩
  all_goals cases h

/-! ### The reassembler -/

/-- `t` is `s` but for `RBUF`, `CUR`, and what `KeepsLink` lets change. -/
def KeepsSlots (s t : State) : Prop := KeepsLink { s with rbuf := t.rbuf, cur := t.cur } t

theorem KeepsLink.withBuffer {s t : State} (h : KeepsLink s t) (m : List Host.Cell) (k : Nat) :
    KeepsLink { s with rbuf := m, cur := k } { t with rbuf := m, cur := k } :=
  ⟨rfl, rfl, h.cfg, h.port, h.ids, h.link, h.sound⟩

theorem KeepsLink.keepsSlots {s t : State} (h : KeepsLink s t) : KeepsSlots s t := h.withBuffer t.rbuf t.cur

theorem KeepsSlots.trans {s t u : State} (h : KeepsSlots s t) (k : KeepsSlots t u) : KeepsSlots s u :=
  (KeepsLink.withBuffer h u.rbuf u.cur).trans k

theorem keepsSlots_stored (x : Bytes) (s : State) : KeepsSlots s (stored x s) := by
  unfold KeepsSlots
  rw [← stored_keeps]
  exact KeepsLink.refl _

theorem keepsSlots_frameBoundary (s : State) : KeepsSlots s (frameBoundary s) := KeepsLink.refl (frameBoundary s)

theorem readBuffer_eq_next {a n : Nat} {s : State} {k : Bytes → Res (Status × Nat)} {x : (Status × Nat) × State} :
    readBuffer a n s k = .next x ↔ ∃ str, Memory.readRange s.rbuf a n = some str ∧ k str = .next x := by
  unfold readBuffer
  cases Memory.readRange s.rbuf a n <;> simp

/-- What one round of the reassembler can answer, whatever the state: it has stored a front of the input, and the Link
may then have failed; or a frame went to `route` behind that, and the rounds end there or go on with the rest. -/
theorem feedLoop_next {n fuel fs : Nat} {x : Bytes} {s : State} {r : Status × Nat} {t : State}
    (h : feedLoop n (fuel + 1) fs x s = .next (r, t)) :
    (∃ k, t = stored (x.take k) s ∨ t = { stored (x.take k) s with linkState := .failed }) ∨
    ∃ k frame st u, route frame (stored (x.take k) s) = .next (st, u) ∧
      (t = u ∨ t = frameBoundary u ∨ ∃ fs', feedLoop n fuel fs' (x.drop k) (frameBoundary u) = .next (r, t)) := by
  simp only [feedLoop, fill_eq, ← stored_append, List.drop_drop, ← List.take_add] at h
  split at h
  · cases h
    exact .inl ⟨0, .inl rfl⟩
  split at h
  · cases h
    exact .inl ⟨_, .inl rfl⟩
  obtain ⟨hdr, -, h⟩ := readBuffer_eq_next.mp h
  split at h
  · cases h
    exact .inl ⟨_, .inr rfl⟩
  split at h
  · cases h
    exact .inl ⟨_, .inl rfl⟩
  obtain ⟨frame, -, h⟩ := readBuffer_eq_next.mp h
  obtain ⟨st, u, hroute, h⟩ := andThen_eq_next.mp h
  refine .inr ⟨_, frame, st, u, hroute, ?_⟩
  split at h
  · cases h
    exact .inl rfl
  split at h
  · cases h
    exact .inr (.inl rfl)
  · exact .inr (.inr ⟨_, h⟩)

/-- The reassembler writes `RBUF` and `CUR`; what it dispatches keeps the Link. -/
theorem feedLoop_keepsSlots {n fuel fs : Nat} {x : Bytes} {s : State} {r : Status × Nat} {t : State}
    (h : feedLoop n fuel fs x s = .next (r, t)) : KeepsSlots s t := by
  induction fuel generalizing fs x s with
  | zero =>
    cases h
    exact KeepsLink.refl _
  | succ fuel ih =>
    rcases feedLoop_next h with ⟨k, rfl | rfl⟩ | ⟨k, frame, st, u, hroute, hend⟩
    · exact keepsSlots_stored _ _
    · exact (keepsSlots_stored (x.take k) s).trans (keepsLink_fail _).keepsSlots
    · have hu : KeepsSlots s u := (keepsSlots_stored (x.take k) s).trans (route_next hroute).keepsSlots
      rcases hend with rfl | rfl | ⟨fs', hrest⟩
      · exact hu
      · exact hu.trans (keepsSlots_frameBoundary u)
      · exact (hu.trans (keepsSlots_frameBoundary u)).trans (ih hrest)

/-- What `recv` can answer: it leaves a Link that is not `Active` as it is. -/
theorem recv_next {inp : Option Bytes} {s : State} {r : Status × Nat} {t : State} (h : recv inp s = .next (r, t)) :
    KeepsSlots s t ∧ (s.linkState ≠ .active → t = s) := by
  rcases whenActive_eq_next.mp h with ⟨hact, h⟩ | ⟨-, h⟩
  · refine ⟨?_, fun hn => absurd hact hn⟩
    cases inp with
    | none =>
      cases h
      exact KeepsLink.refl s
    | some str => exact feedLoop_keepsSlots h
  · cases h
    exact ⟨KeepsLink.refl s, fun _ => rfl⟩

/-! ### Every instruction -/

theorem closeLink_next {s : State} {u : Unit} {t : State} (h : closeLink s = .next (u, t)) :
    s.linkState ≠ .uninitialized ∧ t = { s with linkState := .closed } := by
  obtain ⟨hs, h⟩ := whenConstructed_eq_next.mp h
  cases h
  exact ⟨hs, rfl⟩

/-- What `destroy` can answer: nothing changes before `init`, and otherwise no slot and no byte of `RBUF` is left. -/
theorem destroyLink_next {s : State} {u : Unit} {t : State} (h : destroyLink s = .next (u, t)) :
    t.linkState = .uninitialized ∧ t.cfg = s.cfg ∧
      (t = s ∨ (t.rbuf = [] ∧ t.chans = [] ∧ t.cur = (Config.unspecifiedCur s.draws).val)) := by
  unfold destroyLink at h
  split at h
  case isTrue hs =>
    cases h
    exact ⟨hs, rfl, .inl rfl⟩
  case isFalse =>
    cases h
    exact ⟨rfl, rfl, .inr ⟨rfl, rfl, rfl⟩⟩

/-- Every instruction but `init` and `destroy` keeps the configuration and the slots' IDs. -/
theorem exec_keeps_cfg_ids {i : Instr} {s t : State} (h : exec i s = .next t) (hinit : ∀ cfg, i ≠ .init cfg)
    (hdestroy : i ≠ .destroy) : t.cfg = s.cfg ∧ t.chans.map (·.chanId) = s.chans.map (·.chanId) := by
  rcases instr_kinds i with hcb | ⟨inp, hrecv⟩ | ⟨k, frame, rfl⟩ | ⟨cfg, rfl⟩ | rfl | rfl
  · rw [← execInCallback_eq_exec hcb] at h
    have hk := execInCallback_next h
    exact ⟨hk.cfg, hk.ids⟩
  · rw [hrecv] at h
    obtain ⟨r, u, hr, rfl⟩ := returns_eq_next.mp h
    have hk := (recv_next hr).1
    exact ⟨hk.cfg, hk.ids⟩
  · obtain ⟨-, c, r, u, -, hr, rfl⟩ := execProcessFrame_next h
    have hk := processFrame_next hr
    exact ⟨hk.cfg, hk.ids⟩
  · exact absurd rfl (hinit cfg)
  · obtain ⟨v, u, hr, rfl⟩ := returns_eq_next.mp h
    rw [(closeLink_next hr).2]
    exact ⟨rfl, rfl⟩
  · exact absurd rfl hdestroy

/-- Settles O53: `destroy` keeps the configuration, and every other instruction but `init` the IDs too. -/
theorem configAndIdsFixed : Obligations.ConfigAndIdsFixed := by
  intro i s t h
  refine ⟨fun hinit => ?_, fun hinit hdestroy => (exec_keeps_cfg_ids h hinit hdestroy).2⟩
  by_cases hdestroy : i = .destroy
  · subst hdestroy
    obtain ⟨v, u, hr, rfl⟩ := returns_eq_next.mp h
    exact (destroyLink_next hr).2.1
  · exact (exec_keeps_cfg_ids h hinit hdestroy).1

end Sys2Proof.Machine
end

section
/-! What a channel operation leaves unchanged (R20): `write_frame`, and `process_frame` where no callback runs. -/

namespace Sys2Proof.Machine

theorem keepsAllBut_refl (i : Nat) (s : State) : keepsAllBut i s s :=
  ⟨fun _ => rfl, rfl, rfl, rfl, fun _ _ => rfl, rfl⟩

theorem keepsAllBut_emit {i : Nat} {s t : State} (e : Event) (h : keepsAllBut i s t) : keepsAllBut i s (emit e t) := h

/-- An operation that keeps the Link and replaces slot `i` by one with the same ID and callback. -/
theorem KeepsLink.keepsAllBut_of_set {i : Nat} {c d : Channel} {s t : State} (hk : KeepsLink s t)
    (hc : s.chans[i]? = some c) (hset : t.chans = s.chans.set i d) (hid : d.chanId = c.chanId)
    (hcb : d.callback = c.callback) : keepsAllBut i s t := by
  have hi : i < s.chans.length := (List.getElem?_eq_some_iff.mp hc).1
  refine ⟨fun a => by rw [hk.rbuf], hk.cur, hk.cfg, hk.port, fun j hj => ?_, ?_⟩
  · rw [hset, List.getElem?_set_ne (Ne.symm hj)]
  · rw [hset, List.getElem?_set_self hi, hc, Option.map_some, Option.map_some, hid, hcb]

/-- A `SinkWrite` changes no slot at all. -/
theorem keepsAllBut_afterSinkWrite (i : Nat) (str : Bytes) (s : State) : keepsAllBut i s (afterSinkWrite str s) :=
  ⟨fun a => by rw [afterSinkWrite_rbuf], afterSinkWrite_cur str s, afterSinkWrite_cfg str s, afterSinkWrite_port str s,
    fun j _ => by rw [afterSinkWrite_chans], by rw [afterSinkWrite_chans]⟩

theorem writeFrame_keepsAllBut {i : Nat} {frame : Bytes} {s : State} {st : Status} {t : State}
    (h : writeFrame i frame s = .next (st, t)) : keepsAllBut i s t := by
  rcases whenActive_eq_next.mp h with ⟨-, h⟩ | ⟨-, h⟩
  · rcases writeFrameActive_next h with ⟨-, rfl⟩ | ⟨c, hc, hwf, hid, hsubmit⟩
    · exact keepsAllBut_refl i t
    · obtain ⟨hk, -, d, hset, hdid, hdcb⟩ := submit_next hc hwf hid hsubmit
      exact hk.keepsAllBut_of_set hc hset hdid hdcb
  · cases h
    exact keepsAllBut_refl i s

/-- Credit and drain of a slot always answers, and changes of the slot its window and queue only. -/
theorem creditAndDrain_eq {i : Nat} {c : Channel} {s : State} (hc : s.chans[i]? = some c) :
    ∃ st t q w, creditAndDrain i s = .next (st, t) ∧ t.chans = s.chans.set i { c with queue := q, window := w } := by
  obtain ⟨st, t, sent, kept, w, hdrain, -, -, hset, -⟩ :=
    drain_spec (setChannel_get_same i c { c with window := creditWindow c.window } s hc)
  refine ⟨st, t, kept, w, ?_, ?_⟩
  · rw [creditAndDrain, withChannel_some hc, hdrain]
  · rw [hset, setChannel_chans, List.set_set]

theorem creditAndDrain_keepsAllBut {i : Nat} {c : Channel} {s : State} {st : Status} {t : State}
    (hc : s.chans[i]? = some c) (h : creditAndDrain i s = .next (st, t)) : keepsAllBut i s t := by
  obtain ⟨st', t', q, w, heq, hset⟩ := creditAndDrain_eq hc
  cases heq.symm.trans h
  exact (creditAndDrain_next h).1.keepsAllBut_of_set hc hset rfl rfl

/-- On a channel without a callback a payload frame is acked and nothing else happens. -/
theorem ackAndNotify_keepsAllBut {i : Nat} {frame : Bytes} {c : Channel} {s : State} {r : Bool × Status} {t : State}
    (hc : s.chans[i]? = some c) (hcb : c.callback = none) (hp : hasPayload (frameFlags frame) = true)
    (h : ackAndNotify i frame s = .next (r, t)) : keepsAllBut i s t := by
  have hback : callbackInvocation i frame (afterSinkWrite (makeAck c.chanId) s) =
      .next (.ok, afterSinkWrite (makeAck c.chanId) s) := by
    rw [callbackInvocation, withChannel_some (by rw [afterSinkWrite_chans]; exact hc), hcb]
  unfold ackAndNotify at h
  rw [isFinal_of_hasPayload hp, if_neg Bool.false_ne_true, ackEmission_eq hc, andThen_next, hback, andThen_next] at h
  split at h <;> cases h <;> exact keepsAllBut_afterSinkWrite i _ s

theorem processFrame_keepsAllBut {i : Nat} {frame : Bytes} {c : Channel} {s : State} {r : Bool × Status} {t : State}
    (hc : s.chans[i]? = some c) (hquiet : hasPayload (frameFlags frame) = false ∨ c.callback = none)
    (h : processFrame i frame s = .next (r, t)) : keepsAllBut i s t := by
  unfold processFrame at h
  split at h
  case isTrue hp => exact ackAndNotify_keepsAllBut hc (hquiet.resolve_left (by rw [hp]; decide)) hp h
  case isFalse =>
    obtain ⟨st, u, hcredit, h⟩ := andThen_eq_next.mp h
    cases h
    exact creditAndDrain_keepsAllBut hc hcredit

/-- Settles O25: `write_frame` ends in a submission, `process_frame` in a credit or an ack; each writes one slot at
most. -/
theorem channelOperationsLeaveRest : Obligations.ChannelOperationsLeaveRest := by
  constructor
  · intro i frame s t h
    obtain ⟨st, u, hw, rfl⟩ := returns_eq_next.mp h
    exact keepsAllBut_emit _ (writeFrame_keepsAllBut hw)
  · intro i frame c s t hc hquiet h
    obtain ⟨-, d, r, u, -, hp, rfl⟩ := execProcessFrame_next h
    exact keepsAllBut_emit _ (processFrame_keepsAllBut hc hquiet hp)

end Sys2Proof.Machine
end

section
/-! The machine's invariant, and the reads of `RBUF` (R25): every meaning keeps the invariant, and from a state that
meets it none reads a byte that was never written. -/

namespace Sys2Proof.Machine

/-! ### The invariant in parts -/

/-- What the invariant says of a Link that exists, but for the phase of the reassembler. It does not speak of
`LINK_STATE`. -/
structure LinkSound (s : State) : Prop where
  canonical : Memory.wf s.rbuf = true
  curLe : s.cur ≤ maxFrame
  legal : configLegal s.cfg = true
  slots : s.chans.length = s.cfg.nChannels
  sound : slotsSound s
  filled : bufferFilled s.rbuf s.cur = true

theorem State.Inv.linkSound {s : State} (h : s.Inv) (hs : s.linkState ≠ .uninitialized) : LinkSound s := by
  obtain ⟨hwf, hcur, hlink, -⟩ := h
  obtain ⟨hlegal, hslots, hsound, hfilled⟩ := hlink hs
  exact ⟨hwf, hcur, hlegal, hslots, hsound, hfilled⟩

theorem State.Inv.phase {s : State} (h : s.Inv) (hs : s.linkState = .active) : phaseSound s = true := by
  obtain ⟨-, -, -, hphase⟩ := h
  exact hphase hs

theorem LinkSound.inv {s : State} (h : LinkSound s) (hphase : s.linkState = .active → phaseSound s = true) : s.Inv :=
  ⟨h.canonical, h.curLe, fun _ => ⟨h.legal, h.slots, h.sound, h.filled⟩, hphase⟩

theorem inv_of_uninitialized {s : State} (hs : s.linkState = .uninitialized) (hwf : Memory.wf s.rbuf = true)
    (hcur : s.cur ≤ maxFrame) : s.Inv :=
  ⟨hwf, hcur, fun h => absurd hs h, fun h => by rw [hs] at h; cases h⟩

theorem inv_emit {s : State} (e : Event) (h : s.Inv) : (emit e s).Inv := h

theorem KeepsLink.linkSound {s t : State} (h : KeepsLink s t) (hs : LinkSound s) : LinkSound t where
  canonical := by rw [h.rbuf]; exact hs.canonical
  curLe := by rw [h.cur]; exact hs.curLe
  legal := by rw [h.cfg]; exact hs.legal
  slots := by rw [h.length, h.cfg]; exact hs.slots
  sound := h.sound hs.sound
  filled := by rw [h.rbuf, h.cur]; exact hs.filled

theorem LinkSound.withLinkState {s : State} (h : LinkSound s) (l : LinkState) : LinkSound { s with linkState := l } :=
  ⟨h.canonical, h.curLe, h.legal, h.slots, h.sound, h.filled⟩

theorem phaseSound_congr {s t : State} (hr : t.rbuf = s.rbuf) (hc : t.cur = s.cur) : phaseSound t = phaseSound s := by
  unfold phaseSound
  rw [hr, hc]

/-- What keeps the Link keeps the invariant, if only an `Active` Link fails. -/
theorem KeepsLink.inv {s t : State} (h : KeepsLink s t) (hl : s.linkState ≠ .active → t.linkState = s.linkState)
    (hs : s.Inv) : t.Inv := by
  by_cases hu : s.linkState = .uninitialized
  · have ht : t.linkState = .uninitialized := by rw [hl (by rw [hu]; decide), hu]
    obtain ⟨hwf, hcur, -, -⟩ := hs
    exact inv_of_uninitialized ht (by rw [h.rbuf]; exact hwf) (by rw [h.cur]; exact hcur)
  · refine (h.linkSound (hs.linkSound hu)).inv fun ht => ?_
    rw [phaseSound_congr h.rbuf h.cur]
    rcases h.link with he | he
    · exact hs.phase (he.symm.trans ht)
    · rw [ht] at he
      cases he

theorem linkSound_stored {s : State} {x : Bytes} (h : LinkSound s) (hle : s.cur + x.length ≤ maxFrame) :
    LinkSound (stored x s) where
  canonical := stored_wf h.canonical hle
  curLe := by rw [stored_cur]; exact hle
  legal := by rw [stored_cfg]; exact h.legal
  slots := by rw [stored_chans, stored_cfg]; exact h.slots
  sound := (slotsSound_congr (stored_cfg x s) (stored_chans x s)).mpr h.sound
  filled := stored_filled h.filled

theorem linkSound_frameBoundary {s : State} (h : LinkSound s) : LinkSound (frameBoundary s) :=
  ⟨h.canonical, Nat.zero_le _, h.legal, h.slots, h.sound, rfl⟩

theorem phaseSound_frameBoundary (s : State) : phaseSound (frameBoundary s) = true :=
  phaseSound_iff.mpr (.inl (Nat.zero_lt_succ 3))

theorem linkSound_construct {cfg : LinkConfig} (hlegal : configLegal cfg = true) (s : State) :
    LinkSound (construct cfg s) where
  canonical := rfl
  curLe := Nat.zero_le _
  legal := hlegal
  slots := freshChannels_length _ _ _
  sound := by
    obtain ⟨-, hn, -, hw, -⟩ := configLegal_iff.mp hlegal
    exact freshChannels_sound hw (by omega)
  filled := rfl

/-! ### Meanings that read no unwritten byte -/

/-- An outcome other than the fault of an unwritten byte. -/
def ReadsWritten {α : Type} (o : Host.Outcome α Fault Refusal) : Prop := ∀ a, o ≠ .fault (.unwrittenRead a)

@[simp] theorem readsWritten_next {α : Type} (x : α) : ReadsWritten (.next x) := nofun

@[simp] theorem readsWritten_refused {α : Type} (e : Refusal) :
    ReadsWritten (.refused e : Host.Outcome α Fault Refusal) := nofun

theorem ReadsWritten.andThen {α β : Type} {r : Res α} {k : α → State → Res β} (hr : ReadsWritten r)
    (hk : ∀ v s, r = .next (v, s) → ReadsWritten (k v s)) : ReadsWritten (andThen r k) := by
  intro a h
  rcases andThen_eq_fault.mp h with h | ⟨v, s, hv, h⟩
  · exact hr a h
  · exact hk v s hv a h

theorem ReadsWritten.withChannel {α : Type} {i : Nat} {s : State} {k : Channel → Res α}
    (hk : ∀ c, s.chans[i]? = some c → ReadsWritten (k c)) : ReadsWritten (withChannel i s k) := by
  intro a h
  rcases withChannel_eq_fault.mp h with ⟨-, h⟩ | ⟨c, hc, h⟩
  · cases h
  · exact hk c hc a h

theorem ReadsWritten.whenActive {α : Type} {v : α} {s : State} {r : Res α} (hr : ReadsWritten r) :
    ReadsWritten (whenActive v s r) :=
  fun a h => hr a (whenActive_eq_fault.mp h).2

theorem ReadsWritten.whenConstructed {α : Type} {s : State} {r : Res α} (hr : ReadsWritten r) :
    ReadsWritten (whenConstructed s r) :=
  fun a h => hr a (whenConstructed_eq_fault.mp h).2

theorem ReadsWritten.returns {α : Type} {out : α → Ret} {r : Res α} (hr : ReadsWritten r) :
    ReadsWritten (returns out r) :=
  fun a h => hr a (returns_eq_fault.mp h)

theorem ReadsWritten.orRefused {α : Type} {c : Prop} [Decidable c] {o : Host.Outcome α Fault Refusal} {e : Refusal}
    (ho : ReadsWritten o) : ReadsWritten (if c then o else .refused e) := by
  split
  · exact ho
  · exact readsWritten_refused e

theorem readsWritten_sinkStatus (st : SinkStatus) (s : State) : ReadsWritten (sinkStatus st s) := by
  cases st <;> exact readsWritten_next _

theorem readsWritten_drain (i : Nat) (s : State) : ReadsWritten (drain i s) :=
  .withChannel fun c hc => by
    obtain ⟨st, t, sent, kept, w, hdrain, -⟩ := drainLoop_spec hc rfl
    rw [hdrain]
    exact readsWritten_next _

theorem readsWritten_enqueue (i : Nat) (frame : Bytes) (s : State) : ReadsWritten (enqueue i frame s) :=
  .withChannel fun c _ => by split <;> simp

theorem readsWritten_submit (i : Nat) (frame : Bytes) (s : State) : ReadsWritten (submit i frame s) := by
  refine (readsWritten_drain i s).andThen fun st s1 _ => ?_
  split
  · exact readsWritten_next _
  · refine .withChannel fun c hc => ?_
    split
    · rw [transmit_eq hc]
      exact readsWritten_next _
    · exact readsWritten_enqueue i frame s1

theorem readsWritten_writeFrame (i : Nat) (frame : Bytes) (s : State) : ReadsWritten (writeFrame i frame s) := by
  refine .whenActive ?_
  unfold writeFrameActive
  split_ifs
  · exact readsWritten_next _
  · exact readsWritten_next _
  · exact readsWritten_next _
  · refine .withChannel fun c _ => ?_
    split
    · exact readsWritten_next _
    · exact readsWritten_submit i frame s

theorem readsWritten_registerCallback (i : Nat) (cb : Option Word64) (s : State) :
    ReadsWritten (registerCallback i cb s) :=
  .withChannel fun _ _ => readsWritten_next _

theorem readsWritten_readId (i : Nat) (s : State) : ReadsWritten (readId i s) :=
  .withChannel fun _ _ => readsWritten_next _

theorem readsWritten_readWindow (i : Nat) (s : State) : ReadsWritten (readWindow i s) :=
  .withChannel fun _ _ => readsWritten_next _

theorem readsWritten_execInCallback (i : Instr) (s : State) : ReadsWritten (execInCallback i s) := by
  cases i
  case writeFrame j frame => exact (readsWritten_writeFrame j frame s).returns
  case write str => exact (readsWritten_sinkStatus _ _).whenActive.returns
  case getChannel k => exact (readsWritten_next _).whenConstructed.returns
  case id j => exact (readsWritten_readId j s).whenConstructed.returns
  case sendWindow j => exact (readsWritten_readWindow j s).whenConstructed.returns
  case setCallback j cb => exact (readsWritten_registerCallback j cb s).whenConstructed.returns
  all_goals exact nofun

theorem readsWritten_runInCallback (calls : List Instr) (s : State) : ReadsWritten (runInCallback calls s) := by
  induction calls generalizing s with
  | nil => exact readsWritten_next _
  | cons i rest ih =>
    have hi := readsWritten_execInCallback i s
    unfold runInCallback
    split
    · exact ih _
    · rename_i e he
      exact fun a h => hi a (by rw [he]; cases h; rfl)
    · exact readsWritten_refused _

theorem readsWritten_execInChannelInit (slot : Nat) (i : Instr) (s : State) :
    ReadsWritten (execInChannelInit slot i s) := by
  cases i
  case setCallback j cb => exact (readsWritten_registerCallback j cb s).returns.orRefused
  case id j => exact (readsWritten_readId j s).returns.orRefused
  case sendWindow j => exact (readsWritten_readWindow j s).returns.orRefused
  all_goals exact readsWritten_refused _

theorem readsWritten_runInChannelInit (slot : Nat) (calls : List Instr) (s : State) :
    ReadsWritten (runInChannelInit slot calls s) := by
  induction calls generalizing s with
  | nil => exact readsWritten_next _
  | cons i rest ih =>
    have hi := readsWritten_execInChannelInit slot i s
    unfold runInChannelInit
    split
    · exact ih _
    · rename_i e he
      exact fun a h => hi a (by rw [he]; cases h; rfl)
    · exact readsWritten_refused _

theorem readsWritten_channelInits (k i : Nat) (s : State) : ReadsWritten (channelInits k i s) := by
  induction k generalizing i s with
  | zero => exact readsWritten_next _
  | succ k ih => exact (readsWritten_runInChannelInit _ _ _).andThen fun _ t _ => ih (i + 1) t

theorem readsWritten_initLink (cfg : LinkConfig) (s : State) : ReadsWritten (initLink cfg s) := by
  unfold initLink
  split
  · exact readsWritten_refused _
  split
  · exact readsWritten_next _
  refine .andThen ?_ fun _ _ _ => readsWritten_next _
  split
  · exact readsWritten_channelInits _ _ _
  · exact readsWritten_next _

theorem readsWritten_callbackInvocation (i : Nat) (frame : Bytes) (s : State) :
    ReadsWritten (callbackInvocation i frame s) := by
  refine .withChannel fun c _ => ?_
  split
  · exact readsWritten_next _
  · exact (readsWritten_runInCallback _ _).andThen fun _ _ _ => readsWritten_next _

theorem readsWritten_ackAndNotify (i : Nat) (frame : Bytes) (s : State) : ReadsWritten (ackAndNotify i frame s) := by
  refine .andThen ?_ fun st s1 _ => ?_
  · split
    · exact readsWritten_next _
    · exact .withChannel fun _ _ => readsWritten_sinkStatus _ _
  · split
    · exact readsWritten_next _
    · exact (readsWritten_callbackInvocation i frame s1).andThen fun _ _ _ => readsWritten_next _

theorem readsWritten_processFrame (i : Nat) (frame : Bytes) (s : State) : ReadsWritten (processFrame i frame s) := by
  unfold processFrame
  split
  · exact readsWritten_ackAndNotify i frame s
  · exact (ReadsWritten.withChannel fun c _ => readsWritten_drain i _).andThen fun _ _ _ => readsWritten_next _

theorem readsWritten_execProcessFrame (i : Nat) (frame : Bytes) (s : State) :
    ReadsWritten (execProcessFrame i frame s) := by
  unfold execProcessFrame
  split
  case h_4 =>
    refine (ReadsWritten.withChannel fun c _ => ?_).returns
    split_ifs
    · exact readsWritten_refused _
    · exact readsWritten_refused _
    · exact readsWritten_processFrame i frame s
  all_goals exact readsWritten_refused _

theorem readsWritten_route (frame : Bytes) (s : State) : ReadsWritten (route frame s) := by
  unfold route
  split_ifs
  · exact readsWritten_next _
  · exact (readsWritten_processFrame _ frame s).andThen fun _ _ _ => readsWritten_next _
  · exact readsWritten_next _

/-! ### The reassembler -/

/-- A procedure that ends in a state that meets the invariant or stops, and reads no unwritten byte. -/
structure EndsSound {α : Type} (o : Res α) : Prop where
  inv : ∀ v t, o = .next (v, t) → t.Inv
  reads : ReadsWritten o

theorem endsSound_next {α : Type} {v : α} {t : State} (h : t.Inv) : EndsSound (.next (v, t)) where
  inv := by
    rintro v' t' ⟨⟩
    exact h
  reads := readsWritten_next _

theorem EndsSound.andThen {α β : Type} {r : Res α} {k : α → State → Res β} (hr : ReadsWritten r)
    (hk : ∀ v s, r = .next (v, s) → EndsSound (k v s)) : EndsSound (andThen r k) where
  inv := fun v t h => by
    obtain ⟨w, s, hw, h⟩ := andThen_eq_next.mp h
    exact (hk w s hw).inv v t h
  reads := hr.andThen fun v s h => (hk v s h).reads

/-- The header phase ends within the buffer. -/
theorem linkSound_stored_header {s : State} (h : LinkSound s) (x : Bytes) :
    LinkSound (stored (x.take (4 - s.cur)) s) := by
  have hcur : s.cur ≤ 0x10000 := h.curLe
  refine linkSound_stored h ?_
  rw [List.length_take]
  show _ ≤ 0x10000
  omega

/-- The bytes of an incomplete frame leave the reassembler in its payload phase. -/
theorem phaseSound_stored_partial {x hdr : Bytes} {s : State} (h4 : 4 ≤ s.cur + x.length)
    (hhdr : headerAfter x s = some hdr) (hle : totalLength hdr ≤ maxFrame)
    (hpart : s.cur + x.length < totalLength hdr) : phaseSound (stored x s) = true := by
  have hread := headerAfter_eq (x := x) h4
  rw [List.take_length, hhdr] at hread
  exact phaseSound_iff.mpr (.inr ⟨hdr, hread, by rw [stored_cur]; exact hpart, hle⟩)

/-- The rounds of the reassembler (R188) from a sound Link in one of the two phases: each ends before the frame is
complete, with the Link failed, or at a frame boundary. -/
theorem feedLoop_endsSound {n fuel fs : Nat} {x : Bytes} {s : State} (hs : LinkSound s) (hph : phaseSound s = true) :
    EndsSound (feedLoop n fuel fs x s) := by
  induction fuel generalizing fs x s with
  | zero => exact endsSound_next (hs.inv fun _ => hph)
  | succ fuel ih =>
    by_cases hx : x = []
    · rw [hx, feedLoop_nil]
      exact endsSound_next (hs.inv fun _ => hph)
    rcases round_cases hs.filled hph with
      hshort | ⟨hdr, h4, hhdr, hcur, ⟨-, hlong⟩ | ⟨hle, hpart⟩ | ⟨hle, hfull, frame, hread, -, -⟩⟩
    · rw [feedLoop_header hshort]
      refine endsSound_next ((linkSound_stored hs ?_).inv fun _ => phaseSound_iff.mpr (.inl ?_))
      · exact Nat.le_trans (Nat.le_of_lt hshort) (by decide)
      · rw [stored_cur]
        exact hshort
    · rw [feedLoop_overlong hx h4 hhdr hlong]
      exact endsSound_next (((linkSound_stored_header hs x).withLinkState .failed).inv nofun)
    · rw [feedLoop_partial h4 hhdr hle hpart]
      refine endsSound_next ((linkSound_stored hs (by omega)).inv fun _ => ?_)
      exact phaseSound_stored_partial h4 hhdr hle hpart
    · rw [feedLoop_frame hx (Nat.le_of_lt hcur) hhdr hle hfull hread]
      refine .andThen (readsWritten_route _ _) fun st u hroute => ?_
      have hu : LinkSound u := (route_next hroute).linkSound (linkSound_stored hs (by rw [List.length_take]; omega))
      split
      case isTrue hfailed => exact endsSound_next (hu.inv fun h => by rw [hfailed] at h; cases h)
      case isFalse =>
        split
        · exact endsSound_next ((linkSound_frameBoundary hu).inv fun _ => phaseSound_frameBoundary u)
        · exact ih (linkSound_frameBoundary hu) (phaseSound_frameBoundary u)

theorem recv_endsSound (inp : Option Bytes) {s : State} (hs : s.Inv) : EndsSound (recv inp s) := by
  cases hl : s.linkState with
  | uninitialized =>
    unfold recv
    rw [whenActive_uninitialized hl]
    exact ⟨nofun, nofun⟩
  | active =>
    unfold recv
    rw [whenActive_active hl]
    cases inp with
    | none => exact endsSound_next hs
    | some str => exact feedLoop_endsSound (hs.linkSound (by rw [hl]; decide)) (hs.phase hl)
  | closed =>
    unfold recv
    rw [whenActive_inactive (.inl hl)]
    exact endsSound_next hs
  | failed =>
    unfold recv
    rw [whenActive_inactive (.inr hl)]
    exact endsSound_next hs

/-! ### Every instruction and every step -/

theorem initLink_inv {cfg : LinkConfig} {s : State} {st : Status} {t : State} (hs : s.Inv)
    (h : initLink cfg s = .next (st, t)) : t.Inv := by
  obtain ⟨-, ⟨-, -, rfl⟩ | ⟨hlegal, -, -, u, hk, rfl⟩⟩ := initLink_next h
  · exact hs
  · have hu : LinkSound u := hk.linkSound (linkSound_construct hlegal s)
    have hcur : u.cur < 4 := by
      rw [hk.cur]
      exact Nat.zero_lt_succ 3
    exact (hu.withLinkState .active).inv fun _ => phaseSound_iff.mpr (.inl hcur)

theorem closeLink_inv {s : State} {v : Unit} {t : State} (hs : s.Inv) (h : closeLink s = .next (v, t)) : t.Inv := by
  obtain ⟨hl, rfl⟩ := closeLink_next h
  exact ((hs.linkSound hl).withLinkState .closed).inv nofun

theorem destroyLink_inv {s : State} {v : Unit} {t : State} (hs : s.Inv) (h : destroyLink s = .next (v, t)) :
    t.Inv := by
  obtain ⟨hl, -, rfl | ⟨hrbuf, -, hcur⟩⟩ := destroyLink_next h
  · exact hs
  · refine inv_of_uninitialized hl (by rw [hrbuf]; rfl) ?_
    rw [hcur]
    exact Nat.le_of_lt_succ (Config.unspecifiedCur s.draws).isLt

/-- Every instruction keeps the invariant. -/
theorem exec_inv {i : Instr} {s t : State} (hs : s.Inv) (h : exec i s = .next t) : t.Inv := by
  rcases instr_kinds i with hcb | ⟨inp, hrecv⟩ | ⟨k, frame, rfl⟩ | ⟨cfg, rfl⟩ | rfl | rfl
  · rw [← execInCallback_eq_exec hcb] at h
    exact (execInCallback_next h).inv (execInCallback_linkState h) hs
  · rw [hrecv] at h
    obtain ⟨r, u, hr, rfl⟩ := returns_eq_next.mp h
    exact inv_emit _ ((recv_endsSound inp hs).inv r u hr)
  · obtain ⟨hact, c, r, u, -, hr, rfl⟩ := execProcessFrame_next h
    exact inv_emit _ ((processFrame_next hr).inv (absurd hact) hs)
  · obtain ⟨v, u, hr, rfl⟩ := returns_eq_next.mp h
    exact inv_emit _ (initLink_inv hs hr)
  · obtain ⟨v, u, hr, rfl⟩ := returns_eq_next.mp h
    exact inv_emit _ (closeLink_inv hs hr)
  · obtain ⟨v, u, hr, rfl⟩ := returns_eq_next.mp h
    exact inv_emit _ (destroyLink_inv hs hr)

/-- From a state that meets the invariant no instruction reads an unwritten byte. -/
theorem readsWritten_exec (i : Instr) {s : State} (hs : s.Inv) : ReadsWritten (exec i s) := by
  rcases instr_kinds i with hcb | ⟨inp, hrecv⟩ | ⟨k, frame, rfl⟩ | ⟨cfg, rfl⟩ | rfl | rfl
  · rw [← execInCallback_eq_exec hcb]
    exact readsWritten_execInCallback i s
  · rw [hrecv]
    exact (recv_endsSound inp hs).reads.returns
  · exact readsWritten_execProcessFrame k frame s
  · exact (readsWritten_initLink cfg s).returns
  · exact (readsWritten_next _).whenConstructed.returns
  · refine ReadsWritten.returns ?_
    unfold destroyLink
    split <;> exact readsWritten_next _

/-- Taking a command off the port does not touch what the invariant speaks of. -/
theorem inv_takeCommand {s : State} (rest : List Command) (e : Env) (h : s.Inv) :
    ({ s with port := rest, env := e } : State).Inv := h

/-- A step is nothing, a refusal, or one instruction on the state without its command. -/
theorem step_cases (s : State) :
    step s = .next s ∨ (∃ e, step s = .refused e) ∨
      ∃ i rest e, step s = exec i { s with port := rest, env := e } := by
  cases hport : s.port with
  | nil => exact .inl (step_of_port_nil hport)
  | cons c rest =>
    cases hdecode : decode c.words with
    | error e => exact .inr (.inl ⟨_, step_of_decode_error hport hdecode⟩)
    | ok i => exact .inr (.inr ⟨i, rest, c.env, step_of_decode_ok hport hdecode⟩)

/-- Settles O59: an idle step changes nothing, and any other is one instruction. -/
theorem stepKeepsInvariant : Obligations.StepKeepsInvariant := by
  intro s t hs h
  rcases step_cases s with he | ⟨e, he⟩ | ⟨i, rest, e, he⟩
  · cases he.symm.trans h
    exact hs
  · cases he.symm.trans h
  · exact exec_inv (inv_takeCommand rest e hs) (he.symm.trans h)

/-- Settles O60: only the reassembler reads `RBUF`, and the invariant says what it reads has been written. -/
theorem noUnwrittenRead : Obligations.NoUnwrittenRead := by
  intro s a hs
  rcases step_cases s with he | ⟨e, he⟩ | ⟨i, rest, e, he⟩ <;> rw [he]
  · exact readsWritten_next s a
  · exact readsWritten_refused e a
  · exact readsWritten_exec i (inv_takeCommand rest e hs) a

/-! ### The reset state -/

theorem configLegal_typical : configLegal LinkConfig.typical = true := by decide

/-- `State.reset` is what `construct` makes of the power-on state, `Active` (R35, R290). -/
theorem reset_eq_construct :
    State.reset = { construct LinkConfig.typical State.powerOn with linkState := .active } := rfl

theorem reset_inv : State.reset.Inv := by
  rw [reset_eq_construct]
  exact ((linkSound_construct configLegal_typical _).withLinkState .active).inv fun _ =>
    phaseSound_iff.mpr (.inl (Nat.zero_lt_succ 3))

/-- `init` without `CHANNEL_INIT`, with legal parameters and before any Link. -/
theorem initLink_of_legal {cfg : LinkConfig} {s : State} (hs : s.linkState = .uninitialized)
    (hlegal : configLegal cfg = true) (hci : cfg.channelInit = false) :
    initLink cfg s = .next (.ok, { construct cfg s with linkState := .active }) := by
  simp [initLink, hs, hlegal, hci]

/-- Settles O58: fresh slots are sound, and `init` constructs them. -/
theorem resetMeetsInvariant : Obligations.ResetMeetsInvariant := by
  refine ⟨reset_inv, inv_of_uninitialized rfl rfl (by decide), ?_⟩
  show returns .status (initLink LinkConfig.typical State.powerOn) = _
  rw [initLink_of_legal rfl configLegal_typical rfl, returns_next, reset_eq_construct]

end Sys2Proof.Machine
end

section
/-! The slot an operation names (R50), and what a frame callback invokes (R66): a callback is notified and its
operations run, a submission on an idle channel is sent at once, and what R66 (a) does not list is refused. -/

namespace Sys2Proof.Machine

/-! ### No slot -/

/-- Where a Link exists, an operation on a slot stops at an index that is no slot. -/
theorem whenConstructed_withChannel_none {α : Type} {i : Nat} {s : State} (hs : s.linkState ≠ .uninitialized)
    (hnone : s.chans[i]? = none) (k : Channel → Res α) :
    whenConstructed s (withChannel i s k) = .fault (.noSlot i) := by
  rw [whenConstructed_of hs, withChannel_none hnone]

/-- A direct `process_frame` on an `Active` Link looks up the slot, checks the frame and processes it. -/
theorem execProcessFrame_active {i : Nat} {frame : Bytes} {s : State} (hact : s.linkState = .active) :
    execProcessFrame i frame s = returns (fun r => .headStatus r.1 r.2) (withChannel i s fun c =>
      if !frameWf frame then .refused .processIllFormed
      else if frameId frame ≠ c.chanId then .refused .processWrongChannel
      else processFrame i frame s) := by
  rw [execProcessFrame, hact]

/-- Settles O28: each of the four operations looks up its slot before it does anything else. -/
theorem noSlotFaults : Obligations.NoSlotFaults := by
  intro i cb frame s hnone
  refine ⟨fun hs => ⟨?_, ?_, ?_⟩, fun hact => ?_⟩
  · exact returns_eq_fault.mpr (whenConstructed_withChannel_none hs hnone _)
  · exact returns_eq_fault.mpr (whenConstructed_withChannel_none hs hnone _)
  · exact returns_eq_fault.mpr (whenConstructed_withChannel_none hs hnone _)
  · exact (execProcessFrame_active hact).trans (returns_eq_fault.mpr (withChannel_none hnone _))

/-! ### A listed answer of the sink -/

/-- One `SinkWrite` with its answer listed next. -/
theorem afterSinkWrite_cons {s : State} {st : SinkStatus} {rest : List SinkStatus} (str : Bytes)
    (h : s.env.sink = st :: rest) :
    afterSinkWrite str s = { s with linkState := if st = .ok then s.linkState else .failed,
                                    env := { s.env with sink := rest }, trace := s.trace ++ [.sink str st] } := by
  rw [afterSinkWrite, drawSink_cons h]
  rfl

theorem statusOfSinkWrite_cons {s : State} {st : SinkStatus} {rest : List SinkStatus} (h : s.env.sink = st :: rest) :
    statusOfSinkWrite s = if st = .ok then .ok else .outputBufferTooSmall := by
  rw [statusOfSinkWrite, drawSink_cons h]

/-! ### A submission on an idle channel -/

/-- There is nothing to drain from an empty queue (R203). -/
theorem drain_of_queue_nil {i : Nat} {c : Channel} {s : State} (hc : s.chans[i]? = some c) (hq : c.queue = []) :
    drain i s = .next (.ok, s) := by
  rw [drain, withChannel_some hc, hq, drainLoop]

/-- With an empty queue and an open window the frame goes to the sink at once (R201). -/
theorem submit_of_queue_nil_open {i : Nat} {frame : Bytes} {c : Channel} {s : State} (hc : s.chans[i]? = some c)
    (hq : c.queue = []) (hw : 1 ≤ c.window.toInt) :
    submit i frame s = .next (statusOfSinkWrite s,
      setChannel i { c with window := windowAfter frame c.window } (afterSinkWrite frame s)) := by
  have hopen : windowClosed c = false := decide_eq_false (by omega)
  rw [submit, drain_of_queue_nil hc hq, andThen_next, if_neg (by simp), withChannel_some hc,
    if_pos (by simp [hq, hopen]), transmit_eq hc]

/-! ### The operations of a callback -/

/-- What R66 (a) does not list is refused inside a callback (R66 (b)). -/
theorem execInCallback_refused {i : Instr} (h : callbackMayInvoke i = false) (s : State) :
    execInCallback i s = .refused .notInCallback := by
  cases i <;> simp only [callbackMayInvoke, Bool.true_eq_false] at h <;> rfl

/-- A callback that invokes one operation. -/
theorem runInCallback_singleton_next {i : Instr} {s t : State} (h : execInCallback i s = .next t) :
    runInCallback [i] s = .next ((), t) := by
  simp only [runInCallback, h]

/-- Whatever a callback has invoked before it, an operation that is not allowed stops it. -/
theorem runInCallback_refused {before after : List Instr} {call : Instr} {s u : State}
    (hbefore : runInCallback before s = .next ((), u)) (hcall : callbackMayInvoke call = false) :
    runInCallback (before ++ call :: after) s = .refused .notInCallback := by
  rw [runInCallback_append, hbefore, andThen_next, runInCallback, execInCallback_refused hcall]

/-! ### A frame for a channel with a callback -/

/-- A registered callback is observed with the whole frame, its operations run, and its answer is the status (R206). -/
theorem callbackInvocation_some {i : Nat} {frame : Bytes} {c : Channel} {handle : Word64} {reply : CallbackReply}
    {s s1 : State} (hc : s.chans[i]? = some c) (hcb : c.callback = some handle)
    (hreply : drawCallback s = (reply, s1)) :
    callbackInvocation i frame s =
      andThen (runInCallback reply.calls (emit (.callback i handle frame frame.length reply.answer) s1))
        fun _ s2 => .next (callbackStatus reply.answer, s2) := by
  rw [callbackInvocation, withChannel_some hc, hcb, hreply]

/-- A payload frame is acked with the channel's own ID, and only an accepted ack lets the callback run (R202, R205). -/
theorem ackAndNotify_eq {i : Nat} {frame : Bytes} {c : Channel} {s : State} (hc : s.chans[i]? = some c)
    (hp : hasPayload (frameFlags frame) = true) :
    ackAndNotify i frame s =
      if statusOfSinkWrite s ≠ .ok then .next ((false, statusOfSinkWrite s), afterSinkWrite (makeAck c.chanId) s)
      else andThen (callbackInvocation i frame (afterSinkWrite (makeAck c.chanId) s))
        fun st s2 => .next ((hasHead (frameFlags frame), st), s2) := by
  rw [ackAndNotify, isFinal_of_hasPayload hp, if_neg Bool.false_ne_true, ackEmission_eq hc, andThen_next]

section

variable {i : Nat} {frame : Bytes} {c : Channel} {s : State} (hact : s.linkState = .active)
  (hc : s.chans[i]? = some c) (hwf : frameWf frame = true) (hid : frameId frame = c.chanId)

include hact hc hwf hid

/-- A direct `process_frame` that meets its preconditions is `processFrame` (R202). -/
theorem exec_processFrame_active : exec (.processFrame i frame) s =
    returns (fun r => .headStatus r.1 r.2) (processFrame i frame s) := by
  show execProcessFrame i frame s = _
  rw [execProcessFrame_active hact, withChannel_some hc, hwf, if_neg (by decide), if_neg (not_not_intro hid)]

/-- With the ack accepted, the callback's operations run after its event and its answer is the status (R202, R205,
R206). -/
theorem exec_processFrame_callback {handle : Word64} {reply : CallbackReply} {s1 : State}
    (hp : hasPayload (frameFlags frame) = true) (hcb : c.callback = some handle) (hack : (drawSink s).1 = .ok)
    (hreply : drawCallback (afterSinkWrite (makeAck c.chanId) s) = (reply, s1)) :
    exec (.processFrame i frame) s =
      returns (fun _ => .headStatus (hasHead (frameFlags frame)) (callbackStatus reply.answer))
        (runInCallback reply.calls (emit (.callback i handle frame frame.length reply.answer) s1)) := by
  rw [exec_processFrame_active hact hc hwf hid, processFrame, if_pos hp, ackAndNotify_eq hc hp,
    statusOfSinkWrite_eq_ok.mpr hack, if_neg (not_not_intro rfl),
    callbackInvocation_some (by rw [afterSinkWrite_chans]; exact hc) hcb hreply]
  cases runInCallback reply.calls (emit (.callback i handle frame frame.length reply.answer) s1) <;> rfl

/-- The same with the answers of the ack and of the callback listed next. -/
theorem exec_processFrame_callback_cons {handle : Word64} {reply : CallbackReply} {rest : List SinkStatus}
    {more : List CallbackReply} (hp : hasPayload (frameFlags frame) = true) (hcb : c.callback = some handle)
    (hsink : s.env.sink = .ok :: rest) (hreply : s.env.callback = reply :: more) :
    exec (.processFrame i frame) s =
      returns (fun _ => .headStatus (hasHead (frameFlags frame)) (callbackStatus reply.answer))
        (runInCallback reply.calls
          { s with env := { s.env with sink := rest, callback := more },
                   trace := s.trace ++
                     [.sink (headerBytes c.chanId ⟨true, false, false⟩ 0) .ok,
                      .callback i handle frame frame.length reply.answer] }) := by
  have hacked := afterSinkWrite_ok (makeAck c.chanId) hsink
  rw [exec_processFrame_callback hact hc hwf hid hp hcb (by rw [drawSink_cons hsink])
    (drawCallback_cons (rest := more) (by rw [hacked]; exact hreply)), hacked]
  simp only [emit, List.append_assoc, List.cons_append, List.nil_append]
  rfl

end

/-! ### What a callback may submit -/

/-- A `write_frame` on an idle channel with the sink's answer listed next. -/
theorem exec_writeFrame_idle {i : Nat} {frame : Bytes} {c : Channel} {st : SinkStatus} {rest : List SinkStatus}
    {s : State} (hact : s.linkState = .active) (hc : s.chans[i]? = some c) (hwf : frameWf frame = true)
    (hid : frameId frame = c.chanId) (hq : c.queue = []) (hw : 1 ≤ c.window.toInt) (hsink : s.env.sink = st :: rest) :
    exec (.writeFrame i frame) s = .next
      { s with linkState := if st = .ok then .active else .failed,
               chans := s.chans.set i { c with window := windowAfter frame c.window },
               env := { s.env with sink := rest },
               trace := s.trace ++
                 [.sink frame st, .ret (.status (if st = .ok then .ok else .outputBufferTooSmall))] } := by
  rw [exec_writeFrame_active hact hc hwf hid, submit_of_queue_nil_open hc hq hw, returns_next,
    statusOfSinkWrite_cons hsink, afterSinkWrite_cons frame hsink, hact]
  simp only [emit, setChannel, List.append_assoc, List.cons_append, List.nil_append]

/-- Settles O35: the callback's operations run on the acked Link, an allowed one as outside, and the first one that is
not allowed refuses them all. -/
theorem callbackMaySubmit : Obligations.CallbackMaySubmit := by
  refine ⟨?submits, fun call s hcall => execInCallback_eq_exec hcall s, ?refuses⟩
  case submits =>
    intro i j frame reply c d handle st rest more s hact hc hwf hid hp hcb hd hrwf hrid hq hw hsink hreply
    rw [exec_processFrame_callback_cons hact hc hwf hid hp hcb hsink hreply]
    rw [runInCallback_singleton_next ((execInCallback_eq_exec rfl _).trans
      (exec_writeFrame_idle (c := d) (st := st) (rest := rest) ?_ ?_ hrwf hrid hq hw ?_)), returns_next]
    · simp only [emit, List.append_assoc, List.cons_append, List.nil_append]
      rfl
    · exact hact
    · exact hd
    · rfl
  case refuses =>
    intro i frame c handle before after call answer rest more s u hact hc hwf hid hp hcb hsink hreply hbefore hcall
    rw [exec_processFrame_callback_cons hact hc hwf hid hp hcb hsink hreply, runInCallback_refused hbefore hcall,
      returns_refused]

end Sys2Proof.Machine
end

section
/-! The header and the byte forms as the decoder reads them: each is the only string with its fields (R81 to R84,
R91, R94, R96). -/

namespace Sys2Proof

/-! ### Headers -/

theorem cidOfBytes_high (b2 b3 : Byte) : (cidOfBytes b2 b3).extractLsb' 8 5 = b2.setWidth 5 := by
  apply BitVec.eq_of_getLsbD_eq
  intro k hk
  have hcase : k = 0 ∨ k = 1 ∨ k = 2 ∨ k = 3 ∨ k = 4 := by omega
  rcases hcase with rfl | rfl | rfl | rfl | rfl <;> simp [cidOfBytes]

theorem cidOfBytes_low (b2 b3 : Byte) : (cidOfBytes b2 b3).extractLsb' 0 8 = b3 := by
  apply BitVec.eq_of_getLsbD_eq
  intro k hk
  simp [cidOfBytes, hk, show k < 13 by omega]

theorem sizeOfBytes_high (b0 b1 : Byte) : (sizeOfBytes b0 b1).extractLsb' 8 8 = b0 := by
  apply BitVec.eq_of_getLsbD_eq
  intro k hk
  simp [sizeOfBytes, hk, show 8 + k < 16 by omega]

theorem sizeOfBytes_low (b0 b1 : Byte) : (sizeOfBytes b0 b1).extractLsb' 0 8 = b1 := by
  apply BitVec.eq_of_getLsbD_eq
  intro k hk
  simp [sizeOfBytes, hk, show k < 16 by omega]

/-- Header byte 2 is its flags and its five ID bits. -/
theorem toByte_ofByte_or_low5 : ∀ b : Byte, (Flags.ofByte b).toByte ||| (b.setWidth 5).setWidth 8 = b := by decide

/-- The four bytes of a header are given back by its fields (R83, R84). -/
theorem headerBytes_of_fields (b0 b1 b2 b3 : Byte) :
    headerBytes (cidOfBytes b2 b3) (Flags.ofByte b2) (sizeOfBytes b0 b1) = [b0, b1, b2, b3] := by
  rw [headerBytes, sizeOfBytes_high, sizeOfBytes_low, cidOfBytes_high, cidOfBytes_low, toByte_ofByte_or_low5]

/-! ### Frames on the stream -/

/-- The decoder takes the fields of a frame from its words. -/
theorem decode_frameWords {cid : ChanId} {f : Flags} {size : Size16} {body : Bytes}
    (h : body.length = bodyLength f size) : decode (frameWords cid f size body) = .ok (frameInstr cid f size body) := by
  simp only [decode, frameWords, headerBytes, List.cons_append, List.nil_append, decodeStream,
    Machine.flags_of_byte2, Machine.size_of_bytes, Machine.cid_of_bytes, if_pos h]

/-- What it accepts on the stream are the words of a frame with exactly its payload. -/
theorem decodeStream_ok {str : Bytes} {i : Instr} (h : decodeStream str = .ok i) :
    ∃ cid f size body, body.length = bodyLength f size ∧ str = headerBytes cid f size ++ body ∧
      i = frameInstr cid f size body := by
  unfold decodeStream at h
  split at h
  case h_1 b0 b1 b2 b3 body =>
    dsimp only at h
    split at h
    case isTrue hlen =>
      cases h
      exact ⟨_, _, _, body, hlen, by rw [headerBytes_of_fields]; rfl, rfl⟩
    case isFalse => cases h
  case h_2 => cases h

/-- The row that a header selects is well-formed, and its words are the frame (R86, R90, R239). -/
theorem frameInstr_wf_encode {cid : ChanId} {f : Flags} {size : Size16} {body : Bytes}
    (h : body.length = bodyLength f size) :
    (frameInstr cid f size body).wf = true ∧ encode (frameInstr cid f size body) = frameWords cid f size body := by
  by_cases hc : cid.toNat = controlId
  · have hcid : cid = BitVec.ofNat 13 controlId := BitVec.eq_of_toNat_eq hc
    subst hcid
    exact ⟨decide_eq_true h, rfl⟩
  · have hord : ordinaryId cid = true := decide_eq_true hc
    have hpay : (ordinaryId cid && decide (body.length = bodyLength f size)) = true := by simp [hord, h]
    simp only [frameInstr, if_neg hc]
    rcases f with ⟨_ | _, _ | _, _ | _⟩
    case false.false.true | false.true.false | false.true.true => exact ⟨hpay, rfl⟩
    all_goals
      obtain rfl := List.length_eq_zero_iff.mp h
      exact ⟨hord, rfl⟩

/-! ### Byte forms -/

/-- A byte is its top bit and the seven below. -/
theorem withTop_low7 : ∀ b : Byte, withTop (b.getLsbD 7) (low7 b) = b := by decide

theorem decodeVarint_withTop (c : Bool) (g : BitVec 7) (rest : Bytes) :
    decodeVarint (withTop c g :: rest) = .ok (if c then .varintCont g rest else .varintLast g rest) := by
  simp only [decodeVarint, Machine.withTop_top, Machine.low7_withTop]
  cases c <;> rfl

theorem decodeVarint_ok {str : Bytes} {i : Instr} (h : decodeVarint str = .ok i) :
    i.wf = true ∧ encode i = ⟨.varint, str⟩ := by
  cases str with
  | nil => cases h
  | cons b rest =>
    have hb := withTop_low7 b
    rw [← hb, decodeVarint_withTop] at h
    split at h
    case isTrue htop =>
      cases h
      exact ⟨rfl, by rw [encode, ← htop, hb]⟩
    case isFalse htop =>
      cases h
      exact ⟨rfl, by rw [encode, ← Bool.eq_false_iff.mpr htop, hb]⟩

theorem decodePrefixForm_short (l : BitVec 7) (rest : Bytes) :
    decodePrefixForm (withTop false l :: rest) = .ok (.lenShort l rest) := by
  simp only [decodePrefixForm, Machine.withTop_top, Machine.low7_withTop]
  rfl

theorem decodePrefixForm_long (hi : BitVec 7) (lo : Byte) (rest : Bytes) :
    decodePrefixForm (withTop true hi :: lo :: rest) = .ok (.lenLong hi lo rest) := by
  simp only [decodePrefixForm, Machine.withTop_top, Machine.low7_withTop, if_true]

theorem decodePrefixForm_ok {str : Bytes} {i : Instr} (h : decodePrefixForm str = .ok i) :
    i.wf = true ∧ encode i = ⟨.length, str⟩ := by
  unfold decodePrefixForm at h
  split at h
  case h_1 => cases h
  case h_2 b0 rest =>
    have hb := withTop_low7 b0
    split at h
    case isTrue htop =>
      rw [htop] at hb
      cases rest with
      | nil => cases h
      | cons b1 rest =>
        cases h
        exact ⟨rfl, by rw [encode, hb]⟩
    case isFalse htop =>
      rw [Bool.eq_false_iff.mpr htop] at hb
      cases h
      exact ⟨rfl, by rw [encode, hb]⟩

theorem decodeShorthand_ok {str : Bytes} {i : Instr} (h : decodeShorthand str = .ok i) :
    i.wf = true ∧ encode i = ⟨.text, str⟩ := by
  unfold decodeShorthand at h
  split at h
  case h_1 => cases h
  case h_2 b0 rest =>
    split at h
    case isTrue hb =>
      subst hb
      cases rest with
      | nil => cases h
      | cons c rest =>
        cases h
        exact ⟨rfl, rfl⟩
    case isFalse =>
      split at h
      case isTrue hb =>
        subst hb
        split at h
        case h_1 b1 c rest =>
          split at h
          case isTrue hb1 =>
            subst hb1
            cases h
            exact ⟨rfl, rfl⟩
          case isFalse => cases h
        case h_2 => cases h
      case isFalse => cases h

end Sys2Proof
end

section
/-! The operands of an operation behind its `OPSEL` (R100, R103; notes/assumptions/8.md). -/

namespace Sys2Proof

/-! ### One or two operands -/

/-- A last operand: the reader takes all bytes of a written value. -/
def ReadsLast {α : Type} (read : Reader α) (write : α → Bytes) (p : α → Bool) : Prop :=
  ∀ v, p v = true → read (write v) = .ok (v, [])

theorem Reads.last {α : Type} {read : Reader α} {write : α → Bytes} {p : α → Bool} (h : Reads read write p) :
    ReadsLast read write p := fun v hv => by
  have := h v [] hv
  rwa [List.append_nil] at this

theorem readRest_readsLast : ReadsLast readRest (fun str => str) (fun _ => true) := fun str _ => readRest_eq str

section

variable {α β : Type} {readA : Reader α} {readB : Reader β} {writeA : α → Bytes} {writeB : β → Bytes}
  {p : α → Bool} {q : β → Bool} {str : Bytes} {i : Instr}

theorem operand_written {mk : α → Instr} {a : α} (h : ReadsLast readA writeA p) (ha : p a = true) :
    operand readA mk (writeA a) = .ok (mk a, []) := by
  rw [operand, h a ha]

theorem operands_written {mk : α → β → Instr} {a : α} {b : β} (hA : Reads readA writeA p)
    (hB : ReadsLast readB writeB q) (ha : p a = true) (hb : q b = true) :
    operands readA readB mk (writeA a ++ writeB b) = .ok (mk a b, []) := by
  rw [operands, hA a (writeB b) ha]
  exact operand_written hB hb

theorem operand_accepted {mk : α → Instr} (h : Accepts readA writeA p) (hr : operand readA mk str = .ok (i, [])) :
    ∃ a, p a = true ∧ str = writeA a ∧ i = mk a := by
  unfold operand at hr
  split at hr
  case h_1 => cases hr
  case h_2 a rest ha =>
    cases hr
    obtain ⟨hp, hs⟩ := h _ _ _ ha
    exact ⟨a, hp, by rw [hs, List.append_nil], rfl⟩

theorem operands_accepted {mk : α → β → Instr} (hA : Accepts readA writeA p) (hB : Accepts readB writeB q)
    (hr : operands readA readB mk str = .ok (i, [])) :
    ∃ a b, p a = true ∧ q b = true ∧ str = writeA a ++ writeB b ∧ i = mk a b := by
  unfold operands at hr
  split at hr
  case h_1 => cases hr
  case h_2 a rest ha =>
    obtain ⟨hp, hs⟩ := hA _ _ _ ha
    obtain ⟨b, hq, rfl, rfl⟩ := operand_accepted hB hr
    exact ⟨a, b, hp, hq, hs, rfl⟩

end

/-! ### The selector -/

theorem opsel_fits : ∀ n < 32, BitVec.ofNat 8 n &&& 0xE0#8 = 0#8 ∧ (BitVec.ofNat 8 n).toNat = n := by decide

theorem decode_opWords {n : Nat} {str : Bytes} {i : Instr} (hn : n < 32) (h : readOperation n str = .ok (i, [])) :
    decode (opWords n str) = .ok i := by
  obtain ⟨hsel, hnat⟩ := opsel_fits n hn
  show decodeOperation (BitVec.ofNat 8 n :: str) = .ok i
  rw [decodeOperation, if_pos hsel, hnat, h]
  rfl

theorem complete_eq_ok {r : Except DecodeError (Instr × Bytes)} {i : Instr} (h : complete r = .ok i) :
    r = .ok (i, []) := by
  unfold complete at h
  split at h
  case h_2 => cases h; rfl
  all_goals cases h

theorem decodeOperation_ok {str : Bytes} {i : Instr} (h : decodeOperation str = .ok i) :
    ∃ n rest, readOperation n rest = .ok (i, []) ∧ (⟨.operation, str⟩ : Words) = opWords n rest := by
  cases str with
  | nil => cases h
  | cons b rest =>
    rw [decodeOperation] at h
    split at h
    case isTrue => exact ⟨b.toNat, rest, complete_eq_ok h, by rw [opWords, BitVec.ofNat_toNat, BitVec.setWidth_eq]⟩
    case isFalse => cases h

/-! ### The operations -/

/-- An ID, and then the operands that `k` reads: what `encode_header` and `make_frame` take. -/
def afterCid (k : ChanId → Reader Instr) : Reader Instr := fun str =>
  match readCid str with
  | .error e => .error e
  | .ok (cid, rest) => k cid rest

theorem readOperation_encodeHeader :
    readOperation 0 = afterCid fun cid => operands readFlags readSize (.encodeHeader cid) := rfl

theorem readOperation_makeFrame :
    readOperation 23 = afterCid fun cid => operands readFlags readString (.makeFrame cid) := rfl

theorem afterCid_written (k : ChanId → Reader Instr) (cid : ChanId) (rest : Bytes) :
    afterCid k (writeCid cid ++ rest) = k cid rest := by
  rw [afterCid, readCid_reads cid rest rfl]

theorem afterCid_accepted {k : ChanId → Reader Instr} {str : Bytes} {r : Instr × Bytes}
    (h : afterCid k str = .ok r) : ∃ cid rest, str = writeCid cid ++ rest ∧ k cid rest = .ok r := by
  unfold afterCid at h
  split at h
  case h_1 => cases h
  case h_2 cid rest hcid => exact ⟨cid, rest, (readCid_accepts _ _ _ hcid).2, h⟩

/-- An operation that reads its operands to the end is well-formed, and has read its own words. -/
theorem readOperation_ok {n : Nat} {str : Bytes} {i : Instr} (h : readOperation n str = .ok (i, [])) :
    i.wf = true ∧ encode i = opWords n str := by
  match n with
  | 0 =>
    rw [readOperation_encodeHeader] at h
    obtain ⟨cid, rest, rfl, hrest⟩ := afterCid_accepted h
    obtain ⟨f, size, -, -, rfl, rfl⟩ := operands_accepted readFlags_accepts readSize_accepts hrest
    exact ⟨rfl, rfl⟩
  | 1 | 2 | 3 =>
    obtain ⟨s, -, rfl, rfl⟩ := operand_accepted readRest_accepts h
    exact ⟨rfl, rfl⟩
  | 4 | 6 =>
    obtain ⟨v, -, rfl, rfl⟩ := operand_accepted readWord64_accepts h
    exact ⟨rfl, rfl⟩
  | 5 | 7 | 9 | 11 =>
    obtain ⟨s, p, hs, hp, rfl, rfl⟩ := operands_accepted readString_accepts readNat_accepts h
    exact ⟨Bool.and_eq_true_iff.mpr ⟨hs, hp⟩, rfl⟩
  | 8 | 15 | 17 | 18 =>
    obtain ⟨k, hk, rfl, rfl⟩ := operand_accepted readNat_accepts h
    exact ⟨hk, rfl⟩
  | 10 | 16 =>
    obtain ⟨s, hs, rfl, rfl⟩ := operand_accepted readString_accepts h
    exact ⟨hs, rfl⟩
  | 12 =>
    obtain ⟨inp, hinp, rfl, rfl⟩ := operand_accepted readInput_accepts h
    cases inp <;> exact ⟨hinp, rfl⟩
  | 13 | 14 =>
    obtain ⟨k, frame, hk, -, rfl, rfl⟩ := operands_accepted readNat_accepts readRest_accepts h
    exact ⟨hk, rfl⟩
  | 19 =>
    obtain ⟨k, cb, hk, -, rfl, rfl⟩ := operands_accepted readNat_accepts (readOption_accepts readWord64_accepts) h
    exact ⟨hk, rfl⟩
  | 20 =>
    obtain ⟨cfg, hcfg, rfl, rfl⟩ := operand_accepted readConfig_accepts h
    exact ⟨hcfg, rfl⟩
  | 21 | 22 =>
    cases h
    exact ⟨rfl, rfl⟩
  | 23 =>
    rw [readOperation_makeFrame] at h
    obtain ⟨cid, rest, rfl, hrest⟩ := afterCid_accepted h
    obtain ⟨f, body, -, hbody, rfl, rfl⟩ := operands_accepted readFlags_accepts readString_accepts hrest
    exact ⟨hbody, rfl⟩
  | _ + 24 => cases h

/-- Settles O54: each constructor's words are read back by the reader of their position. -/
theorem decodeEncode : Obligations.DecodeEncode := by
  intro i h
  cases i
  case frameNone | frameAck | frameFlowHead | frameFinal | frameFinalHead =>
    exact (decode_frameWords rfl).trans (congrArg Except.ok (if_neg (of_decide_eq_true h)))
  case frameHead | frameBody | frameHeadBody =>
    obtain ⟨hcid, hbody⟩ := Bool.and_eq_true_iff.mp h
    exact (decode_frameWords (of_decide_eq_true hbody)).trans (congrArg Except.ok (if_neg (of_decide_eq_true hcid)))
  case routeControl => exact decode_frameWords (of_decide_eq_true h)
  case varintCont g rest => exact decodeVarint_withTop true g rest
  case varintLast g rest => exact decodeVarint_withTop false g rest
  case lenShort l rest => exact decodePrefixForm_short l rest
  case lenLong hi lo rest => exact decodePrefixForm_long hi lo rest
  case textChar1 | textChar1Long => rfl
  case encodeHeader =>
    refine decode_opWords (by decide) ?_
    rw [readOperation_encodeHeader, afterCid_written]
    exact operands_written readFlags_reads readSize_reads.last rfl rfl
  case decodeHeader | frameTotalLength | payload =>
    exact decode_opWords (by decide) (operand_written readRest_readsLast rfl)
  case encodeUint | encodeInt => exact decode_opWords (by decide) (operand_written readWord64_reads.last rfl)
  case decodeUint | decodeInt | decodeLength | decodeText =>
    obtain ⟨hstr, hp⟩ := Bool.and_eq_true_iff.mp h
    exact decode_opWords (by decide) (operands_written readString_reads readNat_reads.last hstr hp)
  case encodeLength | getChannel | id | sendWindow =>
    exact decode_opWords (by decide) (operand_written readNat_reads.last h)
  case encodeText | write => exact decode_opWords (by decide) (operand_written readString_reads.last h)
  case recv inp =>
    refine decode_opWords (by decide) (operand_written readInput_reads.last ?_)
    cases inp <;> exact h
  case writeFrame | processFrame =>
    exact decode_opWords (by decide) (operands_written readNat_reads readRest_readsLast h rfl)
  case setCallback i cb =>
    refine decode_opWords (by decide) (operands_written readNat_reads (readOption_reads readWord64_reads).last h ?_)
    cases cb <;> rfl
  case init => exact decode_opWords (by decide) (operand_written readConfig_reads.last h)
  case close | destroy => rfl
  case makeFrame =>
    refine decode_opWords (by decide) ?_
    rw [readOperation_makeFrame, afterCid_written]
    exact operands_written readFlags_reads readString_reads.last rfl h

/-- Settles O55: position by position, what is accepted is the words of a well-formed instruction. -/
theorem decodeSound : Obligations.DecodeSound := by
  rintro ⟨pos, str⟩ i h
  cases pos with
  | operation =>
    obtain ⟨n, rest, hread, hwords⟩ := decodeOperation_ok h
    rw [hwords]
    exact readOperation_ok hread
  | stream =>
    obtain ⟨cid, f, size, body, hbody, rfl, rfl⟩ := decodeStream_ok h
    exact frameInstr_wf_encode hbody
  | varint => exact decodeVarint_ok h
  | length => exact decodePrefixForm_ok h
  | text => exact decodeShorthand_ok h

/-- Settles O56: each word is run through the decoder. -/
theorem specWordsDecode : Obligations.SpecWordsDecode :=
  ⟨rfl, rfl, rfl, rfl, rfl, rfl, rfl⟩

end Sys2Proof
end

section
/-! The codec byte forms as instructions (R91, R94, R96; notes/assumptions/7.md): a string that begins with the form,
decoded at position 0. -/

namespace Sys2Proof.Machine

/-- Where a codec function is known, so is what its operation outputs. -/
theorem returnsPure_codecRet {α : Type} {out : α → Ret} {x y : Except Status α} (h : x = y) (s : State) :
    returnsPure (codecRet out x) s = returnsPure (codecRet out y) s := by
  rw [h]

/-! ### Varints -/

/-- A varint that ends inside the string: the number of its groups modulo 2^64, and the position after them (R141,
R142). -/
theorem decodeUint_terminated {conts rest : Bytes} {last : Byte} (hc : ∀ b ∈ conts, b.getLsbD 7 = true)
    (hl : last.getLsbD 7 = false) : decodeUint (conts ++ last :: rest) 0 =
      .ok (BitVec.ofNat 64 (groupsValue (conts ++ [last])), conts.length + 1) := by
  rw [decodeUint, List.drop_zero, decodeUintLoop_ok (a := 0) hc hl rfl (by decide)]
  simp

/-- A string in which every byte has the continuation bit holds no varint (R141). -/
theorem decodeUint_unterminated {str : Bytes} (h : ∀ b ∈ str, b.getLsbD 7 = true) :
    decodeUint str 0 = .error .incompleteNumber := by
  rw [decodeUint, List.drop_zero, decodeUintLoop_incomplete h]

theorem groupsValue_withTop (c : Bool) (g : BitVec 7) (rest : Bytes) :
    groupsValue (withTop c g :: rest) = g.toNat + 128 * groupsValue rest := by
  rw [groupsValue, ← low7_toNat, low7_withTop]

theorem decodeUint_varintLast (g : BitVec 7) (rest : Bytes) :
    decodeUint (withTop false g :: rest) 0 = .ok (g.setWidth 64, 1) := by
  have h := decodeUint_terminated (conts := []) (rest := rest) (by simp) (withTop_top false g)
  simp only [List.nil_append, groupsValue_withTop, groupsValue, Nat.mul_zero, Nat.add_zero, BitVec.ofNat_toNat] at h
  exact h

section

variable {rest : Bytes} (g : BitVec 7)

theorem withTop_true_cons_all {conts : Bytes} (h : ∀ b ∈ conts, b.getLsbD 7 = true) :
    ∀ b ∈ withTop true g :: conts, b.getLsbD 7 = true :=
  List.forall_mem_cons.mpr ⟨withTop_top true g, h⟩

theorem decodeUint_varintCont_error {e : Status} (h : decodeUint rest 0 = .error e) :
    decodeUint (withTop true g :: rest) 0 = .error .incompleteNumber := by
  rcases varint_split rest with hall | ⟨conts, last, tail, rfl, hconts, hlast⟩
  · exact decodeUint_unterminated (withTop_true_cons_all g hall)
  · rw [decodeUint_terminated hconts hlast] at h
    cases h

/-- The string behind the group ends its varint at the byte at which the whole string does. -/
theorem decodeUint_varintCont_ok {v : Word64} {q : Nat} (h : decodeUint rest 0 = .ok (v, q)) :
    decodeUint (withTop true g :: rest) 0 = .ok (BitVec.ofNat 64 (g.toNat + 128 * v.toNat), q + 1) := by
  rcases varint_split rest with hall | ⟨conts, last, tail, rfl, hconts, hlast⟩
  · rw [decodeUint_unterminated hall] at h
    cases h
  · rw [decodeUint_terminated hconts hlast] at h
    cases h
    rw [← List.cons_append, decodeUint_terminated (withTop_true_cons_all g hconts) hlast, List.cons_append,
      groupsValue_withTop]
    congr 2
    apply BitVec.eq_of_toNat_eq
    simp only [BitVec.toNat_ofNat]
    omega

end

/-- Settles O12: the instructions output what `decode_uint` answers at position 0. -/
theorem varintByteForms : Obligations.VarintByteForms := by
  intro g rest s
  refine ⟨?last, fun e h => ?incomplete, fun v q h => ?continued⟩
  case last => exact returnsPure_codecRet (decodeUint_varintLast g rest) s
  case incomplete => exact returnsPure_codecRet (decodeUint_varintCont_error g h) s
  case continued => exact returnsPure_codecRet (decodeUint_varintCont_ok g h) s

/-! ### Lengths and texts -/

theorem withTop_false_and_top : ∀ l : BitVec 7, withTop false l &&& 0x80#8 = 0#8 := by decide
theorem withTop_true_and_top : ∀ hi : BitVec 7, withTop true hi &&& 0x80#8 ≠ 0#8 := by decide
theorem withTop_true_and_low : ∀ hi : BitVec 7, (withTop true hi &&& 0x7F#8).toNat = hi.toNat := by decide

theorem decodeLength_short (l : BitVec 7) (rest : Bytes) :
    decodeLength (withTop false l :: rest) 0 = .ok (l.toNat, 1) := by
  simp [decodeLength, withTop_false_and_top, withTop_false_toNat]

theorem decodeLength_long (hi : BitVec 7) (lo : Byte) (rest : Bytes) :
    decodeLength (withTop true hi :: lo :: rest) 0 = .ok (hi.toNat * 256 + lo.toNat, 2) := by
  simp only [decodeLength, List.getElem?_cons_zero, List.getElem?_cons_succ, if_neg (withTop_true_and_top hi),
    withTop_true_and_low]

/-- A length of 0 stands for one byte of text (R96, R163). -/
theorem decodeText_shorthand {str : Bytes} {q : Nat} {c : Byte} (h : decodeLength str 0 = .ok (0, q))
    (hc : str[q]? = some c) : decodeText str 0 = .ok ([c], q + 1) := by
  obtain ⟨hlt, hget⟩ := List.getElem?_eq_some_iff.mp hc
  have htake : (str.drop q).take 1 = [c] := by
    rw [List.drop_eq_getElem_cons hlt, hget, List.take_succ_cons, List.take_zero]
  simp only [decodeText, h, if_true, if_neg (Nat.not_le.mpr hlt), htake]

/-- Settles O16: the two forms of a length, and the shorthand behind each form of the length 0. -/
theorem lengthAndTextByteForms : Obligations.LengthAndTextByteForms := by
  intro l hi lo c rest s
  refine ⟨?short, ?long, ?char1, ?char1Long⟩
  case short => exact returnsPure_codecRet (decodeLength_short l rest) s
  case long => exact returnsPure_codecRet (decodeLength_long hi lo rest) s
  case char1 => exact returnsPure_codecRet (decodeText_shorthand (decodeLength_short 0 (c :: rest)) rfl) s
  case char1Long => exact returnsPure_codecRet (decodeText_shorthand (decodeLength_long 0 0 (c :: rest)) rfl) s

end Sys2Proof.Machine
end

section
/-! A whole frame that arrives at a frame boundary for a slot of the Link (R188, R239): its kind decides between one
credit and a drain, and an ack and the callback (R86, R202). -/

namespace Sys2Proof.Machine

/-! ### The frame -/

/-- A header with exactly its payload behind it is a well-formed frame (R129). -/
theorem frameWf_streamBytes {f : Flags} {size : Size16} {body : Bytes} (cid : ChanId)
    (hlen : body.length = if hasPayload f then size.toNat else 0)
    (hmax : hasPayload f = true → size.toNat ≤ maxPayload) :
    frameWf (streamBytes f size cid body) = true := by
  simp only [frameWf, streamBytes, totalLength_headerBytes, List.length_append, headerBytes_length, hlen, headerLen,
    maxFrame, Bool.and_eq_true, decide_eq_true_eq]
  simp only [maxPayload] at hmax
  split
  case isTrue hp =>
    have := hmax hp
    omega
  case isFalse => decide

@[simp] theorem frameId_streamBytes (f : Flags) (size : Size16) (cid : ChanId) (body : Bytes) :
    frameId (streamBytes f size cid body) = cid := by
  rw [frameId, streamBytes, headerOf_headerBytes]

@[simp] theorem frameFlags_streamBytes (f : Flags) (size : Size16) (cid : ChanId) (body : Bytes) :
    frameFlags (streamBytes f size cid body) = f := by
  rw [frameFlags, streamBytes, headerOf_headerBytes]

/-! ### The reassembler and the dispatcher -/

/-- How `recv` ends with the only frame of its input, `n` bytes long, once that is dispatched: on a failed Link nothing
of it is consumed (R187, R188). -/
def frameDone (n : Nat) (st : Status) (t : State) : Res (Status × Nat) :=
  if t.linkState = .failed then .next ((if st = .ok then .linkNotActive else st, 0), t)
  else .next ((st, n), frameBoundary t)

theorem frameDone_failed {n : Nat} {st : Status} {t : State} (h : t.linkState = .failed) :
    frameDone n st t = .next ((if st = .ok then .linkNotActive else st, 0), t) := if_pos h

theorem frameDone_of_ne_failed {n : Nat} {st : Status} {t : State} (h : t.linkState ≠ .failed) :
    frameDone n st t = .next ((st, n), frameBoundary t) := if_neg h

/-- A well-formed frame that arrives alone at a frame boundary is stored and dispatched (R188). -/
theorem recv_frame {frame : Bytes} {s : State} (hact : s.linkState = .active) (hcur : s.cur = 0)
    (hwf : frameWf frame = true) :
    recv (some frame) s = andThen (route frame (stored frame s)) (frameDone frame.length) := by
  have hne : frame ≠ [] := by
    rintro rfl
    exact absurd hwf (by decide)
  have hfeed := feedLoop_arrived (n := frame.length) (fuel := frame.length) (fs := 0) (rest := [])
    (arrivedFront_boundary hcur hne) hwf
  rw [hcur, List.drop_zero, List.append_nil] at hfeed
  rw [recv, whenActive_active hact]
  refine hfeed.trans (congrArg (andThen _) (funext fun st => funext fun t => ?_))
  simp only [feedLoop_nil, List.length_nil, Nat.sub_zero]
  unfold frameDone
  split
  case isTrue => rfl
  case isFalse =>
    by_cases hst : st = .ok
    · rw [if_neg (not_not_intro hst), hst]
    · rw [if_pos hst]

/-- With no callback registered the frame is dropped (R206). -/
theorem callbackInvocation_none {i : Nat} {frame : Bytes} {c : Channel} {s : State} (hc : s.chans[i]? = some c)
    (hcb : c.callback = none) : callbackInvocation i frame s = .next (.ok, s) := by
  rw [callbackInvocation, withChannel_some hc, hcb]

section

variable {frame : Bytes} {cid : ChanId} {c : Channel} {s : State} (hid : frameId frame = cid)
  (hctl : cid.toNat ≠ controlId) (hslot : cid.toNat < s.cfg.nChannels) (hc : s.chans[cid.toNat]? = some c)

include hid hctl hslot

/-- The dispatcher hands a frame for a slot to that slot (R239). -/
theorem route_slot : route frame s = andThen (processFrame cid.toNat frame s) fun r t => .next (r.2, t) := by
  subst hid
  rw [route, if_neg hctl, if_pos hslot]

include hc

/-- Without payload: one credit and a drain (R202, R204). -/
theorem route_noPayload (hp : hasPayload (frameFlags frame) = false) :
    route frame s = drain cid.toNat (setChannel cid.toNat { c with window := creditWindow c.window } s) := by
  rw [route_slot hid hctl hslot, processFrame, if_neg (Bool.eq_false_iff.mp hp), creditAndDrain, withChannel_some hc]
  cases drain cid.toNat (setChannel cid.toNat { c with window := creditWindow c.window } s) <;> rfl

/-- With payload: an ack with the channel's own ID, and only behind an accepted one the callback (R202, R205). -/
theorem route_payload (hp : hasPayload (frameFlags frame) = true) :
    route frame s =
      if statusOfSinkWrite s ≠ .ok then .next (statusOfSinkWrite s, afterSinkWrite (makeAck c.chanId) s)
      else callbackInvocation cid.toNat frame (afterSinkWrite (makeAck c.chanId) s) := by
  rw [route_slot hid hctl hslot, processFrame, if_pos hp, ackAndNotify_eq hc hp]
  split
  case isTrue => rfl
  case isFalse => cases callbackInvocation cid.toNat frame (afterSinkWrite (makeAck c.chanId) s) <;> rfl

variable (hact : s.linkState = .active) (hcur : s.cur = 0) (hwf : frameWf frame = true)

include hact hcur hwf

/-- A no-payload frame that arrives: what the drain leaves of the Link decides the answer. -/
theorem recv_noPayload (hp : hasPayload (frameFlags frame) = false) :
    recv (some frame) s =
      andThen (drain cid.toNat (setChannel cid.toNat { c with window := creditWindow c.window } (stored frame s)))
        (frameDone frame.length) := by
  rw [recv_frame hact hcur hwf, route_noPayload hid hctl (by rwa [stored_cfg]) (by rwa [stored_chans]) hp]

section

variable (hp : hasPayload (frameFlags frame) = true)

include hp

/-- A payload frame that arrives, with the ack refused by the sink: the Link has failed (R205, R258). -/
theorem recv_payload_unacked (hack : (drawSink s).1 ≠ .ok) :
    recv (some frame) s =
      .next ((.outputBufferTooSmall, 0), afterSinkWrite (makeAck c.chanId) (stored frame s)) := by
  have hdraw : (drawSink (stored frame s)).1 ≠ .ok := by
    rwa [drawSink_fst_congr (stored_env frame s) (stored_draws frame s)]
  have hst : statusOfSinkWrite (stored frame s) = .outputBufferTooSmall := if_neg hdraw
  rw [recv_frame hact hcur hwf, route_payload hid hctl (by rwa [stored_cfg]) (by rwa [stored_chans]) hp, hst,
    if_pos (by decide), andThen_next, frameDone_failed (by rw [afterSinkWrite_linkState, if_neg hdraw]),
    if_neg (by decide)]

variable (hack : (drawSink s).1 = .ok)

include hack

/-- The same with the ack accepted: the callback's answer and what it leaves of the Link decide (R206). -/
theorem recv_payload_acked :
    recv (some frame) s =
      andThen (callbackInvocation cid.toNat frame (afterSinkWrite (makeAck c.chanId) (stored frame s)))
        (frameDone frame.length) := by
  have hst : statusOfSinkWrite (stored frame s) = .ok := by
    rwa [statusOfSinkWrite_eq_ok, drawSink_fst_congr (stored_env frame s) (stored_draws frame s)]
  rw [recv_frame hact hcur hwf, route_payload hid hctl (by rwa [stored_cfg]) (by rwa [stored_chans]) hp, hst,
    if_neg (not_not_intro rfl)]

theorem recv_payload_dropped (hcb : c.callback = none) :
    recv (some frame) s =
      .next ((.ok, frame.length), frameBoundary (afterSinkWrite (makeAck c.chanId) (stored frame s))) := by
  have hlive : (afterSinkWrite (makeAck c.chanId) (stored frame s)).linkState ≠ .failed := by
    rw [afterSinkWrite_linkState, drawSink_fst_congr (stored_env frame s) (stored_draws frame s), if_pos hack,
      stored_linkState, hact]
    decide
  rw [recv_payload_acked hid hctl hslot hc hact hcur hwf hp hack,
    callbackInvocation_none (by rwa [afterSinkWrite_chans, stored_chans]) hcb, andThen_next,
    frameDone_of_ne_failed hlive]

theorem recv_payload_callback {handle : Word64} {reply : CallbackReply} {s1 : State} (hcb : c.callback = some handle)
    (hreply : drawCallback (afterSinkWrite (makeAck c.chanId) (stored frame s)) = (reply, s1)) :
    recv (some frame) s =
      andThen (runInCallback reply.calls (emit (.callback cid.toNat handle frame frame.length reply.answer) s1))
        fun _ u => frameDone frame.length (callbackStatus reply.answer) u := by
  rw [recv_payload_acked hid hctl hslot hc hact hcur hwf hp hack,
    callbackInvocation_some (by rwa [afterSinkWrite_chans, stored_chans]) hcb hreply]
  cases runInCallback reply.calls (emit (.callback cid.toNat handle frame frame.length reply.answer) s1) <;> rfl

end

end

/-! ### The kinds without payload -/

/-- The five kinds without payload are the arrival of a bare header. -/
theorem exec_noPayloadKind {i : Instr} {f : Flags} {size : Size16} {cid : ChanId}
    (h : noPayloadKind i = some (f, size, cid)) :
    hasPayload f = false ∧ ∀ s, exec i s = execRecv (some (streamBytes f size cid [])) s := by
  cases i
  case frameNone | frameAck | frameFlowHead | frameFinal | frameFinalHead =>
    cases h
    exact ⟨rfl, fun _ => rfl⟩
  all_goals cases h

/-- A drain that answers has left the Link as it was, or has failed it (R203, R258). -/
theorem drain_linkState {i : Nat} {s : State} {st : Status} {t : State} (h : drain i s = .next (st, t)) :
    (st = .ok ∧ t.linkState = s.linkState) ∨ (st = .outputBufferTooSmall ∧ t.linkState = .failed) := by
  obtain ⟨c, hc, -⟩ := withChannel_eq_next.mp h
  obtain ⟨_, _, _, _, _, hd, _, _, _, hend⟩ := drain_spec hc
  rw [hd] at h
  cases h
  exact hend.imp_left fun ⟨hst, hl, _⟩ => ⟨hst, hl⟩

/-- Settles O39: the header is stored and dispatched, and what the drain leaves of the Link decides the answer. -/
theorem noPayloadKindsArrive : Obligations.NoPayloadKindsArrive := by
  intro i f size cid c s hkind hact hcur hslot hctl hc credited
  obtain ⟨hp, hexec⟩ := exec_noPayloadKind hkind
  have hwf : frameWf (streamBytes f size cid []) = true := frameWf_streamBytes cid (by simp [hp]) (by simp [hp])
  have hrun : exec i s = returns (fun r => .consumed r.1 r.2) (andThen (drain cid.toNat credited) (frameDone 4)) := by
    rw [hexec, execRecv, recv_noPayload (frameId_streamBytes f size cid []) hctl hslot hc hact hcur hwf
      (by rwa [frameFlags_streamBytes]), streamBytes, List.append_nil]
    rfl
  have hlive : credited.linkState ≠ .failed := by simp [credited, hact]
  have hok : ∀ t, drain cid.toNat credited = .next (.ok, t) →
      exec i s = .next (emit (.ret (.consumed .ok 4)) (frameBoundary t)) := by
    intro t hd
    rcases drain_linkState hd with ⟨-, hl⟩ | ⟨hst, -⟩
    · rw [hrun, hd, andThen_next, frameDone_of_ne_failed (hl ▸ hlive), returns_next]
    · cases hst
  refine ⟨hok, fun st t hd hst => ?failed, fun hq => hok credited ?idle⟩
  case failed =>
    rcases drain_linkState hd with ⟨hst', -⟩ | ⟨-, hl⟩
    · exact absurd hst' hst
    · rw [hrun, hd, andThen_next, frameDone_failed hl, if_neg hst, returns_next]
  case idle => exact drain_of_queue_nil (setChannel_get_same cid.toNat c _ _ (by rwa [stored_chans])) hq

/-! ### The kinds with payload -/

/-- The three kinds with payload are the arrival of the whole frame. -/
theorem exec_payloadKind {i : Instr} {f : Flags} {size : Size16} {cid : ChanId} {body : Bytes}
    (h : payloadKind i = some (f, size, cid, body)) :
    hasPayload f = true ∧ ∀ s, exec i s = execRecv (some (streamBytes f size cid body)) s := by
  cases i
  case frameHead | frameBody | frameHeadBody =>
    cases h
    exact ⟨rfl, fun _ => rfl⟩
  all_goals cases h

/-- Settles O40: the frame is stored and dispatched; the ack's answer decides whether the callback runs, and what that
leaves of the Link decides the answer. -/
theorem payloadKindsArrive : Obligations.PayloadKindsArrive := by
  intro i f size cid body c s hkind hbody hmax hact hcur hslot hctl hc acked
  obtain ⟨hpf, hexec⟩ := exec_payloadKind hkind
  have hwf : frameWf (streamBytes f size cid body) = true :=
    frameWf_streamBytes cid (by rw [hbody, if_pos hpf]) fun _ => hmax
  have hlen : (streamBytes f size cid body).length = 4 + size.toNat := by
    rw [streamBytes, List.length_append, headerBytes_length, hbody]
  have hid := frameId_streamBytes f size cid body
  have hp : hasPayload (frameFlags (streamBytes f size cid body)) = true := by rwa [frameFlags_streamBytes]
  rw [hexec, execRecv]
  refine ⟨fun hack => ?unacked, fun hack hcb => ?dropped, fun handle reply s1 u hack hcb hreply hu => ?answered,
    fun handle reply s1 hack hcb hreply => ?stopped⟩
  case unacked =>
    rw [recv_payload_unacked hid hctl hslot hc hact hcur hwf hp hack, returns_next]
    rfl
  case dropped =>
    rw [recv_payload_dropped hid hctl hslot hc hact hcur hwf hp hack hcb, hlen, returns_next]
    rfl
  case answered =>
    rw [recv_payload_callback hid hctl hslot hc hact hcur hwf hp hack hcb hreply, hlen, hu, andThen_next]
    refine ⟨fun hlive hans => ?_, fun e hlive hans => ?_, fun hfailed hans => ?_, fun e hfailed hans => ?_⟩
    · rw [frameDone_of_ne_failed hlive, hans, returns_next, callbackStatus]
    · rw [frameDone_of_ne_failed hlive, hans, returns_next, callbackStatus]
    · rw [frameDone_failed hfailed, hans, returns_next, callbackStatus, if_pos rfl]
    · rw [frameDone_failed hfailed, hans, returns_next, callbackStatus, if_neg (by simp)]
  case stopped =>
    rw [recv_payload_callback hid hctl hslot hc hact hcur hwf hp hack hcb hreply, hlen]
    exact ⟨fun e he => by rw [he, andThen_fault, returns_fault],
      fun e he => by rw [he, andThen_refused, returns_refused]⟩

end Sys2Proof.Machine
end

section
/-! The header and frame codec (`40_header_codec.md`): the header as numbers, its flag bytes, the length and the payload
of a frame, and the frame that `make_frame` builds. -/

namespace Sys2Proof.Machine

/-! ### The flags (R122 to R126) -/

theorem isAck_eq (f : Flags) : isAck f = (f.flow && !f.head && !f.body) := by
  rcases f with ⟨_ | _, _ | _, _ | _⟩ <;> rfl

/-- Settles O3: the lemma of each predicate. -/
theorem flagPredicates : Obligations.FlagPredicates := fun f =>
  ⟨hasFlow_eq f, hasBodyOrHead_eq f, isAck_eq f, isFinal_eq f, hasHead_eq f⟩

theorem hasPayload_iff_toByte (f : Flags) :
    hasPayload f = true ↔ f.toByte = 0x20#8 ∨ f.toByte = 0x40#8 ∨ f.toByte = 0x60#8 := by
  rcases f with ⟨_ | _, _ | _, _ | _⟩ <;> decide

theorem isFinal_iff_toByte (f : Flags) : isFinal f = true ↔ f.toByte = 0xC0#8 ∨ f.toByte = 0xE0#8 := by
  rcases f with ⟨_ | _, _ | _, _ | _⟩ <;> decide

/-- Settles O4: the two sets of flag bytes, and that a payload excludes a final frame. -/
theorem payloadNeverFinal : Obligations.PayloadNeverFinal := by
  intro f
  refine ⟨hasPayload_iff_toByte f, isFinal_iff_toByte f, ?_⟩
  rintro ⟨hp, hfinal⟩
  rw [isFinal_of_hasPayload hp] at hfinal
  cases hfinal

/-! ### The header as numbers (R83, R84) -/

/-- Header byte 2 is the sum of its flag bits and the high part of the ID, which overlap nowhere. -/
theorem toByte_or_low5_eq_ofNat (f : Flags) : ∀ hi : BitVec 5, f.toByte ||| hi.setWidth 8 =
    BitVec.ofNat 8 ((if f.flow then 128 else 0) + (if f.body then 64 else 0) + (if f.head then 32 else 0) +
      hi.toNat) := by
  rcases f with ⟨_ | _, _ | _, _ | _⟩ <;> decide

theorem cid_high_toNat (cid : ChanId) : (cid.extractLsb' 8 5).toNat = cid.toNat / 256 := by
  rw [BitVec.extractLsb'_toNat, Nat.shiftRight_eq_div_pow]
  omega

theorem cid_low_toNat (cid : ChanId) : (cid.extractLsb' 0 8).toNat = cid.toNat % 256 := by
  rw [BitVec.extractLsb'_toNat, Nat.shiftRight_zero]

theorem size_high_toNat (size : Size16) : (size.extractLsb' 8 8).toNat = size.toNat / 256 := by
  rw [BitVec.extractLsb'_toNat, Nat.shiftRight_eq_div_pow]
  omega

theorem size_low_toNat (size : Size16) : (size.extractLsb' 0 8).toNat = size.toNat % 256 := by
  rw [BitVec.extractLsb'_toNat, Nat.shiftRight_zero]

/-- The four header bytes as R120 names them. -/
theorem headerBytes_eq_ofNat (cid : ChanId) (f : Flags) (size : Size16) : headerBytes cid f size =
    [BitVec.ofNat 8 (size.toNat / 256), BitVec.ofNat 8 size.toNat,
     BitVec.ofNat 8 ((if f.flow then 128 else 0) + (if f.body then 64 else 0) + (if f.head then 32 else 0) +
       cid.toNat / 256),
     BitVec.ofNat 8 cid.toNat] := by
  have hsizeHigh : size.extractLsb' 8 8 = BitVec.ofNat 8 (size.toNat / 256) := by
    rw [← size_high_toNat, BitVec.ofNat_toNat, BitVec.setWidth_eq]
  have hsizeLow : size.extractLsb' 0 8 = BitVec.ofNat 8 size.toNat := rfl
  have hcidLow : cid.extractLsb' 0 8 = BitVec.ofNat 8 cid.toNat := rfl
  rw [headerBytes, hsizeHigh, hsizeLow, toByte_or_low5_eq_ofNat, cid_high_toNat, hcidLow]

/-- The ID as a number, from its high and low parts. -/
theorem cidOfBytes_eq_ofNat (b2 b3 : Byte) :
    cidOfBytes b2 b3 = BitVec.ofNat 13 (b2.toNat % 32 * 256 + b3.toNat) := by
  have hhigh := cid_high_toNat (cidOfBytes b2 b3)
  have hlow := cid_low_toNat (cidOfBytes b2 b3)
  rw [cidOfBytes_high, BitVec.toNat_setWidth] at hhigh
  rw [cidOfBytes_low] at hlow
  apply BitVec.eq_of_toNat_eq
  rw [BitVec.toNat_ofNat]
  omega

/-- The size as a number, from its two bytes. -/
theorem sizeOfBytes_eq_ofNat (b0 b1 : Byte) :
    sizeOfBytes b0 b1 = BitVec.ofNat 16 (b0.toNat * 256 + b1.toNat) := by
  have hhigh := size_high_toNat (sizeOfBytes b0 b1)
  have hlow := size_low_toNat (sizeOfBytes b0 b1)
  rw [sizeOfBytes_high] at hhigh
  rw [sizeOfBytes_low] at hlow
  apply BitVec.eq_of_toNat_eq
  rw [BitVec.toNat_ofNat]
  omega

/-! ### `encode_header` and `decode_header` (R120, R121) -/

theorem decodeHeader_short {str : Bytes} (h : str.length < 4) : decodeHeader str = .error .invalidParameter :=
  if_pos h

theorem decodeHeader_long {str : Bytes} (h : 4 ≤ str.length) : decodeHeader str = .ok (headerOf str) :=
  if_neg (Nat.not_lt.mpr h)

/-- Encoded header bytes are decoded to their fields, whatever follows them. -/
theorem decodeHeader_headerBytes (cid : ChanId) (f : Flags) (size : Size16) (rest : Bytes) :
    decodeHeader (headerBytes cid f size ++ rest) = .ok ⟨cid, f, size⟩ := by
  rw [decodeHeader_long (by simp), headerOf_headerBytes]

/-- Any four bytes are a header. -/
theorem decodeHeader_cons (b0 b1 b2 b3 : Byte) (rest : Bytes) :
    decodeHeader (b0 :: b1 :: b2 :: b3 :: rest) = .ok ⟨cidOfBytes b2 b3, Flags.ofByte b2, sizeOfBytes b0 b1⟩ :=
  decodeHeader_long (by simp)

theorem exec_encodeHeader {cid : ChanId} {f : Flags} {size : Size16} {str : Bytes}
    (h : headerBytes cid f size = str) (s : State) :
    exec (.encodeHeader cid f size) s = .next (emit (.ret (.bytes str)) s) := h ▸ rfl

theorem exec_decodeHeader {str : Bytes} {r : Except Status Header} (h : decodeHeader str = r) (s : State) :
    exec (.decodeHeader str) s = .next (emit (.ret (codecRet .header r)) s) := returnsPure_codecRet h s

/-- Settles O1: the bytes and the fields as numbers, and the error of a short string. -/
theorem headerOperationsResult : Obligations.HeaderOperationsResult := by
  refine ⟨fun cid f size => exec_encodeHeader (headerBytes_eq_ofNat cid f size),
    fun str s hshort => exec_decodeHeader (decodeHeader_short hshort) s, fun b0 b1 b2 b3 rest s => ?_⟩
  rw [exec_decodeHeader (decodeHeader_cons b0 b1 b2 b3 rest), codecRet, cidOfBytes_eq_ofNat, sizeOfBytes_eq_ofNat,
    Flags.ofByte]

/-- Settles O2: the fields of encoded header bytes are those encoded, and the fields of four bytes give these bytes
back. -/
theorem headerRoundTrip : Obligations.HeaderRoundTrip :=
  ⟨fun cid f size rest => exec_decodeHeader (decodeHeader_headerBytes cid f size rest),
   fun b0 b1 b2 b3 rest s => ⟨_, exec_decodeHeader (decodeHeader_cons b0 b1 b2 b3 rest) s,
     exec_encodeHeader (headerBytes_of_fields b0 b1 b2 b3) s⟩⟩

/-! ### `frame_total_length` (R127) -/

theorem exec_frameTotalLength {str : Bytes} {r : Except Status Header} (h : decodeHeader str = r) (s : State) :
    exec (.frameTotalLength str) s = .next (emit (.ret (codecRet (fun _ => .nat (totalLength str)) r)) s) :=
  returnsPure_codecRet h s

/-- Settles O5: the header decides the length, and a string too short for one is an error. -/
theorem frameTotalLengthResult : Obligations.FrameTotalLengthResult := by
  refine ⟨fun str s hshort => exec_frameTotalLength (decodeHeader_short hshort) s, fun cid f size rest s => ?_⟩
  rw [exec_frameTotalLength (decodeHeader_headerBytes cid f size rest), codecRet, totalLength_headerBytes,
    hasPayload_eq, Flags.payloadFollows]

/-! ### `payload` (R128) -/

/-- A well-formed frame carries exactly the payload its header announces. -/
theorem length_of_frameWf {cid : ChanId} {f : Flags} {size : Size16} {body : Bytes}
    (h : frameWf (headerBytes cid f size ++ body) = true) :
    body.length = if hasPayload f then size.toNat else 0 := by
  simp only [frameWf, totalLength_headerBytes, List.length_append, headerBytes_length, Bool.and_eq_true,
    decide_eq_true_eq] at h
  obtain ⟨⟨-, hlen⟩, -⟩ := h
  split
  case isTrue hp =>
    rw [if_pos hp] at hlen
    omega
  case isFalse hp =>
    rw [if_neg hp] at hlen
    omega

theorem payloadOf_headerBytes {cid : ChanId} {f : Flags} {size : Size16} {body : Bytes}
    (hlen : body.length = if hasPayload f then size.toNat else 0) :
    payloadOf (headerBytes cid f size ++ body) = body := by
  rw [payloadOf, frameFlags, headerOf_headerBytes]
  split
  case isTrue hp =>
    rw [if_pos hp] at hlen
    rw [show headerLen = (headerBytes cid f size).length from rfl, List.drop_left, ← hlen, List.take_length]
  case isFalse hp =>
    rw [if_neg hp] at hlen
    exact (List.length_eq_zero_iff.mp hlen).symm

theorem exec_payload_wf {frame : Bytes} (h : frameWf frame = true) (s : State) :
    exec (.payload frame) s = .next (emit (.ret (.bytes (payloadOf frame))) s) :=
  congrArg (returnsPure · s) (if_pos h)

/-- Settles O6: what follows the header of a well-formed frame has the length that `payload` takes. -/
theorem payloadResult : Obligations.PayloadResult := by
  refine ⟨fun cid f size body s hwf => ?_, fun frame s => ⟨_, rfl⟩⟩
  rw [exec_payload_wf hwf, payloadOf_headerBytes (length_of_frameWf hwf)]

/-! ### `make_frame` (R133) -/

section
variable {cid : ChanId} {f : Flags} {body : Bytes}

theorem makeFrame_tooBig (h : maxPayload < body.length) : makeFrame cid f body = .error .payloadTooBig := if_pos h

theorem makeFrame_invalid (hmax : body.length ≤ maxPayload) (hp : hasPayload f = false) (hbody : body ≠ []) :
    makeFrame cid f body = .error .invalidParameter := by
  rw [makeFrame, if_neg (Nat.not_lt.mpr hmax), if_pos (by simp [hp, hbody])]

theorem makeFrame_ok (hmax : body.length ≤ maxPayload) (h : hasPayload f = true ∨ body = []) :
    makeFrame cid f body = .ok (headerBytes cid f (BitVec.ofNat 16 body.length) ++ body) := by
  have hlegal : (!hasPayload f && body.length != 0) = false := by
    rcases h with hp | rfl
    · simp [hp]
    · simp
  rw [makeFrame, if_neg (Nat.not_lt.mpr hmax), hlegal, if_neg Bool.false_ne_true]

/-- What `make_frame` builds is well-formed: the size of its header is the length of its payload. -/
theorem frameWf_made (cid : ChanId) (hmax : body.length ≤ maxPayload) (h : hasPayload f = true ∨ body = []) :
    frameWf (headerBytes cid f (BitVec.ofNat 16 body.length) ++ body) = true := by
  have hsize : (BitVec.ofNat 16 body.length).toNat = body.length := by
    rw [BitVec.toNat_ofNat, Nat.mod_eq_of_lt (Nat.lt_of_le_of_lt hmax (by decide))]
  refine frameWf_streamBytes cid ?_ fun _ => hsize.trans_le hmax
  rw [hsize]
  rcases h with hp | rfl
  · rw [if_pos hp]
  · exact (ite_self 0).symm

end

theorem exec_makeFrame {cid : ChanId} {f : Flags} {body : Bytes} {r : Except Status Bytes}
    (h : makeFrame cid f body = r) (s : State) :
    exec (.makeFrame cid f body) s = .next (emit (.ret (codecRet .bytes r)) s) := returnsPure_codecRet h s

/-- Settles O7: its two errors, and else a well-formed frame with the given fields. -/
theorem makeFrameResult : Obligations.MakeFrameResult := by
  intro cid f body s
  refine ⟨fun hbig => exec_makeFrame (makeFrame_tooBig hbig) s,
    fun hmax hp hbody => exec_makeFrame (makeFrame_invalid hmax hp hbody) s,
    fun hmax h => ⟨_, exec_makeFrame (makeFrame_ok hmax h) s, frameWf_made cid hmax h,
      headerOf_headerBytes cid f _ body, rfl⟩⟩

end Sys2Proof.Machine
end

section
/-! The integer codec (`41_varint_codec.md`): what the encoder emits, what the decoder answers from any position, and
the zig-zag image in between. -/

namespace Sys2Proof.Machine

/-! ### `encode_uint` (R140) -/

/-- The rule of the encoder's loop: a last group for a number below 128, else a group with the continuation bit and the
groups of the number 7 bits down. Ten rounds reach the end of every `u64`. -/
theorem encodeUint_induction {P : Word64 → Bytes → Prop} (v : Word64)
    (last : ∀ v : Word64, v.toNat < 128 → P v [withTop false (v.extractLsb' 0 7)])
    (cont : ∀ (v : Word64) out, 128 ≤ v.toNat → P (v >>> 7) out → P v (withTop true (v.extractLsb' 0 7) :: out)) :
    P v (encodeUint v) := by
  have rounds : ∀ fuel (v : Word64), v.toNat < 128 ^ (fuel + 1) → P v (encodeUintLoop (fuel + 1) v) := by
    intro fuel
    induction fuel with
    | zero =>
      intro v hv
      rw [encodeUintLoop_succ, if_pos (by simpa using hv)]
      exact last v (by simpa using hv)
    | succ fuel ih =>
      intro v hv
      rw [encodeUintLoop_succ]
      split
      case isTrue hlt => exact last v hlt
      case isFalse hge =>
        refine cont v _ (Nat.not_lt.mp hge) (ih (v >>> 7) ?_)
        rw [shift7_toNat]
        exact Nat.div_lt_of_lt_mul (by rwa [← Nat.pow_succ'])
  exact rounds 9 v (v.isLt.trans (by decide))

/-- The groups of `v` denote `v` (R91). -/
theorem groupsValue_encodeUint (v : Word64) : groupsValue (encodeUint v) = v.toNat := by
  refine encodeUint_induction v (P := fun v out => groupsValue out = v.toNat) (fun v hv => ?last)
    fun v out _ ih => ?cont
  case last => rw [groupsValue_withTop, group0_toNat, groupsValue, Nat.mul_zero, Nat.add_zero, Nat.mod_eq_of_lt hv]
  case cont => rw [groupsValue_withTop, group0_toNat, ih, shift7_toNat, Nat.mod_add_div]

/-- The encoder emits one group per digit of `v` to the base 128, and one for 0: the minimal number (R140). -/
theorem length_encodeUint (v : Word64) : (encodeUint v).length = Nat.log 128 v.toNat + 1 := by
  refine encodeUint_induction v (P := fun v out => out.length = Nat.log 128 v.toNat + 1) (fun v hv => ?last)
    fun v out hv ih => ?cont
  case last => rw [Nat.log_of_lt hv, List.length_singleton]
  case cont => rw [List.length_cons, ih, shift7_toNat, Nat.log_of_one_lt_of_le (by decide) hv]

/-- Only the last byte has the continuation bit clear (R91). -/
theorem encodeUint_split (v : Word64) : ∃ conts last, encodeUint v = conts ++ [last] ∧
    (∀ b ∈ conts, b.getLsbD 7 = true) ∧ last.getLsbD 7 = false := by
  refine encodeUint_induction v
    (P := fun _ out => ∃ conts last, out = conts ++ [last] ∧ (∀ b ∈ conts, b.getLsbD 7 = true) ∧ last.getLsbD 7 = false)
    (fun v _ => ?last) fun v out _ ih => ?cont
  case last => exact ⟨[], _, rfl, by simp, withTop_top false _⟩
  case cont =>
    obtain ⟨conts, last, rfl, hconts, hlast⟩ := ih
    exact ⟨_ :: conts, last, rfl, withTop_true_cons_all _ hconts, hlast⟩

/-- The same byte by byte. -/
theorem encodeUint_continuation (v : Word64) (k : Nat) (hk : k < (encodeUint v).length) :
    (encodeUint v)[k].getLsbD 7 = decide (k + 1 < (encodeUint v).length) := by
  obtain ⟨conts, last, h, hconts, hlast⟩ := encodeUint_split v
  simp only [h, List.length_append, List.length_singleton, Nat.add_lt_add_iff_right, List.getElem_append]
  split
  case isTrue hlt => rw [hconts _ (List.getElem_mem hlt), decide_eq_true hlt]
  case isFalse hge => rw [List.getElem_singleton, hlast, decide_eq_false hge]

/-- Settles O8: the number of groups is the number of digits to the base 128. -/
theorem encodeUintMinimalGroups : Obligations.EncodeUintMinimalGroups := by
  intro v s
  refine ⟨encodeUint v, rfl, ?nonempty, ?atMostTen, ?enough, ?minimal, groupsValue_encodeUint v,
    encodeUint_continuation v⟩ <;> rw [length_encodeUint]
  case nonempty => exact Nat.le_add_left 1 _
  case atMostTen => exact Nat.log_lt_of_lt_pow' (by decide) (v.isLt.trans (by decide))
  case enough => exact Nat.lt_pow_succ_log_self (by decide) _
  case minimal =>
    intro hlong
    have hv : v.toNat ≠ 0 := fun h0 => by simp [h0] at hlong
    exact Nat.pow_log_le_self 128 hv

/-! ### `decode_uint` (R141, R142) -/

/-- A start position only moves the position behind the varint. -/
theorem decodeUint_drop (str : Bytes) (p : Nat) :
    decodeUint str p = (decodeUint (str.drop p) 0).map (Prod.map id (p + ·)) := by
  simp only [decodeUint, List.drop_zero]
  cases decodeUintLoop (str.drop p) 0 0#64 with
  | error e => rfl
  | ok r => simp [Except.map, Prod.map]

theorem exec_decodeUint {str : Bytes} {p : Nat} {r : Except Status (Word64 × Nat)} (h : decodeUint str p = r)
    (s : State) :
    exec (.decodeUint str p) s = .next (emit (.ret (codecRet (fun r => .uintAt r.1 r.2) r)) s) :=
  returnsPure_codecRet h s

/-- Settles O11: the two answers from position 0, moved to the start position. -/
theorem decodeUintResult : Obligations.DecodeUintResult := by
  intro str p s
  refine ⟨fun hall => ?incomplete, fun conts last rest hstr hconts hlast => ?terminated⟩
  case incomplete =>
    rw [exec_decodeUint (decodeUint_drop str p), decodeUint_unterminated hall]
    rfl
  case terminated =>
    rw [exec_decodeUint (decodeUint_drop str p), hstr, decodeUint_terminated hconts hlast]
    rfl

/-! ### `encode_int` and `decode_int` (R143, R144) -/

theorem exec_decodeInt {str : Bytes} {p : Nat} {r : Except Status (Word64 × Nat)} (h : decodeInt str p = r)
    (s : State) :
    exec (.decodeInt str p) s = .next (emit (.ret (codecRet (fun r => .intAt r.1 r.2) r)) s) :=
  returnsPure_codecRet h s

theorem decodeInt_error {str : Bytes} {p : Nat} {e : Status} (h : decodeUint str p = .error e) :
    decodeInt str p = .error e := by
  rw [decodeInt, h]

theorem decodeInt_ok {str : Bytes} {p q : Nat} {u : Word64} (h : decodeUint str p = .ok (u, q)) :
    decodeInt str p = .ok (unzigzag u, q) := by
  rw [decodeInt, h]

/-- Settles O10: the zig-zag map and its inverse over the integers. -/
theorem zigzagOperationsResult : Obligations.ZigzagOperationsResult := by
  refine ⟨fun v s => ⟨zigzag v, rfl, zigzag_toNat_nonneg, zigzag_toNat_neg⟩, fun str p s => ⟨fun e h => ?error,
    fun u q h => ?ok⟩⟩
  case error => exact exec_decodeInt (decodeInt_error h) s
  case ok => exact ⟨unzigzag u, exec_decodeInt (decodeInt_ok h) s, unzigzag_even, unzigzag_odd⟩

/-! ### The round trips (R145) -/

theorem decodeUint_encodeUint (v : Word64) (rest : Bytes) :
    decodeUint (encodeUint v ++ rest) 0 = .ok (v, (encodeUint v).length) := by
  have hvalue := groupsValue_encodeUint v
  obtain ⟨conts, last, h, hconts, hlast⟩ := encodeUint_split v
  rw [h] at hvalue ⊢
  rw [List.append_assoc, List.singleton_append, decodeUint_terminated hconts hlast, hvalue, BitVec.ofNat_toNat,
    BitVec.setWidth_eq, List.length_append, List.length_singleton]

theorem decodeInt_encodeInt (v : Word64) (rest : Bytes) :
    decodeInt (encodeInt v ++ rest) 0 = .ok (v, (encodeInt v).length) := by
  rw [encodeInt, decodeInt_ok (decodeUint_encodeUint (zigzag v) rest), unzigzag_zigzag]

/-- Settles O9: the decoders stop where the encoding does, and the zig-zag maps cancel. -/
theorem varintRoundTrip : Obligations.VarintRoundTrip := fun v rest s =>
  ⟨exec_decodeUint (decodeUint_encodeUint v rest) s, exec_decodeInt (decodeInt_encodeInt v rest) s⟩

end Sys2Proof.Machine
end

section
/-! The length prefix and text codec (`42_text_codec.md`): what the encoders emit, and what the decoders answer from any
position. -/

namespace Sys2Proof.Machine

/-! ### `decode_length` (R161) -/

theorem withTop_false_low7 : ∀ b : Byte, b.toNat < 128 → withTop false (low7 b) = b := by decide
theorem withTop_true_low7 : ∀ b : Byte, 128 ≤ b.toNat → withTop true (low7 b) = b := by decide
theorem low7_toNat_high : ∀ b : Byte, 128 ≤ b.toNat → (low7 b).toNat = b.toNat - 128 := by decide

/-- A start position only moves the position behind the prefix. -/
theorem decodeLength_drop (str : Bytes) (p : Nat) :
    decodeLength str p = (decodeLength (str.drop p) 0).map (Prod.map id (p + ·)) := by
  simp only [decodeLength, List.getElem?_drop, Nat.add_zero, Nat.zero_add]
  cases str[p]? with
  | none => rfl
  | some b0 =>
    dsimp only
    split
    case isTrue => rfl
    case isFalse => cases str[p + 1]? <;> rfl

theorem decodeLength_cons_low {b0 : Byte} (h : b0.toNat < 128) (rest : Bytes) :
    decodeLength (b0 :: rest) 0 = .ok (b0.toNat, 1) := by
  have hshort := decodeLength_short (low7 b0) rest
  rwa [withTop_false_low7 b0 h, low7_toNat, Nat.mod_eq_of_lt h] at hshort

theorem decodeLength_cons_high {b0 : Byte} (h : 128 ≤ b0.toNat) (b1 : Byte) (rest : Bytes) :
    decodeLength (b0 :: b1 :: rest) 0 = .ok ((b0.toNat - 128) * 256 + b1.toNat, 2) := by
  have hlong := decodeLength_long (low7 b0) b1 rest
  rwa [withTop_true_low7 b0 h, low7_toNat_high b0 h] at hlong

theorem decodeLength_singleton_high {b0 : Byte} (h : 128 ≤ b0.toNat) :
    decodeLength [b0] 0 = .error .incompleteLength := by
  rw [← withTop_true_low7 b0 h]
  exact if_neg (withTop_true_and_top (low7 b0))

theorem exec_decodeLength {str : Bytes} {p : Nat} {r : Except Status (Nat × Nat)} (h : decodeLength str p = r)
    (s : State) :
    exec (.decodeLength str p) s = .next (emit (.ret (codecRet (fun r => .lengthAt r.1 r.2) r)) s) :=
  returnsPure_codecRet h s

/-! ### `encode_length` (R160) -/

theorem or_top_ofNat : ∀ n < 128, 0x80#8 ||| BitVec.ofNat 8 n = BitVec.ofNat 8 (128 + n) := by decide

theorem encodeLength_short {n : Nat} (h : n ≤ 127) : encodeLength n = .ok [BitVec.ofNat 8 n] := if_pos h

theorem encodeLength_long {n : Nat} (hlong : ¬ n ≤ 127) (hmax : n ≤ 0x7FFF) :
    encodeLength n = .ok [BitVec.ofNat 8 (128 + n / 256), BitVec.ofNat 8 (n % 256)] := by
  have hlow : BitVec.ofNat 8 (n % 256) = BitVec.ofNat 8 n := BitVec.eq_of_toNat_eq (by simp)
  rw [encodeLength, if_neg hlong, if_pos (show n ≤ maxTextLen from hmax), or_top_ofNat _ (by omega), hlow]

theorem encodeLength_tooBig {n : Nat} (h : ¬ n ≤ 0x7FFF) : encodeLength n = .error .payloadTooBig := by
  rw [encodeLength, if_neg (by omega), if_neg (show ¬ n ≤ maxTextLen from h)]

theorem exec_encodeLength {n : Nat} {r : Except Status Bytes} (h : encodeLength n = r) (s : State) :
    exec (.encodeLength n) s = .next (emit (.ret (codecRet .bytes r)) s) := returnsPure_codecRet h s

/-- Settles O13: the encoder by the size of the number, the decoder from position 0, moved to the start position. -/
theorem lengthOperationsResult : Obligations.LengthOperationsResult := by
  refine ⟨fun n s => ?encode, fun str p s => ⟨fun hnil => ?nothing, fun b0 rest hlow hb => ?short,
    fun b0 hone hb => ?cut, fun b0 b1 rest htwo hb => ?long⟩⟩
  case encode =>
    split_ifs with hshort hmax
    · exact exec_encodeLength (encodeLength_short hshort) s
    · exact exec_encodeLength (encodeLength_long hshort hmax) s
    · exact exec_encodeLength (encodeLength_tooBig hmax) s
  all_goals rw [exec_decodeLength (decodeLength_drop str p)]
  case nothing =>
    rw [hnil]
    rfl
  case short =>
    rw [hlow, decodeLength_cons_low hb]
    rfl
  case cut =>
    rw [hone, decodeLength_singleton_high hb]
    rfl
  case long =>
    rw [htwo, decodeLength_cons_high hb]
    rfl

/-! ### `encode_text` and `decode_text` (R162, R163) -/

theorem encodeText_empty : encodeText [] = .error .invalidParameter := rfl

theorem encodeText_tooBig {str : Bytes} (h : 0x7FFF < str.length) : encodeText str = .error .payloadTooBig := by
  rw [encodeText, if_neg (by omega), if_pos (show str.length > maxTextLen from h)]

theorem encodeText_ok {str pre : Bytes} (hne : str ≠ []) (hmax : str.length ≤ 0x7FFF)
    (hpre : encodeLength str.length = .ok pre) : encodeText str = .ok (pre ++ str) := by
  rw [encodeText, if_neg (mt List.length_eq_zero_iff.mp hne),
    if_neg (show ¬ str.length > maxTextLen from Nat.not_lt.mpr hmax), hpre]

theorem decodeText_error {str : Bytes} {p : Nat} {e : Status} (h : decodeLength str p = .error e) :
    decodeText str p = .error e := by
  rw [decodeText, h]

/-- `decode_text` behind its prefix: the shorthand takes as many bytes as a length of 1 (R163). -/
theorem decodeText_prefixed {str : Bytes} {p n q : Nat} (h : decodeLength str p = .ok (n, q)) :
    decodeText str p = if str.length < q + max n 1 then .error .incompleteString
      else .ok ((str.drop q).take (max n 1), q + max n 1) := by
  simp only [decodeText, h]
  by_cases hn : n = 0
  · subst hn
    simp only [if_true, Nat.zero_max, ge_iff_le, Nat.lt_succ_iff]
  · rw [if_neg hn, Nat.max_eq_left (Nat.one_le_iff_ne_zero.mpr hn)]

theorem exec_encodeText {str : Bytes} {r : Except Status Bytes} (h : encodeText str = r) (s : State) :
    exec (.encodeText str) s = .next (emit (.ret (codecRet .bytes r)) s) := returnsPure_codecRet h s

theorem exec_decodeText {str : Bytes} {p : Nat} {r : Except Status (Bytes × Nat)} (h : decodeText str p = r)
    (s : State) :
    exec (.decodeText str p) s = .next (emit (.ret (codecRet (fun r => .textAt r.1 r.2) r)) s) :=
  returnsPure_codecRet h s

/-! ### The round trips (R164) -/

/-- Up to 0x7FFF there is a prefix, and the decoder stops where it ends. -/
theorem encodeLength_decodeLength {n : Nat} (hmax : n ≤ 0x7FFF) :
    ∃ pre, encodeLength n = .ok pre ∧ ∀ rest, decodeLength (pre ++ rest) 0 = .ok (n, pre.length) := by
  by_cases hshort : n ≤ 127
  · have hb : (BitVec.ofNat 8 n).toNat = n := Nat.mod_eq_of_lt (by omega)
    refine ⟨_, encodeLength_short hshort, fun rest => ?_⟩
    rw [List.singleton_append, decodeLength_cons_low (by omega), hb, List.length_singleton]
  · have hhi : (BitVec.ofNat 8 (128 + n / 256)).toNat = 128 + n / 256 := Nat.mod_eq_of_lt (by omega)
    have hlo : (BitVec.ofNat 8 (n % 256)).toNat = n % 256 := Nat.mod_mod n 256
    refine ⟨_, encodeLength_long hshort hmax, fun rest => ?_⟩
    rw [List.cons_append, List.singleton_append, decodeLength_cons_high (by omega), hhi, hlo,
      Nat.add_sub_cancel_left, Nat.div_add_mod']
    rfl

theorem decodeText_encoded {str pre rest : Bytes} (hne : str ≠ [])
    (h : decodeLength (pre ++ (str ++ rest)) 0 = .ok (str.length, pre.length)) :
    decodeText (pre ++ str ++ rest) 0 = .ok (str, (pre ++ str).length) := by
  have hmax : max str.length 1 = str.length := Nat.max_eq_left (List.length_pos_iff.mpr hne)
  rw [List.append_assoc, decodeText_prefixed h, hmax, List.drop_left, List.take_left, ← List.length_append,
    if_neg (by simp)]

/-- Settles O14: the text's decoder takes what the prefix says, and that is the text. -/
theorem lengthAndTextRoundTrip : Obligations.LengthAndTextRoundTrip := by
  refine ⟨fun n rest s hmax => ?length, fun str rest s hne hmax => ?text⟩
  case length =>
    obtain ⟨pre, hpre, hdec⟩ := encodeLength_decodeLength hmax
    exact ⟨pre, exec_encodeLength hpre s, exec_decodeLength (hdec rest) s⟩
  case text =>
    obtain ⟨pre, hpre, hdec⟩ := encodeLength_decodeLength hmax
    exact ⟨pre ++ str, exec_encodeText (encodeText_ok hne hmax hpre) s,
      exec_decodeText (decodeText_encoded hne (hdec (str ++ rest))) s⟩

/-- Settles O15: the encoder's two errors and its prefixed text; the decoder by what its prefix answers. -/
theorem textOperationsResult : Obligations.TextOperationsResult := by
  refine ⟨fun str s => ⟨?empty, fun hbig => exec_encodeText (encodeText_tooBig hbig) s, fun hne hmax => ?encoded⟩,
    fun str p s => ⟨fun e h => exec_decodeText (decodeText_error h) s,
      fun n q h => ⟨fun hshort => ?passesEnd, fun hfits => ?decoded⟩⟩⟩
  case empty =>
    rintro rfl
    exact exec_encodeText encodeText_empty s
  case encoded =>
    obtain ⟨pre, hpre, -⟩ := encodeLength_decodeLength hmax
    exact ⟨pre, hpre, exec_encodeText (encodeText_ok hne hmax hpre) s⟩
  case passesEnd =>
    have hdec := decodeText_prefixed h
    rw [if_pos hshort] at hdec
    exact exec_decodeText hdec s
  case decoded =>
    have hdec := decodeText_prefixed h
    rw [if_neg (Nat.not_lt.mpr hfits)] at hdec
    exact exec_decodeText hdec s

end Sys2Proof.Machine
end

section
/-! What an input of the reassembler comes to (`43_reassembler.md`): it completes no frame, it completes a header that
is over-long, or it completes a well-formed frame and goes on behind it; and what cutting an input changes (R189). -/

namespace Sys2Proof.Machine

/-! ### Bytes that complete no frame (R182, R184) -/

/-- Where the reassembler is still in one of its two phases behind `x`, the rounds on `x` only store it. -/
theorem feedLoop_stored {n fuel fs : Nat} {x : Bytes} {s : State} (h : phaseSound (stored x s) = true) :
    feedLoop n (fuel + 1) fs x s = .next ((.ok, n), stored x s) := by
  rw [phaseSound_iff, stored_cur] at h
  by_cases h4 : s.cur + x.length < 4
  · exact feedLoop_header h4
  · obtain ⟨hdr, hread, hlt, hle⟩ := h.resolve_left h4
    refine feedLoop_partial (by omega) ?_ hle hlt
    rw [← headerAfter_eq (k := x.length) (by omega), List.take_length, hread]

/-- Settles O37: behind the input the reassembler is still in one of its phases, and an empty input is taken as it
is. -/
theorem recvKeepsPartialFrame : Obligations.RecvKeepsPartialFrame := by
  refine ⟨fun inp s hact hpart => ⟨?answer, stored_cur inp s, fun a ha => stored_read_other ha,
    fun k hk => stored_read hk⟩, fun s hact => ⟨?empty, ?absent⟩⟩
  case answer =>
    have hph : phaseSound (stored inp s) = true := by
      rw [phaseSound_iff, stored_cur]
      exact hpart.imp_right fun ⟨hdr, _, hread, hlt, hle⟩ => ⟨hdr, hread, hlt, hle⟩
    show execRecv (some inp) s = _
    rw [execRecv, recv, whenActive_active hact, feed, feedLoop_stored hph, returns_next]
  case empty =>
    show execRecv (some []) s = _
    rw [execRecv, recv, whenActive_active hact, feed, feedLoop_nil, returns_next]
    rfl
  case absent =>
    show execRecv none s = _
    rw [execRecv, recv, whenActive_active hact, returns_next]

/-! ### An over-long header (R183) -/

section

variable {cid : ChanId} {f : Flags} {size : Size16} (rest : Bytes) {s : State} (hact : s.linkState = .active)
  (hp : hasPayload f = true) (hbig : 0xFFFC < size.toNat)

include hact hp hbig

/-- The bytes that complete an over-long header are stored and fail the Link, whatever stands behind them. -/
theorem execRecv_overlong (h : arrivedFront (headerBytes cid f size) s) :
    execRecv (some ((headerBytes cid f size).drop s.cur ++ rest)) s =
      .next (emit (.ret (.consumed .payloadTooBig 0))
        { stored ((headerBytes cid f size).drop s.cur) s with linkState := .failed }) := by
  have hcur : s.cur < 4 := h.1
  have hlen : ((headerBytes cid f size).drop s.cur).length = 4 - s.cur := List.length_drop
  have hlong : maxFrame < totalLength (headerBytes cid f size) := by
    have hT := totalLength_headerBytes cid f size []
    rw [List.append_nil, if_pos hp] at hT
    rw [hT]
    show 0x10000 < _
    omega
  have hne : (headerBytes cid f size).drop s.cur ++ rest ≠ [] := by
    rw [← List.length_pos_iff, List.length_append, hlen]
    omega
  have htake : ((headerBytes cid f size).drop s.cur ++ rest).take (4 - s.cur) =
      (headerBytes cid f size).drop s.cur := List.take_left' hlen
  rw [execRecv, recv, whenActive_active hact, feed,
    feedLoop_overlong hne (by rw [List.length_append, hlen]; omega) (headerAfter_arrived h (Nat.le_refl 4)) hlong,
    htake, returns_next]

/-- The same where the header begins at a frame boundary. -/
theorem execRecv_streamBytes_overlong (hcur : s.cur = 0) :
    execRecv (some (streamBytes f size cid rest)) s =
      .next (emit (.ret (.consumed .payloadTooBig 0))
        { stored (headerBytes cid f size) s with linkState := .failed }) := by
  have h := execRecv_overlong (cid := cid) rest hact hp hbig
    (arrivedFront_boundary hcur (List.ne_nil_of_length_pos (Nat.zero_lt_succ 3)))
  rwa [hcur, List.drop_zero] at h

end

/-- Settles O38: the four bytes of the header fail the Link, be they an input or the front of a frame instruction. -/
theorem overlongFrameIsFatal : Obligations.OverlongFrameIsFatal := by
  refine ⟨fun cid f size rest s hact harr hp hbig => execRecv_overlong rest hact hp hbig harr,
    fun i cid f size rest s hkind hact hcur hp hbig => ?_⟩
  rw [← execRecv_streamBytes_overlong rest hact hp hbig hcur]
  rcases hkind with hkind | ⟨rfl, rfl⟩
  · exact (exec_payloadKind hkind).2 s
  · rfl

/-! ### A complete frame (R185, R186) -/

/-- The rounds behind a frame of which the input held `d` bytes are the `feed` of the rest, counted from there. -/
theorem feedLoop_behind_frame {rest : Bytes} {s : State} {d : Nat} (hd : 0 < d) :
    feedLoop (rest.length + d) (rest.length + d) d rest (frameBoundary s) =
      andThen (feed rest (frameBoundary s)) fun r t => .next ((r.1, r.2 + d), t) := by
  have := feedLoop_shift (x := rest) (s := frameBoundary s) (fuel' := rest.length + d) (fs := 0) (d := d)
    (Nat.le_refl _) (Nat.lt_succ_self _) (by omega) (Nat.zero_lt_succ 3)
  rwa [Nat.zero_add] at this

/-- The bytes that complete a frame, and then `rest`: the frame is dispatched, and `rest` is an input of its own at the
next boundary, with its count on top. -/
theorem feed_arrived {frame rest : Bytes} {s : State} (h : arrivedFront frame s) (hw : frameWf frame = true) :
    feed (frame.drop s.cur ++ rest) s =
      andThen (route frame (stored (frame.drop s.cur) s)) fun st t =>
        if t.linkState = .failed then .next ((if st = .ok then .linkNotActive else st, 0), t)
        else if st ≠ .ok then .next ((st, frame.length - s.cur), frameBoundary t)
        else andThen (feed rest (frameBoundary t)) fun r u => .next ((r.1, r.2 + (frame.length - s.cur)), u) := by
  have hlt := h.1
  have hlen : (frame.drop s.cur ++ rest).length = rest.length + (frame.length - s.cur) := by
    rw [List.length_append, List.length_drop, Nat.add_comm]
  rw [feed, feedLoop_arrived h hw, hlen, Nat.add_sub_cancel_left]
  simp only [feedLoop_behind_frame (Nat.sub_pos_of_lt hlt)]

/-- Settles O43: `feed_arrived` for each answer of `route` and each answer of what follows. -/
theorem completeFrameIsRouted : Obligations.CompleteFrameIsRouted := by
  intro frame rest s hact harr hwf full inp taken
  have hfeed : feed inp s = _ := feed_arrived harr hwf
  have hcur : full.cur = frame.length := by
    rw [stored_cur, List.length_drop, Nat.add_sub_cancel' (Nat.le_of_lt harr.1)]
  have hlen : frame.length = totalLength frame := by
    simp only [frameWf, Bool.and_eq_true, decide_eq_true_eq] at hwf
    exact hwf.1.2
  refine ⟨hcur.trans hlen, arrivedFront_readRange harr, fun st t hroute => ?answered, fun e he => ?fault,
    fun e he => ?refused⟩
  case answered =>
    rw [hroute, andThen_next] at hfeed
    refine ⟨fun hfailed => ?_, fun hlive hst => ?_, fun hlive hst => ?_⟩
    · rw [hfeed, if_pos hfailed]
    · rw [hfeed, if_neg hlive, if_pos hst]
    · rw [if_neg hlive, if_neg (not_not_intro hst)] at hfeed
      refine ⟨fun st' m u hrest => ?_, fun e he => ?_, fun e he => ?_⟩
      · rw [hfeed, hrest, andThen_next, Nat.add_comm]
      · rw [hfeed, he, andThen_fault]
      · rw [hfeed, he, andThen_refused]
  case fault => rw [hfeed, he, andThen_fault]
  case refused => rw [hfeed, he, andThen_refused]

/-! ### Inputs that are taken without an error (R187 (a), R189) -/

/-- An input taken without an error, whatever the counts: it completes no frame and is stored; or it completes a
well-formed frame, which `route` answers with `OK` on a Link that did not fail, and the rest is taken at the next
boundary. -/
inductive TakesAll : Bytes → State → State → Prop
  | stores {x : Bytes} {s : State} (hph : phaseSound (stored x s) = true) : TakesAll x s (stored x s)
  | routes {frame rest : Bytes} {s t u : State} (harr : arrivedFront frame s) (hwf : frameWf frame = true)
      (hroute : route frame (stored (frame.drop s.cur) s) = .next (.ok, t)) (hlive : t.linkState ≠ .failed)
      (hrest : TakesAll rest (frameBoundary t) u) : TakesAll (frame.drop s.cur ++ rest) s u

/-- A frame boundary is a sound place: nothing has to be written, and it is the header phase. -/
theorem filled_frameBoundary (s : State) : bufferFilled (frameBoundary s).rbuf (frameBoundary s).cur = true := rfl

/-- Behind an input that is taken the reassembler is between operations again (R190). -/
theorem TakesAll.sound {x : Bytes} {s t : State} (h : TakesAll x s t) (hfill : bufferFilled s.rbuf s.cur = true) :
    bufferFilled t.rbuf t.cur = true ∧ phaseSound t = true := by
  induction h with
  | stores hph => exact ⟨stored_filled hfill, hph⟩
  | routes _ _ _ _ _ ih => exact ih (filled_frameBoundary _)

/-- What an input comes to, from a state between operations: it completes no frame; its header is over-long; or it is
the bytes that complete a well-formed frame, and more. -/
theorem input_cases {x : Bytes} {s : State} (hfill : bufferFilled s.rbuf s.cur = true) (hph : phaseSound s = true) :
    phaseSound (stored x s) = true ∨
    (∃ hdr, x ≠ [] ∧ 4 ≤ s.cur + x.length ∧ headerAfter x s = some hdr ∧ maxFrame < totalLength hdr) ∨
    ∃ frame rest, arrivedFront frame s ∧ frameWf frame = true ∧ x = frame.drop s.cur ++ rest := by
  rcases round_cases (x := x) hfill hph with
    hshort | ⟨hdr, h4, hhdr, hcur, ⟨hne, hlong⟩ | ⟨hle, hpart⟩ | ⟨hle, hfull, frame, hread, hwf, hlen⟩⟩
  · exact .inl (phaseSound_iff.mpr (.inl (by rwa [stored_cur])))
  · exact .inr (.inl ⟨hdr, hne, h4, hhdr, hlong⟩)
  · exact .inl (phaseSound_stored_partial h4 hhdr hle hpart)
  · obtain ⟨front, hfront, hflen⟩ := filled_readRange hfill (Nat.le_refl s.cur)
    have hframe : frame = front ++ x.take (totalLength hdr - s.cur) := by
      have := stored_readRange (x := x.take (totalLength hdr - s.cur)) hfront
      rw [List.length_take, show s.cur + min (totalLength hdr - s.cur) x.length = totalLength hdr by omega,
        hread] at this
      exact Option.some.inj this
    have htake : frame.take s.cur = front := by rw [hframe, List.take_left' hflen]
    have hdrop : frame.drop s.cur = x.take (totalLength hdr - s.cur) := by rw [hframe, List.drop_left' hflen]
    have harr : arrivedFront frame s := ⟨by rwa [hlen], by rw [htake, hfront]⟩
    refine .inr (.inr ⟨frame, x.drop (totalLength hdr - s.cur), harr, hwf, ?_⟩)
    rw [hdrop, List.take_append_drop]

/-- The rest of an input behind a frame is shorter than the input. -/
theorem length_rest_lt {frame : Bytes} {s : State} (h : arrivedFront frame s) (rest : Bytes) :
    rest.length < (frame.drop s.cur ++ rest).length := by
  have := h.1
  rw [List.length_append, List.length_drop]
  omega

/-- The rounds take such an input whatever their counts are. -/
theorem feedLoop_of_takesAll {x : Bytes} {s t : State} (h : TakesAll x s t) {n fuel fs : Nat}
    (hfuel : x.length < fuel) : feedLoop n fuel fs x s = .next ((.ok, n), t) := by
  induction h generalizing fuel fs with
  | stores hph =>
    obtain ⟨fuel, rfl⟩ := Nat.exists_eq_add_one_of_ne_zero (Nat.ne_zero_of_lt hfuel)
    exact feedLoop_stored hph
  | routes harr hwf hroute hlive _ ih =>
    obtain ⟨fuel, rfl⟩ := Nat.exists_eq_add_one_of_ne_zero (Nat.ne_zero_of_lt hfuel)
    rw [feedLoop_arrived harr hwf, hroute, andThen_next, if_neg hlive, if_neg (not_not_intro rfl)]
    exact ih (Nat.lt_of_lt_of_le (length_rest_lt harr _) (Nat.le_of_lt_succ hfuel))

/-- Rounds that end with `OK` have taken the whole input: an over-long header and a failed Link end them otherwise. -/
theorem takesAll_of_feedLoop {n fuel fs m : Nat} {x : Bytes} {s t : State} (hfill : bufferFilled s.rbuf s.cur = true)
    (hph : phaseSound s = true) (hfuel : x.length < fuel) (h : feedLoop n fuel fs x s = .next ((.ok, m), t)) :
    TakesAll x s t := by
  induction fuel generalizing fs x s with
  | zero => omega
  | succ fuel ih =>
    rcases input_cases (x := x) hfill hph with
      hkeep | ⟨hdr, hne, h4, hhdr, hlong⟩ | ⟨frame, rest, harr, hwf, rfl⟩
    · cases (feedLoop_stored hkeep).symm.trans h
      exact .stores hkeep
    · cases (feedLoop_overlong hne h4 hhdr hlong).symm.trans h
    · rw [feedLoop_arrived harr hwf] at h
      obtain ⟨st, u, hroute, h⟩ := andThen_eq_next.mp h
      split at h
      case isTrue =>
        by_cases hst : st = .ok
        · rw [if_pos hst] at h
          cases h
        · rw [if_neg hst] at h
          cases h
          exact absurd rfl hst
      case isFalse hlive =>
        split at h
        case isTrue hst =>
          cases h
          exact absurd rfl hst
        case isFalse hst =>
          rw [not_not.mp hst] at hroute
          exact .routes harr hwf hroute hlive (ih (filled_frameBoundary u) (phaseSound_frameBoundary u)
            (Nat.lt_of_lt_of_le (length_rest_lt harr rest) (Nat.le_of_lt_succ hfuel)) h)

/-- `feed` returns `OK` for exactly the inputs that are taken, and counts all of them (R187 (a)). -/
theorem feed_eq_ok_iff {m : Nat} {x : Bytes} {s t : State} (hfill : bufferFilled s.rbuf s.cur = true)
    (hph : phaseSound s = true) : feed x s = .next ((.ok, m), t) ↔ m = x.length ∧ TakesAll x s t := by
  constructor
  · intro h
    have htakes := takesAll_of_feedLoop hfill hph (Nat.lt_succ_self _) h
    cases (feedLoop_of_takesAll htakes (Nat.lt_succ_self _)).symm.trans h
    exact ⟨rfl, htakes⟩
  · rintro ⟨rfl, htakes⟩
    exact feedLoop_of_takesAll htakes (Nat.lt_succ_self _)

/-! ### Two inputs in a row (R189) -/

/-- A string of which `x` is the part that arrived last was arriving before `x` did, with `x` in front of what is still
to come. -/
theorem arrivedFront_of_stored {x str : Bytes} {s : State} (hfill : bufferFilled s.rbuf s.cur = true)
    (h : arrivedFront str (stored x s)) :
    arrivedFront str s ∧ str.drop s.cur = x ++ str.drop (stored x s).cur := by
  obtain ⟨hlt, hread⟩ := h
  obtain ⟨front, hfront, hflen⟩ := filled_readRange hfill (Nat.le_refl s.cur)
  rw [stored_cur] at hlt hread ⊢
  have htake : str.take (s.cur + x.length) = front ++ x :=
    Option.some.inj (hread.symm.trans (stored_readRange hfront))
  have hstr : str = front ++ (x ++ str.drop (s.cur + x.length)) := by
    rw [← List.append_assoc, ← htake, List.take_append_drop]
  refine ⟨⟨by omega, ?_⟩, (congrArg (List.drop s.cur) hstr).trans (List.drop_left' hflen)⟩
  rw [hfront, hstr, List.take_left' hflen]

/-- Stored bytes and an input taken behind them are one input. -/
theorem TakesAll.stored_append {x y : Bytes} {s u : State} (hfill : bufferFilled s.rbuf s.cur = true)
    (h : TakesAll y (stored x s) u) : TakesAll (x ++ y) s u := by
  cases h with
  | stores hph =>
    rw [← Machine.stored_append] at hph ⊢
    exact .stores hph
  | routes harr hwf hroute hlive hrest =>
    obtain ⟨harr', hdrop⟩ := arrivedFront_of_stored hfill harr
    rw [← List.append_assoc, ← hdrop]
    refine .routes harr' hwf ?_ hlive hrest
    rw [hdrop, Machine.stored_append, hroute]

/-- Two inputs that are taken one after the other are taken as one. -/
theorem TakesAll.append {x y : Bytes} {s t u : State} (hx : TakesAll x s t) (hfill : bufferFilled s.rbuf s.cur = true)
    (hy : TakesAll y t u) : TakesAll (x ++ y) s u := by
  induction hx with
  | stores _ => exact hy.stored_append hfill
  | routes harr hwf hroute hlive _ ih =>
    rw [List.append_assoc]
    exact .routes harr hwf hroute hlive (ih (filled_frameBoundary _) hy)

/-- Settles O45: `feed` returns `OK` for the inputs that are taken, and these may be joined. -/
theorem fragmentationInvariance : Obligations.FragmentationInvariance := by
  intro x y s t u hs hact hx hy
  have hfill := (hs.linkSound (by rw [hact]; decide)).filled
  have hph := hs.phase hact
  obtain ⟨-, hx⟩ := (feed_eq_ok_iff hfill hph).mp hx
  obtain ⟨hfill', hph'⟩ := hx.sound hfill
  obtain ⟨-, hy⟩ := (feed_eq_ok_iff hfill' hph').mp hy
  exact (feed_eq_ok_iff hfill hph).mpr ⟨rfl, hx.append hfill hy⟩

end Sys2Proof.Machine
end

section
/-! The send side of a channel (`44_channel.md` R200, R201, R203, R211): the frames a window allows in a row, a drain
with the answers of the sink listed, and what `write_frame` does behind its drain. -/

namespace Sys2Proof.Machine

/-! ### Frames in a row (R200, R22) -/

/-- The window after the frames `sent` went to the sink one after the other. -/
def windowAfterAll (sent : List Bytes) (w : Window) : Window := sent.foldl (fun v frame => windowAfter frame v) w

/-- The window has a credit for each of the frames that is not final. -/
def windowAllows (sent : List Bytes) (w : Window) : Prop :=
  nonFinalCount sent = 0 ∨ (nonFinalCount sent : Int) ≤ w.toInt

theorem windowAfter_final {frame : Bytes} (hf : isFinal (frameFlags frame) = true) (w : Window) :
    windowAfter frame w = w := if_pos hf

theorem windowAfter_nonFinal {frame : Bytes} (hf : isFinal (frameFlags frame) = false) (w : Window) :
    windowAfter frame w = w - 1#16 := if_neg (Bool.eq_false_iff.mp hf)

theorem windowAllows_nil (w : Window) : windowAllows [] w := .inl rfl

/-- Allowed frames are the first one, which may go, and the others behind it. -/
theorem windowAllows_cons {frame : Bytes} {rest : List Bytes} {w : Window} :
    windowAllows (frame :: rest) w ↔
      (isFinal (frameFlags frame) = true ∨ 1 ≤ w.toInt) ∧ windowAllows rest (windowAfter frame w) := by
  unfold windowAllows nonFinalCount
  cases hf : isFinal (frameFlags frame) with
  | true => simp [hf, windowAfter_final hf]
  | false =>
    simp only [List.countP_cons, hf, Bool.not_false, if_true, windowAfter_nonFinal hf, Bool.false_eq_true, false_or]
    by_cases hw : 1 ≤ w.toInt
    · rw [toInt_sub_one hw]
      omega
    · omega

theorem windowAllows_append {x y : List Bytes} {w : Window} :
    windowAllows (x ++ y) w ↔ windowAllows x w ∧ windowAllows y (windowAfterAll x w) := by
  induction x generalizing w with
  | nil => exact ⟨fun h => ⟨windowAllows_nil w, h⟩, fun h => h.2⟩
  | cons frame x ih => rw [List.cons_append, windowAllows_cons, windowAllows_cons, ih, and_assoc]; rfl

/-- Allowed frames cost one credit each but for the final ones (R33 (I-c)). -/
theorem toInt_windowAfterAll {sent : List Bytes} {w : Window} (h : windowAllows sent w) :
    (windowAfterAll sent w).toInt = w.toInt - nonFinalCount sent := by
  induction sent generalizing w with
  | nil => exact (Int.sub_zero _).symm
  | cons frame rest ih =>
    obtain ⟨hgo, hrest⟩ := windowAllows_cons.mp h
    have hstep := ih hrest
    simp only [windowAfterAll, nonFinalCount, List.foldl_cons, List.countP_cons] at hstep ⊢
    rw [hstep]
    cases hf : isFinal (frameFlags frame) with
    | true => simp [windowAfter_final hf]
    | false =>
      rw [windowAfter_nonFinal hf, toInt_sub_one (hgo.resolve_left (by rw [hf]; decide))]
      simp only [Bool.not_false, if_true]
      omega

theorem windowAllows_nonneg {sent : List Bytes} {w : Window} (h : windowAllows sent w) :
    nonFinalCount sent = 0 ∨ 0 ≤ (windowAfterAll sent w).toInt := by
  rw [toInt_windowAfterAll h]
  exact h.imp_right Int.sub_nonneg_of_le

/-- A queue begins with a longest front that the window allows: behind it stands no frame, or one that may not go. -/
theorem exists_longest_allowed (q : List Bytes) (w : Window) :
    ∃ sent kept, q = sent ++ kept ∧ windowAllows sent w ∧
      ∀ head tail, kept = head :: tail → isFinal (frameFlags head) = false ∧ (windowAfterAll sent w).toInt < 1 := by
  induction q generalizing w with
  | nil => exact ⟨[], [], rfl, windowAllows_nil w, nofun⟩
  | cons frame rest ih =>
    by_cases hgo : isFinal (frameFlags frame) = true ∨ 1 ≤ w.toInt
    · obtain ⟨sent, kept, rfl, hallow, hblocked⟩ := ih (windowAfter frame w)
      exact ⟨frame :: sent, kept, rfl, windowAllows_cons.mpr ⟨hgo, hallow⟩, hblocked⟩
    · refine ⟨[], frame :: rest, rfl, windowAllows_nil w, ?_⟩
      rintro _ _ ⟨⟩
      obtain ⟨hf, hw⟩ := not_or.mp hgo
      exact ⟨Bool.eq_false_iff.mpr hf, Int.not_le.mp hw⟩

/-! ### A drain with the answers of the sink listed (R203) -/

/-- `s` after the sink took the frames `sent` of slot `i`, which held `c`, with `kept` left in its queue. -/
def afterSent (i : Nat) (c : Channel) (sent kept : List Bytes) (s : State) : State :=
  { s with chans := s.chans.set i { c with queue := kept, window := windowAfterAll sent c.window },
           env := { s.env with sink := s.env.sink.drop sent.length },
           trace := s.trace ++ sent.map fun frame => .sink frame .ok }

theorem afterSent_nil {i : Nat} {c : Channel} {s : State} (hc : s.chans[i]? = some c) :
    afterSent i c [] c.queue s = s := by
  have hchans : s.chans.set i c = s.chans := congrArg State.chans (setChannel_self i c s hc)
  simp [afterSent, windowAfterAll, hchans]

/-- One frame taken by the sink, and then others. -/
theorem afterSent_cons {i : Nat} {c : Channel} {frame : Bytes} {sent rest kept : List Bytes} {more : List SinkStatus}
    {s : State} (hsink : s.env.sink = .ok :: more) :
    afterSent i { c with queue := rest, window := windowAfter frame c.window } sent kept
        (setChannel i { c with queue := rest, window := windowAfter frame c.window } (afterSinkWrite frame s)) =
      afterSent i c (frame :: sent) kept s := by
  rw [afterSinkWrite_ok frame hsink]
  simp [afterSent, setChannel, emit, windowAfterAll, hsink]

theorem afterSent_get {i : Nat} {c : Channel} {s : State} (hc : s.chans[i]? = some c) (sent kept : List Bytes) :
    (afterSent i c sent kept s).chans[i]? = some { c with queue := kept, window := windowAfterAll sent c.window } :=
  setChannel_get_same i c _ s hc

/-- The loop sends a front that the window allows while the sink takes it. -/
theorem drainLoop_append {i : Nat} {c : Channel} {sent kept : List Bytes} {more : List SinkStatus} {s : State}
    (hc : s.chans[i]? = some c) (hq : c.queue = sent ++ kept) (hallow : windowAllows sent c.window)
    (hsink : s.env.sink = List.replicate sent.length .ok ++ more) :
    drainLoop i (sent ++ kept) s = drainLoop i kept (afterSent i c sent kept s) := by
  induction sent generalizing c s with
  | nil =>
    rw [List.nil_append] at hq
    rw [← hq, afterSent_nil hc, hq, List.nil_append]
  | cons frame sent ih =>
    obtain ⟨hgo, hrest⟩ := windowAllows_cons.mp hallow
    rw [List.length_cons, List.replicate_succ, List.cons_append] at hsink
    have hget := setChannel_get_same i c
      { c with queue := sent ++ kept, window := windowAfter frame c.window } (afterSinkWrite frame s)
      (by rw [afterSinkWrite_chans]; exact hc)
    rw [List.cons_append, drainLoop_go hc hgo, if_pos (statusOfSinkWrite_ok hsink),
      ih hget rfl hrest (by rw [setChannel_env, afterSinkWrite_ok frame hsink]; rfl), afterSent_cons hsink]

/-- The same from the whole queue. -/
theorem drain_append {i : Nat} {c : Channel} {sent kept : List Bytes} {more : List SinkStatus} {s : State}
    (hc : s.chans[i]? = some c) (hq : c.queue = sent ++ kept) (hallow : windowAllows sent c.window)
    (hsink : s.env.sink = List.replicate sent.length .ok ++ more) :
    drain i s = drainLoop i kept (afterSent i c sent kept s) := by
  rw [drain, withChannel_some hc, hq, drainLoop_append hc hq hallow hsink]

/-- The loop ends at an empty queue and at a head that may not go. -/
theorem drainLoop_ends {i : Nat} {q : List Bytes} {c : Channel} {s : State} (hc : s.chans[i]? = some c)
    (hblocked : ∀ head tail, q = head :: tail → isFinal (frameFlags head) = false ∧ c.window.toInt < 1) :
    drainLoop i q s = .next (.ok, s) := by
  cases q with
  | nil => rfl
  | cons head tail =>
    obtain ⟨hf, hw⟩ := hblocked head tail rfl
    exact drainLoop_blocked hc (not_or.mpr ⟨Bool.eq_false_iff.mp hf, Int.not_le.mpr hw⟩)

/-- Nothing is sent from an empty queue or from behind a head that may not go. -/
theorem drain_ends {i : Nat} {c : Channel} {s : State} (hc : s.chans[i]? = some c)
    (hblocked : ∀ head tail, c.queue = head :: tail → isFinal (frameFlags head) = false ∧ c.window.toInt < 1) :
    drain i s = .next (.ok, s) := by
  rw [drain, withChannel_some hc, drainLoop_ends hc hblocked]

/-- A front that the window allows is sent, and no more where the frame behind it may not go. -/
theorem drain_sent {i : Nat} {c : Channel} {sent kept : List Bytes} {more : List SinkStatus} {s : State}
    (hc : s.chans[i]? = some c) (hq : c.queue = sent ++ kept) (hallow : windowAllows sent c.window)
    (hsink : s.env.sink = List.replicate sent.length .ok ++ more)
    (hblocked : ∀ head tail, kept = head :: tail →
      isFinal (frameFlags head) = false ∧ (windowAfterAll sent c.window).toInt < 1) :
    drain i s = .next (.ok, afterSent i c sent kept s) := by
  rw [drain_append hc hq hallow hsink, drainLoop_ends (afterSent_get hc sent kept) hblocked]

/-- With a sink that takes everything, a drain sends the longest front that the window allows. -/
theorem drain_accepted {i : Nat} {c : Channel} {more : List SinkStatus} {s : State} (hc : s.chans[i]? = some c)
    (hsink : s.env.sink = List.replicate c.queue.length .ok ++ more) :
    ∃ sent kept, c.queue = sent ++ kept ∧ windowAllows sent c.window ∧
      (∀ head tail, kept = head :: tail →
        isFinal (frameFlags head) = false ∧ (windowAfterAll sent c.window).toInt < 1) ∧
      drain i s = .next (.ok, afterSent i c sent kept s) := by
  obtain ⟨sent, kept, hq, hallow, hblocked⟩ := exists_longest_allowed c.queue c.window
  rw [hq, List.length_append, List.replicate_add, List.append_assoc] at hsink
  exact ⟨sent, kept, hq, hallow, hblocked, drain_sent hc hq hallow hsink hblocked⟩

/-- Settles O21: the longest allowed front, and the window behind it as a number. -/
theorem drainSendsAllowedFront : Obligations.DrainSendsAllowedFront := by
  intro i c more s hc hsink
  obtain ⟨sent, kept, hq, hallow, hblocked, hdrain⟩ := drain_accepted hc hsink
  exact ⟨sent, kept, windowAfterAll sent c.window, hq, toInt_windowAfterAll hallow, windowAllows_nonneg hallow,
    hblocked, hdrain⟩

/-- The loop ends at the first frame the sink does not take, with its bookkeeping done (R258). -/
theorem drainLoop_fails {i : Nat} {head : Bytes} {tail : List Bytes} {c : Channel} {e : Int} {s : State}
    (hc : s.chans[i]? = some c) (hgo : mayGo head c) (hfail : (drawSink s).1 = .fail e) :
    drainLoop i (head :: tail) s = .next (.outputBufferTooSmall,
      setChannel i { c with queue := tail, window := windowAfter head c.window } (afterSinkWrite head s)) := by
  have hst : statusOfSinkWrite s = .outputBufferTooSmall := if_neg (by rw [hfail]; exact nofun)
  rw [drainLoop_go hc hgo, hst, if_neg (by decide)]

/-- Settles O22: the first write that fails, and one behind a front that was taken. -/
theorem drainStopsAtSinkFailure : Obligations.DrainStopsAtSinkFailure := by
  refine ⟨fun i c head tail e s hc hq hgo hfail => ?first,
    fun i c sent head tail e more s hc hq hallow hsink => ?later⟩
  case first =>
    rw [drain, withChannel_some hc, hq]
    exact drainLoop_fails hc hgo hfail
  case later =>
    obtain ⟨hsent, hhead⟩ := windowAllows_append.mp hallow
    obtain ⟨hgo, -⟩ := windowAllows_cons.mp hhead
    have hnext : (afterSent i c sent (head :: tail) s).env.sink = .fail e :: more := by simp [afterSent, hsink]
    refine ⟨windowAfterAll (sent ++ [head]) c.window, toInt_windowAfterAll hallow, ?_⟩
    rw [drain_append hc hq hsent hsink,
      drainLoop_fails (afterSent_get hc _ _) hgo (by rw [drawSink_cons hnext]), afterSinkWrite_cons head hnext]
    simp [afterSent, setChannel, windowAfterAll]

/-- Settles O23: a drain always answers, and changes of the slots the queue and the window of its own only. -/
theorem drainAlwaysReturns : Obligations.DrainAlwaysReturns := by
  intro i c s hc
  obtain ⟨st, t, sent, kept, w, hdrain, hkeeps, -, hset, hend⟩ := drain_spec hc
  exact ⟨st, t, hdrain, hkeeps.keepsAllBut_of_set hc hset rfl rfl, hend.imp_left fun ⟨hst, hl, _⟩ => ⟨hst, hl⟩⟩

/-! ### The entry checks of `write_frame` (R201, R263) -/

/-- On an `Active` Link `write_frame` begins with its entry checks. -/
theorem exec_writeFrame_checks {s : State} (hact : s.linkState = .active) (i : Nat) (frame : Bytes) :
    exec (.writeFrame i frame) s = returns .status (writeFrameActive i frame s) :=
  congrArg (returns .status) (whenActive_active hact _ _)

theorem writeFrameActive_short {i : Nat} {frame : Bytes} {s : State} (h : frame.length < 4) :
    writeFrameActive i frame s = .next (.invalidParameter, s) := if_pos h

theorem writeFrameActive_tooBig {i : Nat} {frame : Bytes} {s : State} (h4 : 4 ≤ frame.length)
    (hbig : 0x10000 < frame.length ∨ 0x10000 < totalLength frame) :
    writeFrameActive i frame s = .next (.payloadTooBig, s) :=
  (if_neg (Nat.not_lt.mpr h4)).trans (if_pos hbig)

theorem writeFrameActive_wrongLength {i : Nat} {frame : Bytes} {s : State} (h4 : 4 ≤ frame.length)
    (hlen : frame.length ≤ 0x10000) (htotal : totalLength frame ≤ 0x10000) (hne : frame.length ≠ totalLength frame) :
    writeFrameActive i frame s = .next (.invalidParameter, s) :=
  (if_neg (Nat.not_lt.mpr h4)).trans
    ((if_neg (not_or.mpr ⟨Nat.not_lt.mpr hlen, Nat.not_lt.mpr htotal⟩)).trans (if_pos hne))

/-- A well-formed frame passes the checks that need no slot (R129). -/
theorem writeFrameActive_wf {i : Nat} {frame : Bytes} {s : State} (hwf : frameWf frame = true) :
    writeFrameActive i frame s = withChannel i s fun c =>
      if frameId frame ≠ c.chanId then .next (.invalidChannelId, s) else submit i frame s := by
  simp only [frameWf, Bool.and_eq_true, decide_eq_true_eq] at hwf
  obtain ⟨⟨h4, hlen⟩, hmax⟩ := hwf
  rw [writeFrameActive, if_neg (Nat.not_lt.mpr h4), if_neg (by omega), if_neg (not_not_intro hlen)]

/-- Settles O18: one lemma per check, and the slot is looked up behind those that need none. -/
theorem writeFrameEntryChecks : Obligations.WriteFrameEntryChecks := by
  intro i frame s hact
  rw [exec_writeFrame_checks hact]
  refine ⟨fun h => ?short, fun h4 hbig => ?tooBig, fun h4 hlen htotal hne => ?wrongLength,
    fun c hwf hc hid => ?wrongId, fun hwf hnone => ?noSlot⟩
  case short => rw [writeFrameActive_short h, returns_next]
  case tooBig => rw [writeFrameActive_tooBig h4 hbig, returns_next]
  case wrongLength => rw [writeFrameActive_wrongLength h4 hlen htotal hne, returns_next]
  case wrongId => rw [writeFrameActive_wf hwf, withChannel_some hc, if_pos hid, returns_next]
  case noSlot => rw [writeFrameActive_wf hwf, withChannel_none hnone, returns_fault]

/-! ### `write_frame` behind its drain (R201, R211) -/

theorem queueIsFull_of_le {cap : Option Nat} {q : List Bytes} (h : ∃ n, cap = some n ∧ n ≤ q.length) :
    queueIsFull cap q = true := by
  obtain ⟨n, rfl, hn⟩ := h
  exact decide_eq_true hn

theorem queueIsFull_of_lt {cap : Option Nat} {q : List Bytes} (h : ∀ n, cap = some n → q.length < n) :
    queueIsFull cap q = false := by
  cases cap with
  | none => rfl
  | some n => exact decide_eq_false (Nat.not_le.mpr (h n rfl))

theorem enqueue_full {i : Nat} {frame : Bytes} {c : Channel} {s : State} (hc : s.chans[i]? = some c)
    (h : ∃ n, s.cfg.queueCap = some n ∧ n ≤ c.queue.length) : enqueue i frame s = .refused (.queueFull i) := by
  rw [enqueue, withChannel_some hc, queueIsFull_of_le h, if_pos rfl]

theorem enqueue_room {i : Nat} {frame : Bytes} {c : Channel} {s : State} (hc : s.chans[i]? = some c)
    (h : ∀ n, s.cfg.queueCap = some n → c.queue.length < n) :
    enqueue i frame s = .next (.ok, setChannel i { c with queue := c.queue ++ [frame] } s) :=
  (enqueue_eq_next hc).mpr ⟨queueIsFull_of_lt h, rfl⟩

/-- A failed drain ends the submission (D8). -/
theorem submit_of_drain_failed {i : Nat} {frame : Bytes} {s s1 : State} {st : Status}
    (hdrain : drain i s = .next (st, s1)) (hst : st ≠ .ok) : submit i frame s = .next (st, s1) := by
  rw [submit, hdrain, andThen_next, if_pos hst]

section

variable {i : Nat} {frame : Bytes} {d : Channel} {s s1 : State} (hdrain : drain i s = .next (.ok, s1))
  (hd : s1.chans[i]? = some d)

include hdrain hd

/-- Behind a drain that emptied the queue and left a credit the frame goes to the sink. -/
theorem submit_of_drain_open (hq : d.queue = []) (hw : 1 ≤ d.window.toInt) :
    submit i frame s = .next (statusOfSinkWrite s1,
      setChannel i { d with window := windowAfter frame d.window } (afterSinkWrite frame s1)) := by
  have hopen : windowClosed d = false := decide_eq_false (Int.not_lt.mpr hw)
  rw [submit, hdrain, andThen_next, if_neg (not_not_intro rfl), withChannel_some hd,
    if_pos (by rw [hq, hopen]; rfl), transmit_eq hd]

/-- Behind older frames, or with the window closed, the frame is queued. -/
theorem submit_of_drain_blocked (h : d.queue ≠ [] ∨ d.window.toInt < 1) : submit i frame s = enqueue i frame s1 := by
  have hblocked : ¬ (d.queue.isEmpty && !windowClosed d) = true := by
    simp only [Bool.and_eq_true, List.isEmpty_iff, Bool.not_eq_true', windowClosed, decide_eq_false_iff_not]
    exact fun ⟨hq, hw⟩ => h.elim (fun hne => hne hq) hw
  rw [submit, hdrain, andThen_next, if_neg (not_not_intro rfl), withChannel_some hd, if_neg hblocked]

end

/-- Settles O24: what the drain answers, and what it left of the queue and of the window. -/
theorem writeFrameAfterDrain : Obligations.WriteFrameAfterDrain := by
  intro i frame c s hact hc hwf hid
  rw [exec_writeFrame_active hact hc hwf hid]
  refine ⟨fun st s1 hdrain hst => ?failed, fun s1 d hdrain hd =>
    ⟨fun hq hw => ?sends, fun hblocked => ⟨fun hfull => ?full, fun hroom => ?room⟩⟩⟩
  case failed => rw [submit_of_drain_failed hdrain hst, returns_next]
  case sends => exact congrArg (returns .status) (submit_of_drain_open hdrain hd hq hw)
  case full => rw [submit_of_drain_blocked hdrain hd hblocked, enqueue_full hd hfull, returns_refused]
  case room => rw [submit_of_drain_blocked hdrain hd hblocked, enqueue_room hd hroom, returns_next]

/-- Settles O19: an empty queue has nothing to drain. -/
theorem writeFrameSendsWhenWindowOpen : Obligations.WriteFrameSendsWhenWindowOpen := by
  intro i frame c s hact hc hwf hid hq hw
  rw [exec_writeFrame_active hact hc hwf hid]
  exact congrArg (returns .status) (submit_of_queue_nil_open hc hq hw)

/-- Settles O20: with the window closed a head that is not final blocks the drain, and the frame goes behind it. -/
theorem writeFrameQueuesWhenWindowClosed : Obligations.WriteFrameQueuesWhenWindowClosed := by
  intro i frame c s hact hc hwf hid hhead hw
  have hdrain : drain i s = .next (.ok, s) := drain_ends hc fun head tail hq => ⟨hhead head tail hq, hw⟩
  rw [exec_writeFrame_active hact hc hwf hid, submit_of_drain_blocked hdrain hc (.inr hw)]
  exact ⟨fun hfull => by rw [enqueue_full hc hfull, returns_refused],
    fun hroom => by rw [enqueue_room hc hroom, returns_next]⟩

/-- With a sink that takes everything and an unbounded queue, a submission sends a front of the old queue with the new
frame behind it, and leaves the rest (R209). -/
theorem submit_accepted {i : Nat} {frame : Bytes} {c : Channel} {more : List SinkStatus} {s : State}
    (hc : s.chans[i]? = some c) (hcap : s.cfg.queueCap = none)
    (hsink : s.env.sink = List.replicate (c.queue.length + 1) .ok ++ more) :
    ∃ sent kept, c.queue ++ [frame] = sent ++ kept ∧ windowAllows sent c.window ∧
      submit i frame s = .next (.ok, afterSent i c sent kept s) := by
  rw [List.replicate_add, List.append_assoc] at hsink
  obtain ⟨sent, kept, hq, hallow, -, hdrain⟩ := drain_accepted hc hsink
  have hget := afterSent_get hc sent kept
  by_cases hopen : kept = [] ∧ 1 ≤ (windowAfterAll sent c.window).toInt
  case pos =>
    obtain ⟨rfl, hw⟩ := hopen
    rw [List.append_nil] at hq
    have hnext : (afterSent i c sent [] s).env.sink = .ok :: more := by simp [afterSent, hsink, hq]
    refine ⟨sent ++ [frame], [], by rw [hq, List.append_nil], windowAllows_append.mpr ⟨hallow, ?_⟩, ?_⟩
    · exact windowAllows_cons.mpr ⟨.inr hw, windowAllows_nil _⟩
    · rw [submit_of_drain_open hdrain hget rfl hw, statusOfSinkWrite_ok hnext, afterSinkWrite_ok frame hnext]
      simp [afterSent, setChannel, emit, windowAfterAll, hsink, hq, List.drop_append]
  case neg =>
    refine ⟨sent, kept ++ [frame], by rw [hq, List.append_assoc], hallow, ?_⟩
    rw [submit_of_drain_blocked hdrain hget ((not_and_or.mp hopen).imp_right Int.not_le.mp),
      enqueue_room hget (fun n hn => by cases hcap.symm.trans hn)]
    simp [afterSent, setChannel]

/-- Settles O26: the window behind the frames sent, as a number. -/
theorem writeFrameConservation : Obligations.WriteFrameConservation := by
  intro i frame c more s hact hc hwf hid hw hcap hsink
  obtain ⟨sent, kept, hq, hallow, hsubmit⟩ := submit_accepted (frame := frame) hc hcap hsink
  have hnum := toInt_windowAfterAll hallow
  have hnonneg : 0 ≤ (windowAfterAll sent c.window).toInt :=
    (windowAllows_nonneg hallow).elim (fun h0 => by rw [hnum, h0]; omega) id
  refine ⟨sent, kept, windowAfterAll sent c.window, emit (.ret (.status .ok)) (afterSent i c sent kept s), hq, hnum,
    hnonneg, ?_, rfl, hact, rfl⟩
  rw [exec_writeFrame_active hact hc hwf hid, hsubmit, returns_next]

end Sys2Proof.Machine
end

section
/-! A direct `process_frame` (`44_channel.md` R202): its preconditions, a credit and a drain without payload, and an ack
and the callback with payload. -/

namespace Sys2Proof.Machine

/-! ### The preconditions (D25) -/

theorem execProcessFrame_uninitialized {i : Nat} {frame : Bytes} {s : State} (h : s.linkState = .uninitialized) :
    execProcessFrame i frame s = .refused .uninitialized := by
  rw [execProcessFrame, h]

theorem execProcessFrame_inactive {i : Nat} {frame : Bytes} {s : State}
    (h : s.linkState = .closed ∨ s.linkState = .failed) : execProcessFrame i frame s = .refused .processNotActive := by
  rcases h with h | h <;> rw [execProcessFrame, h]

/-- Settles O36: the state of the Link, then the frame, then its ID. -/
theorem processFramePreconditions : Obligations.ProcessFramePreconditions := by
  intro i frame s
  refine ⟨execProcessFrame_uninitialized, execProcessFrame_inactive, fun c hact hc hwf => ?illFormed,
    fun c hact hc hwf hid => ?wrongChannel⟩
  case illFormed =>
    refine (execProcessFrame_active hact).trans ?_
    rw [withChannel_some hc, hwf, if_pos (by decide), returns_refused]
  case wrongChannel =>
    refine (execProcessFrame_active hact).trans ?_
    rw [withChannel_some hc, hwf, if_neg (by decide), if_pos hid, returns_refused]

/-! ### A frame without payload and a frame with payload -/

section

variable {i : Nat} {frame : Bytes} {c : Channel} {s : State} (hact : s.linkState = .active)
  (hc : s.chans[i]? = some c) (hwf : frameWf frame = true) (hid : frameId frame = c.chanId)

include hact hc hwf hid

/-- Without payload: one credit, and what the drain then answers (R202, R204). -/
theorem exec_processFrame_credit {st : Status} {t : State} (hp : hasPayload (frameFlags frame) = false)
    (hdrain : drain i (setChannel i { c with window := creditWindow c.window } s) = .next (st, t)) :
    exec (.processFrame i frame) s = .next (emit (.ret (.headStatus false st)) t) := by
  rw [exec_processFrame_active hact hc hwf hid, processFrame, if_neg (Bool.eq_false_iff.mp hp), creditAndDrain,
    withChannel_some hc, hdrain, andThen_next, returns_next]

variable (hp : hasPayload (frameFlags frame) = true)

include hp

/-- With the ack refused by the sink nothing follows it (R205, D8). -/
theorem exec_processFrame_unacked (hack : (drawSink s).1 ≠ .ok) :
    exec (.processFrame i frame) s =
      .next (emit (.ret (.headStatus false .outputBufferTooSmall)) (afterSinkWrite (makeAck c.chanId) s)) := by
  have hst : statusOfSinkWrite s = .outputBufferTooSmall := if_neg hack
  rw [exec_processFrame_active hact hc hwf hid, processFrame, if_pos hp, ackAndNotify_eq hc hp, hst,
    if_pos (by decide), returns_next]

/-- With the ack accepted and no callback the frame is dropped (R206). -/
theorem exec_processFrame_dropped (hack : (drawSink s).1 = .ok) (hcb : c.callback = none) :
    exec (.processFrame i frame) s =
      .next (emit (.ret (.headStatus (hasHead (frameFlags frame)) .ok)) (afterSinkWrite (makeAck c.chanId) s)) := by
  rw [exec_processFrame_active hact hc hwf hid, processFrame, if_pos hp, ackAndNotify_eq hc hp,
    statusOfSinkWrite_eq_ok.mpr hack, if_neg (not_not_intro rfl),
    callbackInvocation_none (by rw [afterSinkWrite_chans]; exact hc) hcb, andThen_next, returns_next]

end

/-- Settles O30: credit, then the drain, which does nothing on an empty queue. -/
theorem noPayloadFrameIsCredit : Obligations.NoPayloadFrameIsCredit := by
  intro i frame c s hact hc hwf hid hp credited
  have hcredit : ∀ st t, drain i credited = .next (st, t) →
      exec (.processFrame i frame) s = .next (emit (.ret (.headStatus false st)) t) :=
    fun st t hdrain => exec_processFrame_credit hact hc hwf hid hp hdrain
  exact ⟨hcredit, fun hq => hcredit _ _ (drain_of_queue_nil (setChannel_get_same i c _ s hc) hq)⟩

/-- Settles O31: a credit at window 0 allows the head alone. -/
theorem creditReleasesOldestFrame : Obligations.CreditReleasesOldestFrame := by
  intro i frame head tail c rest s hact hc hwf hid hp hq hw hhead hnext hsink
  have hcredited : creditWindow c.window = 1#16 := by rw [hw]; rfl
  have hspent : windowAfterAll [head] (1#16 : Window) = 0#16 := windowAfter_nonFinal hhead _
  have hallow : windowAllows [head] (1#16 : Window) := windowAllows_cons.mpr ⟨.inr (by decide), windowAllows_nil _⟩
  have hdrain := drain_sent (sent := [head]) (kept := tail) (more := rest)
    (setChannel_get_same i c { c with window := 1#16 } s hc) hq hallow hsink
    fun next more htail => ⟨hnext next more htail, by rw [hspent]; decide⟩
  rw [exec_processFrame_credit hact hc hwf hid hp (by rw [hcredited]; exact hdrain)]
  simp [afterSent, setChannel, emit, hspent, hsink, hw]

/-- Settles O32: the sink's answer to the ack decides. -/
theorem payloadFrameAckedWithoutCallback : Obligations.PayloadFrameAckedWithoutCallback := by
  intro i frame c s hact hc hwf hid hp hcb
  by_cases hack : (drawSink s).1 = .ok
  case pos =>
    rw [exec_processFrame_dropped hact hc hwf hid hp hack hcb, statusOfSinkWrite_eq_ok.mpr hack, hack,
      decide_eq_true rfl, Bool.and_true]
    rfl
  case neg =>
    have hst : statusOfSinkWrite s = .outputBufferTooSmall := if_neg hack
    rw [exec_processFrame_unacked hact hc hwf hid hp hack, hst, decide_eq_false hack, Bool.and_false]
    rfl

/-- Settles O34: an ack that failed was not accepted. -/
theorem failedAckSuppressesCallback : Obligations.FailedAckSuppressesCallback := by
  intro i frame c e s hact hc hwf hid hp hfail
  exact exec_processFrame_unacked hact hc hwf hid hp (by rw [hfail]; exact nofun)

/-- Settles O33: the ack, the callback's event, its operations and then its answer. -/
theorem ackPrecedesCallback : Obligations.AckPrecedesCallback := by
  refine ⟨fun i frame c handle reply s s1 u hact hc hwf hid hp hcb hack hreply hrun => ?answered,
    fun i frame c handle answer rest more s hact hc hwf hid hp hcb hsink hreply => ?quiet⟩
  case answered =>
    rw [exec_processFrame_callback hact hc hwf hid hp hcb hack hreply, hrun, returns_next]
    rfl
  case quiet =>
    rw [exec_processFrame_callback_cons hact hc hwf hid hp hcb hsink hreply, runInCallback, returns_next]
    simp only [emit, List.append_assoc, List.cons_append, List.nil_append]
    rfl

end Sys2Proof.Machine
end

section
/-! The transitions of `LINK_STATE` (`45_link.md` R232): which instruction may take which, and what an operation answers
on a Link that is not `Active`. -/

namespace Sys2Proof.Machine

/-! ### Operations that leave `LINK_STATE` alone -/

/-- What a callback may invoke, and cannot fail a Link, leaves `LINK_STATE` as it is (R262). -/
theorem exec_linkState_of_cannotFail {i : Instr} {s t : State} (hcb : callbackMayInvoke i = true)
    (hfail : mayFail i = false) (h : exec i s = .next t) : t.linkState = s.linkState := by
  by_cases hcodec : isCodec i = true
  · obtain ⟨r, hr⟩ := exec_codec hcodec
    rw [hr] at h
    cases h
    rfl
  cases i <;> simp only [isCodec, callbackMayInvoke, mayFail, reduceCtorEq, not_true] at hcodec hcb hfail
  case getChannel k =>
    obtain ⟨v, u, hr, rfl⟩ := returns_eq_next.mp h
    obtain ⟨-, hr⟩ := whenConstructed_eq_next.mp hr
    cases hr
    rfl
  case id k | sendWindow k =>
    obtain ⟨v, u, hr, rfl⟩ := returns_eq_next.mp h
    obtain ⟨-, hr⟩ := whenConstructed_eq_next.mp hr
    obtain ⟨c, -, hr⟩ := withChannel_eq_next.mp hr
    cases hr
    rfl
  case setCallback k cb =>
    obtain ⟨v, u, hr, rfl⟩ := returns_eq_next.mp h
    obtain ⟨-, hr⟩ := whenConstructed_eq_next.mp hr
    exact (registerCallback_next hr).2

/-! ### The transition table -/

/-- The transitions that instruction `i` may take (R232, R262). -/
inductive LinkStep (i : Instr) : LinkState → LinkState → Prop
  | stays (l : LinkState) : LinkStep i l l
  | fails (hfail : mayFail i = true) : LinkStep i .active .failed
  | constructs {cfg : LinkConfig} (hinit : i = .init cfg) : LinkStep i .uninitialized .active
  | closes {l : LinkState} (hl : l ≠ .uninitialized) (hclose : i = .close) : LinkStep i l .closed
  | destroys (l : LinkState) (hdestroy : i = .destroy) : LinkStep i l .uninitialized

/-- Only an `Active` Link fails, and by an instruction that may fail it. -/
theorem LinkStep.ofMayFail {i : Instr} {l m : LinkState} (hfail : mayFail i = true) (hlink : m = l ∨ m = .failed)
    (hidle : l ≠ .active → m = l) : LinkStep i l m := by
  by_cases hact : l = .active
  · subst hact
    rcases hlink with rfl | rfl
    · exact .stays _
    · exact .fails hfail
  · rw [hidle hact]
    exact .stays _

/-- The instructions that may fail a Link are submissions, arrivals on the inbound stream, and a direct
`process_frame`. -/
theorem mayFail_kinds {i : Instr} (h : mayFail i = true) :
    callbackMayInvoke i = true ∨ (∃ inp, ∀ s, exec i s = execRecv inp s) ∨ ∃ k frame, i = .processFrame k frame := by
  rcases instr_kinds i with hcb | hrecv | hframe | ⟨cfg, rfl⟩ | rfl | rfl
  · exact .inl hcb
  · exact .inr (.inl hrecv)
  · exact .inr (.inr hframe)
  all_goals cases h

/-- The others are operations of a callback, and the three that construct and end a Link. -/
theorem cannotFail_kinds {i : Instr} (h : mayFail i = false) :
    callbackMayInvoke i = true ∨ (∃ cfg, i = .init cfg) ∨ i = .close ∨ i = .destroy := by
  cases i <;> simp only [mayFail, Bool.true_eq_false] at h
  case init cfg => exact .inr (.inl ⟨cfg, rfl⟩)
  case close => exact .inr (.inr (.inl rfl))
  case destroy => exact .inr (.inr (.inr rfl))
  all_goals exact .inl rfl

/-- An instruction that may fail a Link fails an `Active` one or leaves `LINK_STATE` as it is. -/
theorem linkStep_of_mayFail {i : Instr} {s t : State} (hfail : mayFail i = true) (h : exec i s = .next t) :
    LinkStep i s.linkState t.linkState := by
  rcases mayFail_kinds hfail with hcb | ⟨inp, hrecv⟩ | ⟨k, frame, rfl⟩
  · rw [← execInCallback_eq_exec hcb] at h
    exact .ofMayFail hfail (execInCallback_next h).link (execInCallback_linkState h)
  · rw [hrecv] at h
    obtain ⟨r, u, hr, rfl⟩ := returns_eq_next.mp h
    obtain ⟨hkeeps, hidle⟩ := recv_next hr
    exact .ofMayFail hfail hkeeps.link fun hs => by rw [hidle hs, emit_linkState]
  · obtain ⟨hact, c, r, u, -, hr, rfl⟩ := execProcessFrame_next h
    exact .ofMayFail hfail (processFrame_next hr).link fun hs => absurd hact hs

/-- The others leave it as it is, but for the three that construct and end a Link. -/
theorem linkStep_of_cannotFail {i : Instr} {s t : State} (hfail : mayFail i = false) (h : exec i s = .next t) :
    LinkStep i s.linkState t.linkState := by
  rcases cannotFail_kinds hfail with hcb | ⟨cfg, rfl⟩ | rfl | rfl
  · rw [exec_linkState_of_cannotFail hcb hfail h]
    exact .stays _
  · obtain ⟨v, u, hr, rfl⟩ := returns_eq_next.mp h
    obtain ⟨hs, ⟨-, -, rfl⟩ | ⟨-, -, hl, -⟩⟩ := initLink_next hr
    · exact .stays _
    · rw [hs, emit_linkState, hl]
      exact .constructs rfl
  · obtain ⟨v, u, hr, rfl⟩ := returns_eq_next.mp h
    obtain ⟨hs, rfl⟩ := closeLink_next hr
    exact .closes hs rfl
  · obtain ⟨v, u, hr, rfl⟩ := returns_eq_next.mp h
    rw [emit_linkState, (destroyLink_next hr).1]
    exact .destroys _ rfl

/-- Every instruction takes one of its transitions. -/
theorem exec_linkStep {i : Instr} {s t : State} (h : exec i s = .next t) : LinkStep i s.linkState t.linkState := by
  cases hfail : mayFail i with
  | true => exact linkStep_of_mayFail hfail h
  | false => exact linkStep_of_cannotFail hfail h

/-- The transitions of the instructions are those of the table. -/
theorem LinkStep.linkTransition {i : Instr} {l m : LinkState} (h : LinkStep i l m) : linkTransition l m = true := by
  cases h with
  | stays => cases l <;> rfl
  | fails => rfl
  | constructs => rfl
  | closes hl =>
    cases l
    case uninitialized => exact absurd rfl hl
    all_goals rfl
  | destroys => cases l <;> rfl

/-- Settles O52: the state that a Link comes to tells which of the transitions was taken. -/
theorem linkStateTransitions : Obligations.LinkStateTransitions := by
  intro i s t h
  have hstep := exec_linkStep h
  generalize s.linkState = l at hstep ⊢
  generalize t.linkState = m at hstep ⊢
  refine ⟨hstep.linkTransition, ?active, ?closed, ?uninitialized, ?failed⟩
  case active =>
    rintro rfl hne
    cases hstep with
    | stays => exact absurd rfl hne
    | constructs hinit => exact ⟨_, hinit⟩
  case closed =>
    rintro rfl hne
    cases hstep with
    | stays => exact absurd rfl hne
    | closes _ hclose => exact hclose
  case uninitialized =>
    rintro rfl hne
    cases hstep with
    | stays => exact absurd rfl hne
    | destroys _ hdestroy => exact hdestroy
  case failed =>
    rintro rfl hne
    cases hstep with
    | stays => exact absurd rfl hne
    | fails hfail => exact ⟨rfl, hfail⟩

/-! ### Before `init`, and after `close` or a fatal error -/

/-- What arrives on the stream is refused before `init`. -/
theorem execRecv_uninitialized {inp : Option Bytes} {s : State} (hs : s.linkState = .uninitialized) :
    execRecv inp s = .refused .uninitialized :=
  congrArg (returns _) (whenActive_uninitialized hs _ _)

/-- On a `Closed` or `Failed` Link nothing of it is looked at (R181). -/
theorem execRecv_inactive {inp : Option Bytes} {s : State} (hs : s.linkState = .closed ∨ s.linkState = .failed) :
    execRecv inp s = .next (emit (.ret (.consumed .linkNotActive 0)) s) :=
  congrArg (returns _) (whenActive_inactive hs _ _)

/-- Settles O51: each operation that needs a Link looks at `LINK_STATE` first. -/
theorem uninitializedLinkRefuses : Obligations.UninitializedLinkRefuses := by
  intro i s hs hcodec hinit hdestroy
  rcases instr_kinds i with hcb | ⟨inp, hrecv⟩ | ⟨k, frame, rfl⟩ | ⟨cfg, rfl⟩ | rfl | rfl
  · cases i <;> simp only [callbackMayInvoke, isCodec, reduceCtorEq] at hcb hcodec
    case writeFrame | write => exact congrArg (returns _) (whenActive_uninitialized hs _ _)
    all_goals exact congrArg (returns _) (whenConstructed_uninitialized hs _)
  · exact (hrecv s).trans (execRecv_uninitialized hs)
  · exact execProcessFrame_uninitialized hs
  · exact absurd rfl (hinit cfg)
  · exact congrArg (returns _) (whenConstructed_uninitialized hs _)
  · exact absurd rfl hdestroy

/-- Settles O50: an arrival in any form, and the two operations that hand bytes to the sink. -/
theorem inactiveLinkAnswersLinkNotActive : Obligations.InactiveLinkAnswersLinkNotActive := by
  intro inp i str s hs
  refine ⟨execRecv_inactive hs, ?writeFrame, ?write, fun f size => execRecv_inactive hs,
    fun k f size cid hkind => ?noPayload, fun k f size cid body hkind => ?payload⟩
  case writeFrame => exact congrArg (returns _) (whenActive_inactive hs _ _)
  case write => exact congrArg (returns _) (whenActive_inactive hs _ _)
  case noPayload => exact ((exec_noPayloadKind hkind).2 s).trans (execRecv_inactive hs)
  case payload => exact ((exec_payloadKind hkind).2 s).trans (execRecv_inactive hs)

end Sys2Proof.Machine
end

section
/-! What `recv` answers (`43_reassembler.md` R187, `45_link.md` R233), and the frames that the dispatcher has no channel
for (`45_link.md` R238, R239). -/

namespace Sys2Proof.Machine

/-! ### The count of `recv` -/

/-- The rounds of the reassembler count no more than the input, and with `OK` all of it, on a Link that did not fail
(R187, R188). -/
theorem feedLoop_counts {n fuel fs m : Nat} {x : Bytes} {s t : State} {st : Status} (hlive : s.linkState ≠ .failed)
    (hfs : fs ≤ n) (h : feedLoop n fuel fs x s = .next ((st, m), t)) :
    m ≤ n ∧ (st = .ok → m = n ∧ t.linkState ≠ .failed) := by
  induction fuel generalizing fs x s with
  | zero =>
    cases h
    exact ⟨Nat.le_refl n, fun _ => ⟨rfl, hlive⟩⟩
  | succ fuel ih =>
    simp only [feedLoop, fill_eq, ← stored_append] at h
    split at h
    case isTrue =>
      cases h
      exact ⟨Nat.le_refl n, fun _ => ⟨rfl, hlive⟩⟩
    split at h
    case isTrue =>
      cases h
      exact ⟨Nat.le_refl n, fun _ => ⟨rfl, by rwa [stored_linkState]⟩⟩
    obtain ⟨hdr, -, h⟩ := readBuffer_eq_next.mp h
    split at h
    case isTrue =>
      cases h
      exact ⟨hfs, nofun⟩
    split at h
    case isTrue =>
      cases h
      exact ⟨Nat.le_refl n, fun _ => ⟨rfl, by rwa [stored_linkState]⟩⟩
    obtain ⟨frame, -, h⟩ := readBuffer_eq_next.mp h
    obtain ⟨st', u, -, h⟩ := andThen_eq_next.mp h
    split at h
    case isTrue =>
      cases h
      refine ⟨hfs, fun hok => ?_⟩
      split at hok
      · cases hok
      · contradiction
    case isFalse hu =>
      split at h
      case isTrue hst =>
        cases h
        exact ⟨Nat.sub_le _ _, fun hok => absurd hok hst⟩
      case isFalse => exact ih (s := frameBoundary u) hu (Nat.sub_le _ _) h

/-- Settles O46: the count is the rounds', and what they dispatch leaves the Link `Active` or fails it. -/
theorem recvConsumedCount : Obligations.RecvConsumedCount := by
  intro inp s hact
  have hrecv : exec (.recv (some inp)) s = returns (fun r => .consumed r.1 r.2) (feed inp s) :=
    congrArg (returns _) (whenActive_active hact _ _)
  refine ⟨fun st n t hfeed => ?answered, fun e hfeed => by rw [hrecv, hfeed, returns_fault],
    fun e hfeed => by rw [hrecv, hfeed, returns_refused]⟩
  case answered =>
    obtain ⟨hle, hok⟩ := feedLoop_counts (by rw [hact]; decide) (Nat.zero_le _) hfeed
    refine ⟨by rw [hrecv, hfeed, returns_next], hle, fun hst => ?_⟩
    obtain ⟨hn, hlive⟩ := hok hst
    exact ⟨hn, ((feedLoop_keepsSlots hfeed).link.resolve_right hlive).trans hact⟩

/-! ### Frames without a channel -/

/-- A frame for the control ID, or for an ID at or above `N_CHANNELS`, fails the Link (R238, R239). -/
theorem route_invalidChannel {frame : Bytes} {s : State}
    (h : (frameId frame).toNat = controlId ∨ s.cfg.nChannels ≤ (frameId frame).toNat) :
    route frame s = raiseFatal .invalidChannelId s := by
  by_cases hctl : (frameId frame).toNat = controlId
  · rw [route, if_pos hctl, controlHandler]
  · rw [route, if_neg hctl, if_neg (Nat.not_lt.mpr (h.resolve_left hctl))]

/-- The bytes that complete such a frame are stored, nothing of it is consumed, and what follows is not looked at
(D6). -/
theorem execRecv_invalidChannel {frame rest : Bytes} {s : State} (hact : s.linkState = .active)
    (harr : arrivedFront frame s) (hwf : frameWf frame = true)
    (h : (frameId frame).toNat = controlId ∨ s.cfg.nChannels ≤ (frameId frame).toNat) :
    execRecv (some (frame.drop s.cur ++ rest)) s = .next (emit (.ret (.consumed .invalidChannelId 0))
      { stored (frame.drop s.cur) s with linkState := .failed }) := by
  rw [execRecv, recv, whenActive_active hact, feed_arrived harr hwf,
    route_invalidChannel (by rwa [stored_cfg]), raiseFatal, andThen_next, if_pos rfl, if_neg (by decide), returns_next]

/-- Settles O42: the range check of the dispatcher. -/
theorem outOfRangeIdIsFatal : Obligations.OutOfRangeIdIsFatal :=
  fun _ _ _ hact harr hwf hid => execRecv_invalidChannel hact harr hwf (.inr hid)

/-- Settles O41: the instruction is the arrival of the whole frame at a boundary, with nothing behind it. -/
theorem controlFrameIsFatal : Obligations.ControlFrameIsFatal := by
  refine ⟨fun f size body s hact hcur hbody hmax => ?instruction,
    fun frame rest s hact harr hwf hid => execRecv_invalidChannel hact harr hwf (.inl hid)⟩
  case instruction =>
    have hne : streamBytes f size (BitVec.ofNat 13 controlId) body ≠ [] :=
      List.append_ne_nil_of_left_ne_nil (List.cons_ne_nil _ _) _
    have h := execRecv_invalidChannel (rest := []) hact (arrivedFront_boundary hcur hne)
      (frameWf_streamBytes _ hbody hmax) (.inl (by rw [frameId_streamBytes]; rfl))
    rwa [hcur, List.drop_zero, List.append_nil] at h

end Sys2Proof.Machine
end

section
/-! Operations on a Link that exists (`44_channel.md` R207, R208; `45_link.md` R234 to R237): the accessors,
registration, raw `write`, and the end of a Link. -/

namespace Sys2Proof.Machine

/-- Settles O27: each operation on a slot finds it, and `get_channel` only compares. -/
theorem slotOperationsResult : Obligations.SlotOperationsResult := by
  refine ⟨fun i cb c s hs hc => ⟨?id, ?sendWindow, ?setCallback⟩, fun k s hs => ⟨fun hk => ?slot, fun hk => ?null⟩⟩
  case id => exact congrArg (returns _) ((whenConstructed_of hs _).trans (withChannel_some hc _))
  case sendWindow => exact congrArg (returns _) ((whenConstructed_of hs _).trans (withChannel_some hc _))
  case setCallback => exact congrArg (returns _) ((whenConstructed_of hs _).trans (withChannel_some hc _))
  case slot =>
    show execGetChannel k s = _
    rw [execGetChannel, whenConstructed_of hs, lookupChannel, if_pos hk, returns_next]
  case null =>
    show execGetChannel k s = _
    rw [execGetChannel, whenConstructed_of hs, lookupChannel, if_neg (Nat.not_lt.mpr hk), returns_next]

/-- Settles O29: one `SinkWrite`, whose status is passed on. -/
theorem writeGoesToSink : Obligations.WriteGoesToSink := fun str s hact =>
  congrArg (returns _) ((whenActive_active hact _ _).trans (sinkStatus_sinkWrite str s))

/-- `destroy` of a Link that exists (R237). -/
theorem destroyLink_constructed {s : State} (hs : s.linkState ≠ .uninitialized) :
    destroyLink s = .next ((), { s with linkState := .uninitialized, rbuf := [], chans := [],
                                        cur := (Config.unspecifiedCur s.draws).val, draws := s.draws + 1 }) :=
  if_neg hs

/-- Settles O49: both look at `LINK_STATE` only, and the free value of `CUR` is within its range. -/
theorem closeAndDestroyResult : Obligations.CloseAndDestroyResult := by
  refine fun s => ⟨fun hs => ?close, fun hs => ?nothing, fun hs => ?destroy⟩
  case close => exact congrArg (returns _) (whenConstructed_of hs _)
  case nothing => exact congrArg (returns _) (if_pos hs)
  case destroy =>
    exact ⟨_, congrArg (returns _) (destroyLink_constructed hs), rfl, rfl, fun _ => rfl,
      Nat.le_of_lt_succ (Config.unspecifiedCur s.draws).isLt, rfl, rfl, rfl⟩

end Sys2Proof.Machine
end

section
/-! Construction (`45_link.md` R230, R231): what `init` answers with and without `CHANNEL_INIT`, and what the upcalls of
the slots may do. -/

namespace Sys2Proof.Machine

/-! ### The answers of `init` (R230) -/

theorem initLink_constructed {cfg : LinkConfig} {s : State} (hs : s.linkState ≠ .uninitialized) :
    initLink cfg s = .refused .alreadyInitialized := if_pos hs

theorem initLink_illegal {cfg : LinkConfig} {s : State} (hs : s.linkState = .uninitialized)
    (hlegal : configLegal cfg = false) : initLink cfg s = .next (.invalidParameter, s) := by
  simp [initLink, hs, hlegal]

theorem initLink_channelInit {cfg : LinkConfig} {s : State} (hs : s.linkState = .uninitialized)
    (hlegal : configLegal cfg = true) (hci : cfg.channelInit = true) :
    initLink cfg s = andThen (channelInits cfg.nChannels 0 (construct cfg s))
      fun _ u => .next (.ok, { u with linkState := .active }) := by
  simp [initLink, hs, hlegal, hci]

/-- Settles O47: the parameters are legal or not, and a Link exists already or not. -/
theorem initResult : Obligations.InitResult := by
  refine ⟨fun cfg s hs hn hn' hw hw' hsink hci => ?legal,
    fun cfg s => ⟨fun hs hbad => ?illegal, fun hs => congrArg (returns _) (initLink_constructed hs)⟩⟩
  case legal =>
    have hlegal : configLegal cfg = true := configLegal_iff.mpr ⟨hn, hn', hw, hw', hsink⟩
    refine ⟨_, congrArg (returns _) (initLink_of_legal hs hlegal hci), rfl, freshChannels_length _ _ _,
      fun i hi => ?_⟩
    have hget := freshChannels_get (w := cfg.wMax) (i := 0) hi
    rwa [Nat.zero_add] at hget
  case illegal =>
    have hillegal : configLegal cfg = false := by
      rw [Bool.eq_false_iff, ne_eq, configLegal_iff]
      rintro ⟨hn, hn', hw, hw', hsink⟩
      rw [hsink] at hbad
      simp only [Bool.true_eq_false, or_false] at hbad
      omega
    exact congrArg (returns _) (initLink_illegal hs hillegal)

/-! ### The upcall of one slot (R231) -/

/-- Anything but registration and the accessors on the slot handed over is refused. -/
theorem execInChannelInit_refused {slot : Nat} {i : Instr} (h : channelInitMayInvoke slot i = false) (s : State) :
    execInChannelInit slot i s = .refused .notInChannelInit := by
  cases i
  case setCallback | id | sendWindow => exact if_neg (of_decide_eq_false h)
  all_goals rfl

/-- On its slot it registers a callback. -/
theorem execInChannelInit_setCallback {k : Nat} {c : Channel} {s : State} (hc : s.chans[k]? = some c)
    (cb : Option Word64) : execInChannelInit k (.setCallback k cb) s =
      .next (emit (.ret .unit) (setChannel k { c with callback := cb } s)) :=
  (if_pos rfl).trans (congrArg (returns _) (withChannel_some hc _))

/-- On its slot it reads the ID. -/
theorem execInChannelInit_id {k : Nat} {c : Channel} {s : State} (hc : s.chans[k]? = some c) :
    execInChannelInit k (.id k) s = .next (emit (.ret (.chanId c.chanId)) s) :=
  (if_pos rfl).trans (congrArg (returns _) (withChannel_some hc _))

/-- On its slot it reads the window. -/
theorem execInChannelInit_sendWindow {k : Nat} {c : Channel} {s : State} (hc : s.chans[k]? = some c) :
    execInChannelInit k (.sendWindow k) s = .next (emit (.ret (.window c.window)) s) :=
  (if_pos rfl).trans (congrArg (returns _) (withChannel_some hc _))

/-- An upcall that invokes one operation. -/
theorem runInChannelInit_singleton_next {slot : Nat} {i : Instr} {s t : State}
    (h : execInChannelInit slot i s = .next t) : runInChannelInit slot [i] s = .next ((), t) := by
  simp only [runInChannelInit, h]

/-- The upcall of slot `i` with its operations listed next, and then the upcalls of `k` more slots. -/
theorem channelInits_cons {k i : Nat} {calls : List Instr} {more : List (List Instr)} {s : State}
    (h : s.env.channelInit = calls :: more) :
    channelInits (k + 1) i s =
      andThen (runInChannelInit i calls (emit (.channelInit i) { s with env := { s.env with channelInit := more } }))
        fun _ u => channelInits k (i + 1) u := by
  simp only [channelInits, drawChannelInit_cons h]

/-- Whatever the upcall of a slot has invoked before it, an operation that is not allowed stops the upcalls. -/
theorem channelInits_refused {k i : Nat} {before after : List Instr} {call : Instr} {more : List (List Instr)}
    {s u : State} (h : s.env.channelInit = (before ++ call :: after) :: more)
    (hbefore : runInChannelInit i before (emit (.channelInit i) { s with env := { s.env with channelInit := more } }) =
      .next ((), u)) (hcall : channelInitMayInvoke i call = false) :
    channelInits (k + 1) i s = .refused .notInChannelInit := by
  rw [channelInits_cons h, runInChannelInit_append, hbefore, andThen_next, runInChannelInit,
    execInChannelInit_refused hcall, andThen_refused]

/-! ### Upcalls that each register a callback on their slot -/

/-- The upcall of slot `i` registers a callback, and then come the upcalls of `k` more slots. -/
theorem channelInits_register_cons {k i : Nat} {cb : Option Word64} {c : Channel} {more : List (List Instr)}
    {s : State} (hc : s.chans[i]? = some c) (h : s.env.channelInit = [.setCallback i cb] :: more) :
    channelInits (k + 1) i s = channelInits k (i + 1)
      { s with chans := s.chans.set i { c with callback := cb },
               env := { s.env with channelInit := more },
               trace := s.trace ++ [.channelInit i, .ret .unit] } := by
  rw [channelInits_cons h, runInChannelInit_singleton_next (execInChannelInit_setCallback (c := c) ?_ cb), andThen_next]
  · simp only [emit, setChannel, List.append_assoc, List.cons_append, List.nil_append]
  · exact hc

/-- The upcalls of slots `i, i+1, …`, `k` of them, that each register a callback: the observations of each, in that
order; the slots in front are as they were, and each of the `k` slots holds its own callback. -/
theorem channelInits_register {handle : Nat → Word64} {k i : Nat} {s : State} (hlen : i + k ≤ s.chans.length)
    (h : s.env.channelInit = (List.range' i k).map fun j => [.setCallback j (some (handle j))]) :
    ∃ t, channelInits k i s = .next ((), t) ∧
      t.trace = s.trace ++ (List.range' i k).flatMap (fun j => [.channelInit j, .ret .unit]) ∧
      (∀ j, j < i → t.chans[j]? = s.chans[j]?) ∧
      ∀ j c, i ≤ j → j < i + k → s.chans[j]? = some c →
        t.chans[j]? = some { c with callback := some (handle j) } := by
  induction k generalizing i s with
  | zero => exact ⟨s, rfl, (List.append_nil _).symm, fun _ _ => rfl, fun j _ hij hji => absurd hji (by omega)⟩
  | succ k ih =>
    rw [List.range'_succ, List.map_cons] at h
    have hi : i < s.chans.length := by omega
    rw [channelInits_register_cons (List.getElem?_eq_getElem hi) h]
    obtain ⟨t, hrun, htrace, hfront, hslots⟩ := ih (i := i + 1) (s := { s with
      chans := s.chans.set i { s.chans[i] with callback := some (handle i) },
      env := { s.env with channelInit := (List.range' (i + 1) k).map fun j => [.setCallback j (some (handle j))] },
      trace := s.trace ++ [.channelInit i, .ret .unit] }) (by rw [List.length_set]; omega) rfl
    refine ⟨t, hrun, ?trace, fun j hj => ?front, fun j c hij hji hc => ?slot⟩
    case trace => rw [htrace, List.range'_succ, List.flatMap_cons, List.append_assoc]
    case front => rw [hfront j (by omega), List.getElem?_set_ne (Nat.ne_of_gt hj)]
    case slot =>
      rcases Nat.eq_or_lt_of_le hij with rfl | hlt
      · rw [hfront i (Nat.lt_succ_self i), List.getElem?_set_self hi]
        rw [List.getElem?_eq_getElem hi] at hc
        rw [Option.some.inj hc]
      · exact hslots j c hlt (by omega) (by rw [List.getElem?_set_ne (Nat.ne_of_lt hlt), hc])

/-- Settles O48: the upcalls run from slot 0 on; one that is not allowed ends them. -/
theorem channelInitOncePerSlot : Obligations.ChannelInitOncePerSlot := by
  refine ⟨fun cfg s hs hn hn' hw hw' hsink hci => ?init,
    fun k cb c u hc => ⟨execInChannelInit_setCallback hc cb, execInChannelInit_id hc, execInChannelInit_sendWindow hc⟩⟩
  have hlegal : configLegal cfg = true := configLegal_iff.mpr ⟨hn, hn', hw, hw', hsink⟩
  have hexec : exec (.init cfg) s = _ := congrArg (returns _) (initLink_channelInit hs hlegal hci)
  refine ⟨fun u hrun => ?completes, fun handle henv => ?registers,
    fun k before after call more u v hk hrun henv hbefore hcall => ?refused⟩
  case completes => rw [hexec, hrun, andThen_next, returns_next]
  case registers =>
    obtain ⟨t, hrun, htrace, -, hslots⟩ := channelInits_register (handle := handle) (k := cfg.nChannels) (i := 0)
      (s := construct cfg s) (by simp) (by rw [construct_env, henv, List.range_eq_range'])
    refine ⟨_, by rw [hexec, hrun, andThen_next, returns_next], rfl, ?_, fun i hi => ?_⟩
    · simp [htrace, List.range_eq_range']
    · have hget := freshChannels_get (w := cfg.wMax) (i := 0) hi
      rw [Nat.zero_add] at hget
      exact hslots i _ (Nat.zero_le i) (by omega) hget
  case refused =>
    obtain ⟨m, hm⟩ := Nat.exists_eq_add_of_lt hk
    rw [hexec, hm, Nat.add_assoc, channelInits_add, hrun, andThen_next, Nat.zero_add,
      channelInits_refused henv hbefore hcall, andThen_refused, returns_refused]

end Sys2Proof.Machine
end

section
/-! A callback that fails (`60_exceptions.md` R259; `44_channel.md` R206; `43_reassembler.md` R187; decision D7). -/

namespace Sys2Proof.Machine

/-- A payload frame of a slot with a callback, the ack's acceptance and a reply without operations listed next: the ack
and then the callback are observed, the answer is the status, and the Link is as it was (R205, R206). -/
theorem route_quietCallback {frame : Bytes} {c : Channel} {handle : Word64} {answer : CallbackStatus}
    {rest : List SinkStatus} {more : List CallbackReply} {s : State} (hctl : (frameId frame).toNat ≠ controlId)
    (hslot : (frameId frame).toNat < s.cfg.nChannels) (hc : s.chans[(frameId frame).toNat]? = some c)
    (hp : hasPayload (frameFlags frame) = true) (hcb : c.callback = some handle) (hsink : s.env.sink = .ok :: rest)
    (hreply : s.env.callback = ⟨[], answer⟩ :: more) :
    route frame s = .next (callbackStatus answer,
      { s with env := { s.env with sink := rest, callback := more },
               trace := s.trace ++
                 [.sink (headerBytes c.chanId ⟨true, false, false⟩ 0) .ok,
                  .callback (frameId frame).toNat handle frame frame.length answer] }) := by
  have hacked := afterSinkWrite_ok (makeAck c.chanId) hsink
  rw [route_payload rfl hctl hslot hc hp, statusOfSinkWrite_ok hsink, if_neg (not_not_intro rfl),
    callbackInvocation_some (by rwa [afterSinkWrite_chans]) hcb
      (drawCallback_cons (rest := more) (by rw [hacked]; exact hreply)), hacked, runInCallback, andThen_next]
  simp only [emit, List.append_assoc, List.cons_append, List.nil_append]
  rfl

/-- Settles O44: the frame is routed with the callback's value as its status, on a Link that did not fail, which ends
the round at the boundary behind the frame. -/
theorem callbackFailureIsNotFatal : Obligations.CallbackFailureIsNotFatal := by
  intro frame rest c handle e answers more s hact harr hwf hp hslot hctl hc hcb hsink hreply
  have hroute := route_quietCallback (s := stored (frame.drop s.cur) s) hctl (by rwa [stored_cfg])
    (by rwa [stored_chans]) hp hcb (by rwa [stored_env]) (by rwa [stored_env])
  show execRecv (some (frame.drop s.cur ++ rest)) s = _
  rw [execRecv, recv, whenActive_active hact, feed_arrived harr hwf, hroute, andThen_next,
    if_neg (by simp [hact]), if_pos (by simp [callbackStatus]), returns_next, stored_keeps]
  simp only [emit, frameBoundary, callbackStatus, List.append_assoc, List.cons_append, List.nil_append]

end Sys2Proof.Machine
end
